-- ==== Sys2Proof/Word.lean ====
section
/-! DEFINITION. The words of HEC: everything is unsigned (00_scope.md R6), and a bit sequence is a list of bits in
stream order, first bit leftmost (00_scope.md R7). -/

namespace Sys2Proof

/-- A byte value 0 to 255: a symbol, an operand, an output byte (00_scope.md R5 `SYM_W`). -/
abbrev Byte := BitVec 8

/-- A 32-bit register or command word (00_scope.md R5, bus data width). -/
abbrev Word := BitVec 32

/-- A node id, its creation sequence number: 9 bits (00_scope.md R5 `NODE_CAP`). -/
abbrev NodeId := BitVec 9

/-- A bit sequence in stream order, `s[0]` first (00_scope.md R7). -/
abbrev Bits := List Bool

end Sys2Proof
end

