-- ==== Sys2Proof/Machine/Bits.lean ====
section
/-! DEFINITION. Bit sequences, numbers and bytes (00_scope.md R7, R8; 42_code_table.md R118; 43_bit_packer.md R126). -/

namespace Sys2Proof.Machine

/-- The number a bit sequence denotes when its first bit is the most significant: the sum over i of
`s[i] * 2^(|s|-1-i)` (42_code_table.md R118). -/
def bitsToNat (s : Bits) : Nat := s.foldl (fun n b => 2 * n + b.toNat) 0

/-- `s ++ zeros(k - |s|)`. -/
def padTo (k : Nat) (s : Bits) : Bits := s ++ List.replicate (k - s.length) false

/-- `pack8(s)`, for a sequence of at most 8 bits: the first bit is the byte's bit 7 and missing low-order bits are 0
(00_scope.md R8). -/
def pack8 (s : Bits) : Byte := BitVec.ofNat 8 (bitsToNat (padTo 8 s))

/-- The 8 bits of a byte, most significant first (43_bit_packer.md R125, `bits(E)` of one byte). -/
def byteBits (x : Byte) : Bits := (List.range 8).map fun i => x.getLsbD (7 - i)

/-- The chunk `s[8j .. 8j+7]` (43_bit_packer.md R126). -/
def chunk (s : Bits) (j : Nat) : Bits := (s.drop (8 * j)).take 8

/-- The bytes of the whole chunks of `s`, `floor(|s| / 8)` of them, in stream order (43_bit_packer.md R126, R127). -/
def wholeBytes (s : Bits) : List Byte := (List.range (s.length / 8)).map fun j => pack8 (chunk s j)

/-- The bits of `s` that do not fill a chunk: `drop(s, 8 * floor(|s| / 8))` (43_bit_packer.md R127). -/
def leftover (s : Bits) : Bits := s.drop (8 * (s.length / 8))

/-- A code held as a 256-bit number (42_code_table.md R118). -/
def codeval (code : Bits) : BitVec 256 := BitVec.ofNat 256 (bitsToNat code)

end Sys2Proof.Machine
end

