-- ==== Sys2Proof/Config.lean ====
section
/-! DEFINITION. What one implementation of HEC fixes (00_scope.md R5) and the values the spec leaves free.
A constant declared `opaque` has no body here: nothing can be proved of its value beyond its type, so a claim about the
model holds whatever it is. -/

namespace Sys2Proof.Config

/-- `OUT_DEPTH - 32`: OPEN in the spec (92_eei_decisions.md D9, U7), any of 0 to 223. Log 3. -/
opaque outDepthAbove32 : Fin 224

/-- The output FIFO depth in bytes: "any value 32 to 255" (00_scope.md R5). Log 3. -/
def outDepth : Nat := 32 + outDepthAbove32.val

/-- Which 4 KiB page of the host's address space the window stands in: OPEN (92_eei_decisions.md D45, U8). Log 4. -/
opaque hecBasePage : Nat

/-- `HEC_BASE`, "a 4 KiB-aligned host address" (92_eei_decisions.md D45). Log 4. -/
def hecBase : Nat := 0x1000 * hecBasePage

/-- The bytes of the register window: 0x000 to 0xFFF (20_memory.md R60). -/
def windowSize : Nat := 0x1000

/-- The window offset of a host address, where it lies in the window (20_memory.md R60, D45). -/
def windowOffset (address : Nat) : Option Nat :=
  if hecBase ≤ address ∧ address < hecBase + windowSize then some (address - hecBase) else none

/-- The `k`-th free draw of an unspecified readback in the FAULT phase: "Each read may return any 32-bit value, and two
reads may differ" (60_exceptions.md R164, U1). Log 5. -/
opaque faultReadback : Nat → Word

/-- `MAX_CODE_LEN`, 255 bits (00_scope.md R5). -/
def maxCodeLen : Nat := 255

/-- `NODE_CAP`, 511 arena entries (00_scope.md R5). -/
def nodeCap : Nat := 511

/-- The identification value (00_scope.md R1, 10_state.md R38). -/
def idValue : Word := 0x48454331#32

end Sys2Proof.Config
end

