-- ==== Sys2Proof/Syntax.lean ====
section
/-! DEFINITION. The six commands of HEC (00_scope.md R2, 30_encoding.md R82): one constructor for each row of
`spec/opcode_table.json`. -/

namespace Sys2Proof

/-- A command word that matches a row of 30_encoding.md R82. The only operand of any command is the byte `b` (R81). -/
inductive Instr where
  /-- `NOP` (45_control.md R149). -/
  | nop
  /-- `CLEAR` (45_control.md R150). -/
  | clear
  /-- `COUNT b` (40_frequency.md R91). -/
  | count (b : Byte)
  /-- `BUILD` (41_tree_builder.md R107). -/
  | build
  /-- `ENCODE b` (43_bit_packer.md R127). -/
  | encode (b : Byte)
  /-- `FLUSH` (43_bit_packer.md R128). -/
  | flush
  deriving DecidableEq, Repr

end Sys2Proof
end

