-- ==== Sys2Proof/WellFormed.lean ====
section
/-! DEFINITION. Which command words are well-formed (30_encoding.md R82, R83), by the match and mask columns of the
opcode map. The decoder (Decode.lean) is written from R84's field tests; that the two agree is stated as an obligation. -/

namespace Sys2Proof

/-- One row of the opcode map: "A word is well-formed iff it matches one row exactly under the row's mask." -/
structure OpcodeRow where
  mnemonic : String
  pattern : Word
  mask : Word
  deriving DecidableEq, Repr

/-- The word matches this row. -/
def OpcodeRow.matchesWord (r : OpcodeRow) (w : Word) : Bool := w &&& r.mask == r.pattern

/-- The opcode map of 30_encoding.md R82. -/
def opcodeMap : List OpcodeRow :=
  [ ⟨"NOP",    0x00000000#32, 0xFFFFFFFF#32⟩,
    ⟨"CLEAR",  0x01000000#32, 0xFFFFFFFF#32⟩,
    ⟨"COUNT",  0x02000000#32, 0xFFFFFF00#32⟩,
    ⟨"BUILD",  0x03000000#32, 0xFFFFFFFF#32⟩,
    ⟨"ENCODE", 0x04000000#32, 0xFFFFFF00#32⟩,
    ⟨"FLUSH",  0x05000000#32, 0xFFFFFFFF#32⟩ ]

/-- A command word is well-formed (30_encoding.md R82); every other word is ill-formed (R83). -/
def wordWellFormed (w : Word) : Bool := opcodeMap.any (·.matchesWord w)

/-- A host access the bus can express: 32 bits, aligned, inside the 4 KiB window (20_memory.md R60, R66). -/
def accessWellFormed (off n : Nat) : Bool := n == 4 && off % 4 == 0 && decide (off < 0x1000)

/-- The row of the opcode map an instruction belongs to (30_encoding.md R82). -/
def Instr.row : Instr → OpcodeRow
  | .nop => ⟨"NOP", 0x00000000#32, 0xFFFFFFFF#32⟩
  | .clear => ⟨"CLEAR", 0x01000000#32, 0xFFFFFFFF#32⟩
  | .count _ => ⟨"COUNT", 0x02000000#32, 0xFFFFFF00#32⟩
  | .build => ⟨"BUILD", 0x03000000#32, 0xFFFFFFFF#32⟩
  | .encode _ => ⟨"ENCODE", 0x04000000#32, 0xFFFFFF00#32⟩
  | .flush => ⟨"FLUSH", 0x05000000#32, 0xFFFFFFFF#32⟩

/-- An instruction is well-formed: its operand, where it has one, is a byte 0 to 255 (30_encoding.md R81). The type of
the operand already says so, so this holds of every `Instr`; the checks that can fail are those on words and accesses. -/
def Instr.wellFormed : Instr → Bool
  | .nop | .clear | .build | .flush => true
  | .count b | .encode b => decide (b.toNat < 256)

end Sys2Proof
end

