-- ==== Sys2Proof/Decode.lean ====
section
/-! DEFINITION. Decoding and encoding of command words (30_encoding.md R80 to R85). Every command word is exactly 32
bits and occupies one `CMD` write (R85), so decoding is a total function of one word. -/

namespace Sys2Proof

/-- Why a word is ill-formed (30_encoding.md R83): the three cases of that rule, by name. Each is `ILLEGAL_CMD` to the
machine (60_exceptions.md R168). -/
inductive IllFormed where
  /-- `RSVD != 0`. -/
  | reservedNotZero
  /-- `OPCODE` is in {0x00, 0x01, 0x03, 0x05} and `OPND != 0`. -/
  | operandNotZero
  /-- `OPCODE` is in 0x06..0xFF. -/
  | unknownOpcode
  deriving DecidableEq, Repr

/-- `w[31:24]` (30_encoding.md R80). -/
def opcodeField (w : Word) : Byte := w.extractLsb' 24 8

/-- `w[23:8]`, "reserved; must be 0" (30_encoding.md R80). -/
def rsvdField (w : Word) : BitVec 16 := w.extractLsb' 8 16

/-- `b = w[7:0]` (30_encoding.md R80, R81). -/
def opndField (w : Word) : Byte := w.extractLsb' 0 8

/-- A command without an operand: its `OPND` must be 0 (30_encoding.md R80). -/
def withoutOperand (w : Word) (i : Instr) : Except IllFormed Instr :=
  if opndField w = 0#8 then .ok i else .error .operandNotZero

/-- The decoder of 30_encoding.md R84. -/
def decode (w : Word) : Except IllFormed Instr :=
  if rsvdField w ≠ 0#16 then .error .reservedNotZero
  else if opcodeField w = 0x00#8 then withoutOperand w .nop
  else if opcodeField w = 0x01#8 then withoutOperand w .clear
  else if opcodeField w = 0x02#8 then .ok (.count (opndField w))
  else if opcodeField w = 0x03#8 then withoutOperand w .build
  else if opcodeField w = 0x04#8 then .ok (.encode (opndField w))
  else if opcodeField w = 0x05#8 then withoutOperand w .flush
  else .error .unknownOpcode

/-- `OPCODE`, `RSVD` = 0 and `OPND` side by side (30_encoding.md R80). -/
def commandWord (opcode opnd : Byte) : Word := opcode ++ 0#16 ++ opnd

/-- The word of an instruction (30_encoding.md R82's bit patterns). -/
def encode : Instr → Word
  | .nop => commandWord 0x00#8 0#8
  | .clear => commandWord 0x01#8 0#8
  | .count b => commandWord 0x02#8 b
  | .build => commandWord 0x03#8 0#8
  | .encode b => commandWord 0x04#8 b
  | .flush => commandWord 0x05#8 0#8

/-- What the decoder reads from an opcode-table row's word of `nbits` bits, the bits above them zero. -/
def decodeTableWord (nbits w : Nat) : Option Instr :=
  match decode (BitVec.ofNat 32 (w % 2 ^ nbits)) with
  | .ok i => some i
  | .error _ => none

end Sys2Proof
end

