-- ==== Sys2Proof/Machine/State.lean ====
section
/-! DEFINITION. The state of HEC (10_state.md R20 to R36), of the host that drives it (30_encoding.md R86, R87) and of
the interleaving of the two, all of it plain data; the reset state (70_reset_and_hazards.md R186); and the ways a step
can stop. -/

namespace Sys2Proof.Machine

/-- `PHASE` (10_state.md R22). -/
inductive Phase where
  /-- 0: the frequency table is being filled. -/
  | count
  /-- 1: the tree and the code table are built. -/
  | coded
  /-- 2: the final byte has been flushed. -/
  | done
  /-- 3: a fatal error has occurred. -/
  | fault
  deriving DecidableEq, Repr

/-- The accepted multi-cycle command that has not completed (10_state.md R23). -/
inductive Pending where
  | build
  | encode (b : Byte)
  | flush
  deriving DecidableEq, Repr

/-- `ERRCODE` (60_exceptions.md R161); the values 7 to 15 are never produced (U13), so they have no constructor. -/
inductive ErrCode where
  | none
  | illegalCmd
  | sequence
  | overrun
  | missingCode
  | freqOverflow
  | emptyQueue
  deriving DecidableEq, Repr

/-- A valid entry of the node arena (10_state.md R27): `kind` with the fields that kind uses; the fields it does not
use are 0 (`Node.sym`, `Node.left`, `Node.right` in Machine/Tree.lean). -/
inductive Node where
  | leaf (sym : Byte) (weight : Word)
  | internal (left right : NodeId) (weight : Word)
  deriving DecidableEq, Repr

/-- What the host does next, one bus access each (20_memory.md R62): a raw access, or the next access of a `DRAIN` or
`WAIT` loop (30_encoding.md R87). -/
inductive HostOp where
  /-- `MemRead(off, n)`, its value kept under `name` (30_encoding.md R86 `RD`). -/
  | memRead (off n : Nat) (name : String)
  /-- `MemWrite(off, n, v)`. -/
  | memWrite (off n : Nat) (v : Word)
  /-- The head of the `DRAIN` loop: read `OUT_DATA`. -/
  | drain
  /-- The head of the `WAIT` loop: read `STATUS`. -/
  | wait
  /-- The second access of one pass of `WAIT`, which read `BUSY` as `busy` and a non-zero `OUT_LEVEL`: read `OUT_DATA`. -/
  | waitPop (busy : Bool)
  deriving DecidableEq, Repr

/-- Who moves at a step: one of the two agents (10_state.md R20), or a rising clock edge with `rst` = 1
(70_reset_and_hazards.md R185). -/
inductive Turn where
  | host
  | block
  | rst
  deriving DecidableEq, Repr

/-- Everything the spec gives HEC and its host. Log 1, 2, 7, 8 and 9 say how the host, the interleaving, `NNODES`,
`CODE[b].len` and the pending command's word are held. -/
structure State where
  /-- `PHASE` (10_state.md R22). -/
  phase : Phase
  /-- `PENDING` (10_state.md R23). -/
  pending : Option Pending
  /-- `FREQ[0..255]` (10_state.md R24). -/
  freq : Vector Word 256
  /-- `LEN` (10_state.md R25). -/
  len : Word
  /-- `NSYM` (10_state.md R26). -/
  nsym : BitVec 9
  /-- `NODE[0]` to `NODE[NNODES-1]` (10_state.md R27). -/
  nodes : List Node
  /-- `ROOT` (10_state.md R28). -/
  root : Option NodeId
  /-- `CODE[0..255].bits` (10_state.md R29). -/
  code : Vector Bits 256
  /-- `ACC` (10_state.md R30). -/
  acc : Bits
  /-- `OUTQ`, oldest first (10_state.md R31). -/
  outq : List Byte
  /-- `BITCNT` (10_state.md R32). -/
  bitcnt : BitVec 64
  /-- `OUTCNT` (10_state.md R33). -/
  outcnt : Word
  /-- `ERRCODE` (10_state.md R34). -/
  errCode : ErrCode
  /-- `ERRCMD` (10_state.md R34). -/
  errCmd : Word
  /-- `INT_STATUS`: bit 0 `ERR_I`, bit 1 `BUILD_I`, bit 2 `FLUSH_I` (10_state.md R35, R42). -/
  intStatus : BitVec 3
  /-- `INT_EN`, the same layout (10_state.md R35, R43). -/
  intEn : BitVec 3
  /-- `SEL` (10_state.md R36). -/
  sel : BitVec 9
  /-- The host operations still to come (30_encoding.md R86). -/
  hostProg : List HostOp
  /-- `OUTBUF` (30_encoding.md R86). -/
  outbuf : List Byte
  /-- The values the program's `RD` lines returned, oldest first (70_reset_and_hazards.md R195). -/
  reads : List (String × Word)
  /-- The interleaving still to come; the model's own (log 1). -/
  turns : List Turn
  /-- How many free values have been drawn; the model's own (log 5). -/
  draws : Nat
  deriving DecidableEq, Repr

/-- The machine right after reset, with nothing loaded into the host (70_reset_and_hazards.md R186). -/
def State.reset : State where
  phase := .count
  pending := none
  freq := Vector.replicate 256 0#32
  len := 0#32
  nsym := 0#9
  nodes := []
  root := none
  code := Vector.replicate 256 []
  acc := []
  outq := []
  bitcnt := 0#64
  outcnt := 0#32
  errCode := .none
  errCmd := 0#32
  intStatus := 0#3
  intEn := 0#3
  sel := 0#9
  hostProg := []
  outbuf := []
  reads := []
  turns := []
  draws := 0

/-- Why a step stops with a fault. An error HEC detects is NOT one of these: it enters the FAULT phase, a next state
(60_exceptions.md R162). -/
inductive Fault where
  /-- Raised by `memRead` and `memWrite` (Machine/Bus.lean) for an offset outside the 4 KiB window, an address the spec
  says does not exist (20_memory.md R60). Safe: the run stops. Log 12. -/
  | outsideWindow (off : Nat)
  deriving DecidableEq, Repr

/-- Why a step is refused. -/
inductive Refusal where
  /-- An instruction of the table that has no meaning in the model; no arm of `exec` answers with it. Safe. -/
  | notModelled (mnemonic : String)
  /-- Raised by `memRead` and `memWrite` (Machine/Bus.lean) for an access that is not 32 bits wide or not aligned:
  "A model refuses" it (20_memory.md R66, U9). Safe: "That refusal errs toward unprovable". -/
  | unsupportedAccess (off n : Nat)
  deriving DecidableEq, Repr

/-- What a step or a meaning answers. -/
abbrev Out := Host.Outcome State Fault Refusal

end Sys2Proof.Machine
end

