-- ==== Sys2Proof/Machine/Flags.lean ====
section
/-! DEFINITION. The status bits (10_state.md R39), the interrupt bits (R42, R43) and the interrupt output
(60_exceptions.md R173, R174). -/

namespace Sys2Proof.Machine

/-- The value of `PHASE` (10_state.md R22). -/
def Phase.value : Phase → BitVec 2
  | .count => 0#2
  | .coded => 1#2
  | .done => 2#2
  | .fault => 3#2

/-- The value of `ERRCODE` (60_exceptions.md R161). -/
def ErrCode.value : ErrCode → BitVec 4
  | .none => 0#4
  | .illegalCmd => 1#4
  | .sequence => 2#4
  | .overrun => 3#4
  | .missingCode => 4#4
  | .freqOverflow => 5#4
  | .emptyQueue => 6#4

/-- `BUSY` is `PENDING != none` (10_state.md R23). -/
def State.busy (s : State) : Bool := s.pending.isSome

/-- `STATUS.ERR` is 1 iff `PHASE = FAULT` (10_state.md R39). -/
def State.err (s : State) : Bool := s.phase == .fault

/-- `STATUS`, field by field from bit 31 down (10_state.md R39). -/
def State.statusWord (s : State) : Word :=
  0#8 ++ BitVec.ofNat 8 s.outq.length ++ 0#4 ++ s.errCode.value ++ 0#4 ++ s.phase.value ++
    BitVec.ofBool s.err ++ BitVec.ofBool s.busy

/-- `INT_STATUS.ERR_I` (10_state.md R42). -/
def errI : BitVec 3 := 0b001#3

/-- `INT_STATUS.BUILD_I` (10_state.md R42). -/
def buildI : BitVec 3 := 0b010#3

/-- `INT_STATUS.FLUSH_I` (10_state.md R42). -/
def flushI : BitVec 3 := 0b100#3

/-- An interrupt event sets its bit in `INT_STATUS` (60_exceptions.md R173). -/
def State.setInt (s : State) (bit : BitVec 3) : State := { s with intStatus := s.intStatus ||| bit }

/-- Writing `v` to `INT_STATUS`: `INT_STATUS & ~v[2:0]` (10_state.md R42). -/
def State.clearInt (s : State) (v : Word) : State :=
  { s with intStatus := s.intStatus &&& ~~~(v.extractLsb' 0 3) }

/-- `irq = ((INT_STATUS & INT_EN) != 0)`, a level output (60_exceptions.md R174). -/
def State.irq (s : State) : Bool := s.intStatus &&& s.intEn != 0#3

end Sys2Proof.Machine
end

