-- ==== Sys2Proof/Machine/Operands.lean ====
section
/-! DEFINITION. Operands and table access: the byte operand `b` indexes `FREQ` (`COUNT`) or `CODE` (`ENCODE`)
(30_encoding.md R81), and `SEL` selects what the readback registers show (10_state.md R36, R49 to R52). -/

namespace Sys2Proof.Machine

/-- A byte value as an index of a 256-entry table: "used as is: no extension, no scaling and no shift" (R81). -/
def byteIndex (b : Byte) : Fin 256 := b.toFin

/-- `FREQ[b]` of a frequency table (10_state.md R24). -/
def freqOf (freq : Vector Word 256) (b : Byte) : Word := freq[byteIndex b]

/-- `CODE[b].bits` of a code table (10_state.md R29). -/
def codeOf (codes : Vector Bits 256) (b : Byte) : Bits := codes[byteIndex b]

/-- `FREQ[b]` (10_state.md R24). -/
def State.freqAt (s : State) (b : Byte) : Word := freqOf s.freq b

/-- `FREQ[b] <- v` (40_frequency.md R91). -/
def State.setFreq (s : State) (b : Byte) (v : Word) : State :=
  { s with freq := s.freq.set (byteIndex b) v }

/-- `CODE[b].bits` (10_state.md R29). -/
def State.codeAt (s : State) (b : Byte) : Bits := codeOf s.code b

/-- `CODE[b].len`, the length of `CODE[b].bits` (10_state.md R29, log 8). -/
def State.codeLen (s : State) (b : Byte) : Nat := (s.codeAt b).length

/-- `NNODES`, the number of valid arena entries (10_state.md R27, log 7). -/
def State.nnodes (s : State) : Nat := s.nodes.length

/-- `NODE[i]`, where it is valid (10_state.md R27). -/
def State.nodeAt (s : State) (i : NodeId) : Option Node := s.nodes[i.toNat]?

/-- `SEL[7:0]`, the byte that `FREQ_RD`, `CODE_LEN_RD` and `CODE_VAL_RDk` show; `SEL[8]` is ignored
(10_state.md R50, R51). -/
def State.selByte (s : State) : Byte := s.sel.extractLsb' 0 8

/-- The command word the pending command was accepted from (10_state.md R23, log 9). -/
def Pending.word : Pending → Word
  | .build => Sys2Proof.encode .build
  | .encode b => Sys2Proof.encode (.encode b)
  | .flush => Sys2Proof.encode .flush

end Sys2Proof.Machine
end

