-- ==== Sys2Proof/Machine/Ops.lean ====
section
/-! DEFINITION. The shared operations: entering and leaving the FAULT phase, reset, the output FIFO, and the common
acceptance steps of every command. -/

namespace Sys2Proof.Machine

/-- `raise Fault(code, w)`, taken as one operation: the five writes of 60_exceptions.md R162, and "No other state
changes". It is HEC's only exception entry (R175). -/
def raiseFault (code : ErrCode) (w : Word) (s : State) : State :=
  { s with
    pending := none
    phase := .fault
    errCode := code
    errCmd := w
    intStatus := s.intStatus ||| errI }

/-- `Clear()` (45_control.md R150): with reset, "The only return from FAULT" (60_exceptions.md R176). `INT_EN` and
`SEL` are unchanged. -/
def clear (s : State) : State :=
  { s with
    pending := none
    phase := .count
    freq := Vector.replicate 256 0#32
    code := Vector.replicate 256 []
    len := 0#32
    nsym := 0#9
    nodes := []
    root := none
    acc := []
    outq := []
    bitcnt := 0#64
    outcnt := 0#32
    errCode := .none
    errCmd := 0#32
    intStatus := 0#3 }

/-- A rising edge with `rst` = 1: every architectural state item takes its reset value (70_reset_and_hazards.md R185,
R186). The host's own state and the model's own fields are no part of HEC (log 11). -/
def resetHec (s : State) : State :=
  { State.reset with
    hostProg := s.hostProg
    outbuf := s.outbuf
    reads := s.reads
    turns := s.turns
    draws := s.draws }

/-- `fifo_push(x)`: append at the tail of `OUTQ` (44_output_port.md R136). -/
def fifoPush (x : Byte) (s : State) : State := { s with outq := s.outq ++ [x] }

/-- `fifo_push` of each byte in order (43_bit_packer.md R127). -/
def fifoPushAll : List Byte → State → State
  | [], s => s
  | x :: xs, s => fifoPushAll xs (fifoPush x s)

/-- `fifo_pop()`: remove and return the head of `OUTQ`, where it is non-empty (44_output_port.md R136). -/
def fifoPop (s : State) : Option (Byte × State) :=
  match s.outq with
  | [] => none
  | x :: rest => some (x, { s with outq := rest })

/-- A fresh free value (60_exceptions.md R164): "A model treats each such read as a free draw". Log 5. -/
def freeDraw (s : State) : Word × State :=
  (Config.faultReadback s.draws, { s with draws := s.draws + 1 })

/-- The legal phases of a command (45_control.md R146). FAULT is listed under `CLEAR` alone, and is never asked of the
others: there the word is ignored. -/
def legal : Instr → Phase → Bool
  | .nop, p => p != .fault
  | .clear, _ => true
  | .count _, p => p == .count
  | .build, p => p == .count
  | .encode _, p => p == .coded
  | .flush, p => p == .coded

/-- The steps of 45_control.md R145 that every well-formed command but `CLEAR` shares, in their order: FAULT ignores
the word; a pending command makes it `OVERRUN`; a wrong phase makes it `SEQUENCE`; else the command's own steps. -/
def accept (i : Instr) (own : State → State) (s : State) : State :=
  if s.phase = .fault then s
  else if s.pending ≠ none then raiseFault .overrun (encode i) s
  else if legal i s.phase = false then raiseFault .sequence (encode i) s
  else own s

/-- The same steps for an ill-formed word (45_control.md R145): ignored in FAULT, `OVERRUN` while a command is pending,
else `ILLEGAL_CMD` (60_exceptions.md R168). -/
def rejectIllFormed (w : Word) (s : State) : State :=
  if s.phase = .fault then s
  else if s.pending ≠ none then raiseFault .overrun w s
  else raiseFault .illegalCmd w s

end Sys2Proof.Machine
end

