-- ==== Sys2Proof/Machine/Queue.lean ====
section
/-! DEFINITION. The priority queue (41_tree_builder.md R100 to R104): "A model may therefore represent Q as a finite set
of elements with `pop_min` taking the least" (R104). A queue is the list of its elements, in no particular order. Log 6. -/

namespace Sys2Proof.Machine

/-- A queue element: a node's weight and its id, the creation sequence number (41_tree_builder.md R100). -/
structure Elem where
  weight : Word
  id : NodeId
  deriving DecidableEq, Repr

/-- The key order: by weight, and among equal weights by creation sequence number (41_tree_builder.md R100). -/
def Elem.before (a b : Elem) : Bool :=
  decide (a.weight < b.weight) || (a.weight == b.weight && decide (a.id < b.id))

/-- `push(Q, e)` (41_tree_builder.md R101). -/
def push (q : List Elem) (e : Elem) : List Elem := q ++ [e]

/-- The least in the key order of an element and a queue. -/
def leastOf (e : Elem) : List Elem → Elem
  | [] => e
  | x :: q => leastOf (if x.before e then x else e) q

/-- `pop_min(Q)` (41_tree_builder.md R102): the least element and the queue without it; none on an empty queue, which
the caller turns into `EMPTY_QUEUE` (60_exceptions.md R166). -/
def popMin : List Elem → Option (Elem × List Elem)
  | [] => none
  | e :: q => some (leastOf e q, (e :: q).erase (leastOf e q))

end Sys2Proof.Machine
end

