-- ==== Sys2Proof/Machine/Tree.lean ====
section
/-! DEFINITION. The tree builder (41_tree_builder.md R105, R106, R108, R109). -/

namespace Sys2Proof.Machine

/-- A node's `weight` (10_state.md R27). -/
def Node.weight : Node → Word
  | .leaf _ w => w
  | .internal _ _ w => w

/-- A node's `sym`: 0 for an Internal node (10_state.md R27). -/
def Node.sym : Node → Byte
  | .leaf b _ => b
  | .internal _ _ _ => 0#8

/-- A node's `left`: 0 for a Leaf (10_state.md R27). -/
def Node.left : Node → NodeId
  | .leaf _ _ => 0#9
  | .internal l _ _ => l

/-- A node's `right`: 0 for a Leaf (10_state.md R27). -/
def Node.right : Node → NodeId
  | .leaf _ _ => 0#9
  | .internal _ r _ => r

/-- A node's `kind`: 0 for Leaf, 1 for Internal (10_state.md R27). -/
def Node.kind : Node → BitVec 1
  | .leaf _ _ => 0#1
  | .internal _ _ _ => 1#1

/-- One leaf for each byte value with a non-zero frequency, in ascending byte value, its weight the frequency
(41_tree_builder.md R105, R108). -/
def leaves (freq : Vector Word 256) : List Node :=
  freq.toList.zipIdx.filterMap fun (w, b) => if w = 0#32 then none else some (.leaf (BitVec.ofNat 8 b) w)

/-- The queue after every leaf has been pushed in creation order (41_tree_builder.md R108); a node's id is its index in
the arena (R105). -/
def leafQueue (leafNodes : List Node) : List Elem :=
  leafNodes.zipIdx.map fun (n, i) => ⟨n.weight, BitVec.ofNat 9 i⟩

/-- The internal node of two popped elements: the first pop is the left child, the second the right, and the weight is
their sum (41_tree_builder.md R106). The sum fits in 32 bits by R111 (log 16). -/
def mergeNode (l r : Elem) : Node := .internal l.id r.id (l.weight + r.weight)

/-- The loop of 41_tree_builder.md R108, `while size(Q) > 1`: the new node is appended at index `id`, the number of
nodes so far. Each turn makes the queue one shorter, so its length at the start is fuel enough (log 10). None is
`EMPTY_QUEUE`. -/
def mergeLoop : Nat → List Node → List Elem → Option (List Node × List Elem)
  | 0, nodes, q => some (nodes, q)
  | fuel + 1, nodes, q =>
    if q.length > 1 then
      match popMin q with
      | none => none
      | some (l, q1) =>
        match popMin q1 with
        | none => none
        | some (r, q2) =>
          mergeLoop fuel (nodes ++ [mergeNode l r])
            (push q2 ⟨l.weight + r.weight, BitVec.ofNat 9 nodes.length⟩)
    else some (nodes, q)

/-- What `BuildTree()` writes: the valid arena entries and the root. -/
structure Tree where
  nodes : List Node
  root : Option NodeId
  deriving DecidableEq, Repr

/-- `BuildTree()` (41_tree_builder.md R108). No leaf is the empty input, which is no error (R109). None is
`EMPTY_QUEUE`. -/
def buildTree (freq : Vector Word 256) : Option Tree :=
  let leafNodes := leaves freq
  if leafNodes = [] then some ⟨[], none⟩
  else
    match mergeLoop leafNodes.length leafNodes (leafQueue leafNodes) with
    | none => none
    | some (nodes, q) =>
      match popMin q with
      | none => none
      | some (t, _) => some ⟨nodes, some t.id⟩

end Sys2Proof.Machine
end

