-- ==== Sys2Proof/Machine/Codes.lean ====
section
/-! DEFINITION. The code-table generator (42_code_table.md R115, R116). -/

namespace Sys2Proof.Machine

/-- Every `CODE[b] = { len = 0, bits = [] }` (42_code_table.md R115). -/
def emptyCodes : Vector Bits 256 := Vector.replicate 256 []

/-- `CODE[sym] <- p`. -/
def setCode (sym : Byte) (p : Bits) (codes : Vector Bits 256) : Vector Bits 256 :=
  codes.set (byteIndex sym) p

/-- `Walk(n, p)` (42_code_table.md R115): descending left appends 0 and descending right appends 1; the left subtree is
visited first. A child's index is below its parent's (41_tree_builder.md R110), so the number of nodes is fuel enough
(log 10). -/
def walk : Nat → List Node → NodeId → Bits → Vector Bits 256 → Vector Bits 256
  | 0, _, _, _, codes => codes
  | fuel + 1, nodes, n, p, codes =>
    match nodes[n.toNat]? with
    | none => codes
    | some (.leaf sym _) => setCode sym p codes
    | some (.internal l r _) =>
      walk fuel nodes r (p ++ [true]) (walk fuel nodes l (p ++ [false]) codes)

/-- `GenCodes()` (42_code_table.md R115). A tree that is one leaf gives its byte the code `[0]` (R116). -/
def genCodes (t : Tree) : Vector Bits 256 :=
  match t.root with
  | none => emptyCodes
  | some r =>
    match t.nodes[r.toNat]? with
    | none => emptyCodes
    | some (.leaf sym _) => setCode sym [false] emptyCodes
    | some (.internal _ _ _) => walk t.nodes.length t.nodes r [] emptyCodes

end Sys2Proof.Machine
end

