-- ==== Sys2Proof/Machine/Build.lean ====
section
/-! DEFINITION. `BUILD`: its acceptance and its completion (41_tree_builder.md R107). -/

namespace Sys2Proof.Machine

/-- `BUILD` at acceptance (41_tree_builder.md R107): "it has no command-specific check". Its effect comes in the block's
completion step (45_control.md R147), `completeBuild`. -/
def execBuild (s : State) : Out := .next (accept .build (fun t => { t with pending := some .build }) s)

/-- What a completing `BUILD` writes once the tree is built (41_tree_builder.md R107). -/
def buildDone (t : Tree) (s : State) : State :=
  { s with
    nodes := t.nodes
    root := t.root
    code := genCodes t
    phase := .coded
    intStatus := s.intStatus ||| buildI
    pending := none }

/-- The completion of `BUILD` (41_tree_builder.md R107). An empty queue inside it is the fault `EMPTY_QUEUE` with the
pending command's word (R102, 60_exceptions.md R166). -/
def completeBuild (s : State) : State :=
  match buildTree s.freq with
  | none => raiseFault .emptyQueue Pending.build.word s
  | some t => buildDone t s

end Sys2Proof.Machine
end

