-- ==== Sys2Proof/Machine/Packer.lean ====
section
/-! DEFINITION. The bit packer: `ENCODE b` and `FLUSH`, their acceptance, their completion conditions and their
completions (43_bit_packer.md R126 to R128, 45_control.md R148). -/

namespace Sys2Proof.Machine

/-- The pseudocode of `ENCODE b` at acceptance (43_bit_packer.md R127). -/
def encodeOwn (b : Byte) (s : State) : State :=
  if s.codeLen b = 0 then raiseFault .missingCode (encode (.encode b)) s
  else { s with pending := some (.encode b) }

/-- `ENCODE b` at acceptance (43_bit_packer.md R127). Its effect comes in the block's completion step, `completeEncode`. -/
def execEncode (b : Byte) (s : State) : Out := .next (accept (.encode b) (encodeOwn b) s)

/-- `FLUSH` at acceptance (43_bit_packer.md R128): "it has no command-specific check". Its effect comes in the block's
completion step, `completeFlush`. -/
def execFlush (s : State) : Out := .next (accept .flush (fun t => { t with pending := some .flush }) s)

/-- The room a pending `ENCODE b` needs in `OUTQ`: `floor((|ACC| + CODE[b].len) / 8)` bytes (43_bit_packer.md R127). -/
def encodeRoom (b : Byte) (s : State) : Nat := (s.acc.length + s.codeLen b) / 8

/-- `ready(ENCODE b)` for a FIFO of `depth` bytes: `depth - |OUTQ| >= room` (45_control.md R148). -/
def encodeReadyAt (depth : Nat) (b : Byte) (s : State) : Bool :=
  decide (s.outq.length + encodeRoom b s ≤ depth)

/-- `ready(FLUSH)` for a FIFO of `depth` bytes: `|ACC| = 0 or |OUTQ| < depth` (45_control.md R148). -/
def flushReadyAt (depth : Nat) (s : State) : Bool :=
  s.acc.isEmpty || decide (s.outq.length < depth)

/-- The completion of `ENCODE b` (43_bit_packer.md R127). -/
def completeEncode (b : Byte) (s : State) : State :=
  let bits := s.acc ++ s.codeAt b
  { fifoPushAll (wholeBytes bits) s with
    acc := leftover bits
    bitcnt := s.bitcnt + BitVec.ofNat 64 (s.codeLen b)
    outcnt := s.outcnt + BitVec.ofNat 32 (bits.length / 8)
    pending := none }

/-- The padded last byte of the stream, where `ACC` is not empty (43_bit_packer.md R128). -/
def flushByte (s : State) : State :=
  if s.acc = [] then s else { fifoPush (pack8 s.acc) s with outcnt := s.outcnt + 1#32 }

/-- The completion of `FLUSH` (43_bit_packer.md R128). -/
def completeFlush (s : State) : State :=
  { flushByte s with
    acc := []
    phase := .done
    intStatus := s.intStatus ||| flushI
    pending := none }

end Sys2Proof.Machine
end

