-- ==== Sys2Proof/Machine/Block.lean ====
section
/-! DEFINITION. The block agent: the completion step (45_control.md R148). -/

namespace Sys2Proof.Machine

/-- `ready(p)` for a FIFO of `depth` bytes (45_control.md R148). -/
def readyAt (depth : Nat) (p : Pending) (s : State) : Bool :=
  match p with
  | .build => true
  | .encode b => encodeReadyAt depth b s
  | .flush => flushReadyAt depth s

/-- The completion step is enabled iff `PENDING != none` and `ready(PENDING)` (45_control.md R148). -/
def State.blockEnabled (s : State) : Bool :=
  match s.pending with
  | none => false
  | some p => readyAt Config.outDepth p s

/-- `Complete()` of a pending command (45_control.md R148). -/
def complete (p : Pending) (s : State) : State :=
  match p with
  | .build => completeBuild s
  | .encode b => completeEncode b s
  | .flush => completeFlush s

/-- A step of the block at depth `depth`: it completes the pending command if it is ready. Otherwise the command holds,
and nothing happens (00_scope.md R10). -/
def blockStepAt (depth : Nat) (s : State) : State :=
  match s.pending with
  | none => s
  | some p => if readyAt depth p s then complete p s else s

/-- A step of the block (10_state.md R20). -/
def blockStep (s : State) : State := blockStepAt Config.outDepth s

end Sys2Proof.Machine
end

