-- ==== Sys2Proof/Machine/Control.lean ====
section
/-! DEFINITION. The control commands `NOP` and `CLEAR` (45_control.md R149, R150). -/

namespace Sys2Proof.Machine

/-- `NOP` (45_control.md R149): "After the common steps of rule R145, no state changes." -/
def execNop (s : State) : Out := .next (accept .nop (fun t => t) s)

/-- `CLEAR` (45_control.md R150): accepted in every phase, FAULT included, and while a command is pending. -/
def execClear (s : State) : Out := .next (clear s)

end Sys2Proof.Machine
end

