-- ==== Sys2Proof/Machine/Frequency.lean ====
section
/-! DEFINITION. The frequency analyzer: `COUNT b` (40_frequency.md R91). -/

namespace Sys2Proof.Machine

/-- `LEN` before which the next `COUNT` overflows (40_frequency.md R91, 60_exceptions.md R171). -/
def lenMax : Word := 0xFFFFFFFF#32

/-- The effect of a `COUNT b` that counts (40_frequency.md R91): `NSYM` grows when b is new. -/
def countByte (b : Byte) (s : State) : State :=
  { s.setFreq b (s.freqAt b + 1#32) with
    nsym := if s.freqAt b = 0#32 then s.nsym + 1#9 else s.nsym
    len := s.len + 1#32 }

/-- The pseudocode of 40_frequency.md R91, run after the common steps. -/
def countOwn (b : Byte) (s : State) : State :=
  if s.len = lenMax then raiseFault .freqOverflow (encode (.count b)) s else countByte b s

/-- `COUNT b` (40_frequency.md R91). -/
def execCount (b : Byte) (s : State) : Out := .next (accept (.count b) (countOwn b) s)

end Sys2Proof.Machine
end

