-- ==== Sys2Proof/Machine/Dispatch.lean ====
section
/-! DEFINITION. One arm for each command: what the `CMD` write of its word does (45_control.md R145). -/

namespace Sys2Proof.Machine

def exec (i : Instr) (s : State) : Host.Outcome State Fault Refusal :=
  match i with
  | .nop => Sys2Proof.Machine.execNop s
  | .clear => Sys2Proof.Machine.execClear s
  | .count b => Sys2Proof.Machine.execCount b s
  | .build => Sys2Proof.Machine.execBuild s
  | .encode b => Sys2Proof.Machine.execEncode b s
  | .flush => Sys2Proof.Machine.execFlush s

end Sys2Proof.Machine
end

