-- ==== Sys2Proof/Machine/Command.lean ====
section
/-! DEFINITION. A write to `CMD` (45_control.md R145). -/

namespace Sys2Proof.Machine

/-- `OnCmdWrite(w)` (45_control.md R145): a well-formed word runs its command, whose meaning begins with the common
steps; an ill-formed word meets the same steps and then `ILLEGAL_CMD`. -/
def onCmdWrite (w : Word) (s : State) : Out :=
  match decode w with
  | .ok i => exec i s
  | .error _ => .next (rejectIllFormed w s)

end Sys2Proof.Machine
end

