-- ==== Sys2Proof/Machine/Registers.lean ====
section
/-! DEFINITION. The register map (20_memory.md R63) and every register, field by field (10_state.md R37 to R52). -/

namespace Sys2Proof.Machine

/-- The registers of 20_memory.md R63. -/
inductive Reg where
  | id | status | cmd | outData | intStatus | intEn | errCmd | nsym | len | root | bitcntLo | bitcntHi | outcnt
  | pack | param | sel | freqRd | codeLenRd | nodeRd | nodeWeightRd
  /-- `CODE_VAL_RDk`, k = 0..7. -/
  | codeValRd (k : Fin 8)
  deriving DecidableEq, Repr

/-- The byte offset of a register in the window (20_memory.md R63). -/
def Reg.offset : Reg → Nat
  | .id => 0x000
  | .status => 0x004
  | .cmd => 0x008
  | .outData => 0x00C
  | .intStatus => 0x010
  | .intEn => 0x014
  | .errCmd => 0x018
  | .nsym => 0x01C
  | .len => 0x020
  | .root => 0x024
  | .bitcntLo => 0x028
  | .bitcntHi => 0x02C
  | .outcnt => 0x030
  | .pack => 0x034
  | .param => 0x038
  | .sel => 0x040
  | .freqRd => 0x044
  | .codeLenRd => 0x048
  | .nodeRd => 0x04C
  | .nodeWeightRd => 0x050
  | .codeValRd k => 0x060 + 4 * k.val

/-- Every register, in the order of the map (20_memory.md R63). -/
def allRegs : List Reg :=
  [.id, .status, .cmd, .outData, .intStatus, .intEn, .errCmd, .nsym, .len, .root, .bitcntLo, .bitcntHi, .outcnt,
    .pack, .param, .sel, .freqRd, .codeLenRd, .nodeRd, .nodeWeightRd, .codeValRd 0, .codeValRd 1, .codeValRd 2,
    .codeValRd 3, .codeValRd 4, .codeValRd 5, .codeValRd 6, .codeValRd 7]

/-- The register at an offset; none where the offset is reserved (20_memory.md R63, R64). -/
def regAt (off : Nat) : Option Reg := allRegs.find? fun r => r.offset == off

/-- `PARAM` for a FIFO of `depth` bytes (10_state.md R37). -/
def paramWordAt (depth : Nat) : Word :=
  0#7 ++ BitVec.ofNat 9 Config.nodeCap ++ BitVec.ofNat 8 Config.maxCodeLen ++ BitVec.ofNat 8 depth

/-- The id shown by `ROOT`, where it shows one: `ROOT != none` and `PHASE` is CODED or DONE (10_state.md R46). -/
def State.shownRoot (s : State) : Option NodeId :=
  if s.phase = .coded ∨ s.phase = .done then s.root else none

/-- `ROOT` (10_state.md R46). -/
def State.rootWord (s : State) : Word :=
  match s.shownRoot with
  | none => 0#32
  | some r => 1#1 ++ 0#22 ++ r

/-- `PACK` (10_state.md R48): bit (14-i) is `ACC[i]`, and the other bits of [14:8] are 0. -/
def State.packWord (s : State) : Word :=
  0#17 ++ BitVec.ofNat 7 (bitsToNat (padTo 7 s.acc)) ++ 0#5 ++ BitVec.ofNat 3 s.acc.length

/-- `NODE_RD` of an arena entry (10_state.md R52). -/
def nodeWord : Option Node → Word
  | none => 0#32
  | some (.leaf sym _) => 1#1 ++ 0#1 ++ 0#22 ++ sym
  | some (.internal l r _) => 1#1 ++ 1#1 ++ 0#4 ++ r ++ l ++ 0#8

/-- `NODE_WEIGHT_RD` of an arena entry (10_state.md R52). -/
def nodeWeightWord : Option Node → Word
  | none => 0#32
  | some n => n.weight

/-- `OUT_DATA` (10_state.md R41): the oldest byte of `OUTQ` with VALID = 1, or 0. -/
def State.outDataWord (s : State) : Word :=
  match s.outq with
  | [] => 0#32
  | x :: _ => 0#23 ++ 1#1 ++ x

/-- The word a register shows, in the phases in which its value is exact (10_state.md R37 to R52). `CMD` is write-only
and reads 0 (R40). -/
def State.view (s : State) : Reg → Word
  | .id => Config.idValue
  | .status => s.statusWord
  | .cmd => 0#32
  | .outData => s.outDataWord
  | .intStatus => 0#29 ++ s.intStatus
  | .intEn => 0#29 ++ s.intEn
  | .errCmd => s.errCmd
  | .nsym => 0#23 ++ s.nsym
  | .len => s.len
  | .root => s.rootWord
  | .bitcntLo => s.bitcnt.extractLsb' 0 32
  | .bitcntHi => s.bitcnt.extractLsb' 32 32
  | .outcnt => s.outcnt
  | .pack => s.packWord
  | .param => paramWordAt Config.outDepth
  | .sel => 0#23 ++ s.sel
  | .freqRd => s.freqAt s.selByte
  | .codeLenRd => 0#24 ++ BitVec.ofNat 8 (s.codeLen s.selByte)
  | .nodeRd => nodeWord (s.nodeAt s.sel)
  | .nodeWeightRd => nodeWeightWord (s.nodeAt s.sel)
  | .codeValRd k => (codeval (s.codeAt s.selByte)).extractLsb' (32 * k.val) 32

/-- The registers whose values are unspecified in the FAULT phase (60_exceptions.md R164). -/
def Reg.openInFault : Reg → Bool
  | .root | .nodeRd | .nodeWeightRd | .codeLenRd | .codeValRd _ => true
  | .id | .status | .cmd | .outData | .intStatus | .intEn | .errCmd | .nsym | .len | .bitcntLo | .bitcntHi | .outcnt
  | .pack | .param | .sel | .freqRd => false

/-- A read of `OUT_DATA` (44_output_port.md R137): it pops `OUTQ` if it is non-empty. -/
def readOutData (s : State) : Word × State :=
  match fifoPop s with
  | none => (0#32, s)
  | some (x, t) => (0#23 ++ 1#1 ++ x, t)

/-- A read of a register: its value and the state after it (20_memory.md R67; 60_exceptions.md R163, R164). -/
def readReg (r : Reg) (s : State) : Word × State :=
  if r = .outData then readOutData s
  else if s.phase = .fault ∧ r.openInFault = true then freeDraw s
  else (s.view r, s)

/-- A write to a register (20_memory.md R65, R67; 10_state.md R40, R42, R43, R49): writes to read-only registers are
ignored. -/
def writeReg (r : Reg) (v : Word) (s : State) : Out :=
  match r with
  | .cmd => onCmdWrite v s
  | .intStatus => .next (s.clearInt v)
  | .intEn => .next { s with intEn := v.extractLsb' 0 3 }
  | .sel => .next { s with sel := v.extractLsb' 0 9 }
  | .id | .status | .outData | .errCmd | .nsym | .len | .root | .bitcntLo | .bitcntHi | .outcnt | .pack | .param
  | .freqRd | .codeLenRd | .nodeRd | .nodeWeightRd | .codeValRd _ => .next s

end Sys2Proof.Machine
end

