-- ==== Sys2Proof/Machine/Bus.lean ====
section
/-! DEFINITION. The register bus: one atomic 32-bit access (20_memory.md R60 to R67). -/

namespace Sys2Proof.Machine

/-- The bus can express the access: it "moves exactly 32 bits" and "cannot be misaligned" (20_memory.md R66). -/
def expressible (off n : Nat) : Bool := n == 4 && off % 4 == 0

/-- `MemRead(off, n)` (20_memory.md R62, R64, R66): a reserved offset reads 0. -/
def memRead (off n : Nat) (s : State) : Host.Outcome (Word × State) Fault Refusal :=
  if expressible off n = false then .refused (.unsupportedAccess off n)
  else if Config.windowSize ≤ off then .fault (.outsideWindow off)
  else
    match regAt off with
    | none => .next (0#32, s)
    | some r => .next (readReg r s)

/-- `MemWrite(off, n, v)` (20_memory.md R62, R64, R66): a write to a reserved offset is ignored. -/
def memWrite (off n : Nat) (v : Word) (s : State) : Out :=
  if expressible off n = false then .refused (.unsupportedAccess off n)
  else if Config.windowSize ≤ off then .fault (.outsideWindow off)
  else
    match regAt off with
    | none => .next s
    | some r => writeReg r v s

end Sys2Proof.Machine
end

