-- ==== Sys2Proof/Machine/HostAgent.lean ====
section
/-! DEFINITION. The host agent: host programs (30_encoding.md R86, R87) and the host's step. -/

namespace Sys2Proof.Machine

/-- A line of a host program (30_encoding.md R86) or one of its pseudo-instructions (R87). -/
inductive HostLine where
  /-- A command line, `MNEMONIC` or `MNEMONIC operand`. -/
  | command (i : Instr)
  /-- `WR REG, value`. -/
  | wr (r : Reg) (v : Word)
  /-- `RD REG`, or `RD REG -> name`. -/
  | rd (r : Reg) (name : String)
  /-- `CMDW value`: a raw word, which may be ill-formed. -/
  | cmdw (w : Word)
  | drain
  | wait
  | counts (xs : List Byte)
  | encodes (xs : List Byte)
  | compress (xs : List Byte)
  /-- A line that is empty or only a comment. -/
  | comment
  deriving DecidableEq, Repr

/-- A write of a command word to `CMD`, offset 0x008 (30_encoding.md R86). -/
def commandOp (w : Word) : HostOp := .memWrite 0x008 4 w

/-- `COUNTS x0, ..., xk-1` (30_encoding.md R87). -/
def countsOps (xs : List Byte) : List HostOp := xs.map fun x => commandOp (encode (.count x))

/-- `ENCODES x0, ..., xk-1`: "for each j in order, `ENCODE xj` then `WAIT`" (30_encoding.md R87). -/
def encodesOps (xs : List Byte) : List HostOp := xs.flatMap fun x => [commandOp (encode (.encode x)), .wait]

/-- The exact expansion of a line into the host's accesses and loops (30_encoding.md R86, R87). -/
def HostLine.expand : HostLine → List HostOp
  | .command i => [commandOp (encode i)]
  | .wr r v => [.memWrite r.offset 4 v]
  | .rd r name => [.memRead r.offset 4 name]
  | .cmdw w => [commandOp w]
  | .drain => [.drain]
  | .wait => [.wait]
  | .counts xs => countsOps xs
  | .encodes xs => encodesOps xs
  | .compress xs =>
    [commandOp (encode .clear)] ++ countsOps xs ++ [commandOp (encode .build), .wait] ++ encodesOps xs ++
      [commandOp (encode .flush), .wait, .drain]
  | .comment => []

/-- Load a host program: its lines, one after another (30_encoding.md R86). Log 2. -/
def State.withProgram (s : State) (lines : List HostLine) : State :=
  { s with hostProg := lines.flatMap HostLine.expand }

/-- `if d[8] = 1: OUTBUF <- OUTBUF ++ [d[7:0]]` (30_encoding.md R87). -/
def State.keepByte (s : State) (d : Word) : State :=
  if d.getLsbD 8 then { s with outbuf := s.outbuf ++ [d.extractLsb' 0 8] } else s

/-- The value of an `RD` line is kept (70_reset_and_hazards.md R195). -/
def State.keepRead (s : State) (name : String) (v : Word) : State := { s with reads := s.reads ++ [(name, v)] }

/-- The accesses that a `WAIT` pass which read `busy` still has to make: `if s[0] = 1: goto loop` (30_encoding.md R87). -/
def waitAgain (busy : Bool) (rest : List HostOp) : List HostOp := if busy then .wait :: rest else rest

/-- A raw read by the host: the value is kept under its name. -/
def hostRead (off n : Nat) (name : String) (s : State) : Out :=
  match memRead off n s with
  | .next (v, t) => .next (t.keepRead name v)
  | .fault f => .fault f
  | .refused r => .refused r

/-- One pass of `DRAIN` (30_encoding.md R87): it goes on while bytes come. -/
def hostDrain (rest : List HostOp) (s : State) : State :=
  let (d, t) := readReg .outData s
  if d.getLsbD 8 then { t.keepByte d with hostProg := .drain :: rest } else t

/-- The first access of a pass of `WAIT`: `RD STATUS`; a non-zero `OUT_LEVEL` asks for an `OUT_DATA` read
(30_encoding.md R87). -/
def hostWait (rest : List HostOp) (s : State) : State :=
  let (v, t) := readReg .status s
  if v.extractLsb' 16 8 ≠ 0#8 then { t with hostProg := .waitPop (v.getLsbD 0) :: rest }
  else { t with hostProg := waitAgain (v.getLsbD 0) rest }

/-- The second access of a pass of `WAIT`: `RD OUT_DATA` (30_encoding.md R87). -/
def hostWaitPop (busy : Bool) (rest : List HostOp) (s : State) : State :=
  let (d, t) := readReg .outData s
  { t.keepByte d with hostProg := waitAgain busy rest }

/-- A step of the host: its next access, which takes the operation off the program (20_memory.md R62). A host whose
program has ended does nothing. -/
def hostStep (s : State) : Out :=
  match s.hostProg with
  | [] => .next s
  | .memRead off n name :: rest => hostRead off n name { s with hostProg := rest }
  | .memWrite off n v :: rest => memWrite off n v { s with hostProg := rest }
  | .drain :: rest => .next (hostDrain rest { s with hostProg := rest })
  | .wait :: rest => .next (hostWait rest { s with hostProg := rest })
  | .waitPop busy :: rest => .next (hostWaitPop busy rest { s with hostProg := rest })

end Sys2Proof.Machine
end

