-- ==== Sys2Proof/Machine/Schedule.lean ====
section
/-! DEFINITION. Which agent moves, and its move (20_memory.md R62, 45_control.md R148). Log 1. -/

namespace Sys2Proof.Machine

/-- Who moves next. The interleaving still to come says so; when it has run out, an enabled completion goes first, which
is the weak fairness of 45_control.md R148 and 70_reset_and_hazards.md R193, and else the host. Log 1. -/
def State.mover (s : State) : Turn :=
  match s.turns with
  | t :: _ => t
  | [] => if s.blockEnabled then .block else .host

/-- The state once the next turn has been taken off the interleaving. -/
def State.takeTurn (s : State) : State := { s with turns := s.turns.tail }

/-- The move of one agent, or a reset edge. -/
def moveOf (t : Turn) (s : State) : Out :=
  match t with
  | .host => hostStep s
  | .block => .next (blockStep s)
  | .rst => .next (resetHec s)

end Sys2Proof.Machine
end

