-- ==== Sys2Proof/Machine/Step.lean ====
section
/-! DEFINITION. One step: a host access, a completion of the pending command, or a reset edge (20_memory.md R62,
45_control.md R148, 93_implementation_defined.md U2). -/

namespace Sys2Proof.Machine

/-- One step of HEC and its host. -/
def step (s : State) : Host.Outcome State Fault Refusal := moveOf s.mover s.takeTurn

/-- The state whose very next step is the host's write of the word `w` to `CMD`: HEC fetches no instructions
(20_memory.md R72), so its next instruction is the word the host writes next. Log 2. -/
def State.withFetchWord (s : State) (nbits w : Nat) : State :=
  { s with
    turns := .host :: s.turns
    hostProg := commandOp (BitVec.ofNat 32 (w % 2 ^ nbits)) :: s.hostProg }

end Sys2Proof.Machine
end

