-- ==== Sys2Proof/Safety.lean ====
section
/-! DEFINITION. What claims about HEC are stated in terms of: runs and their observation (70_reset_and_hazards.md R195),
the invariants of 10_state.md R54, the sizes of R29 to R34, and the stream model of 43_bit_packer.md R125. -/

namespace Sys2Proof.Machine

/-- `n` steps, stopping at the first fault or refusal. -/
def runSteps (n : Nat) (s : State) : Out := Host.Core.run Sys2Proof.core n s

/-- A run has ended: "the host has executed its last line and `PENDING = none`" (70_reset_and_hazards.md R195). R195 also
says that a run whose last line leaves `PENDING != none` is not an ended run; that such a run counts as ended once that
command has completed is the model's choice, DESIGN CHOICE (log 23). -/
def State.ended (s : State) : Bool := s.hostProg.isEmpty && !s.busy

/-- HEC's own part of a state: the host's state and the model's own fields are put aside. -/
def State.hec (s : State) : State := { s with hostProg := [], outbuf := [], reads := [], turns := [], draws := 0 }

/-- The observation of a run (70_reset_and_hazards.md R195). -/
structure Observation where
  outbuf : List Byte
  reads : List (String × Word)
  hec : State
  deriving DecidableEq, Repr

/-- What is observed at the end of a run (70_reset_and_hazards.md R195). -/
def State.observation (s : State) : Observation := ⟨s.outbuf, s.reads, s.hec⟩

/-- The sum over b of `FREQ[b]`. -/
def freqTotal (freq : Vector Word 256) : Nat := (freq.toList.map BitVec.toNat).sum

/-- N, the number of byte values b with `FREQ[b] != 0`. -/
def distinctBytes (freq : Vector Word 256) : Nat := (freq.toList.filter (· ≠ 0#32)).length

/-- Follow a sequence of directions from a node, 0 for left and 1 for right: the node it leads to (42_code_table.md R115,
"the unique path from `ROOT` to the leaf"). -/
def descend (nodes : List Node) (n : NodeId) : Bits → Option Node
  | [] => nodes[n.toNat]?
  | d :: p =>
    match nodes[n.toNat]? with
    | some (.internal l r _) => descend nodes (if d then r else l) p
    | some (.leaf _ _) => none
    | none => none

/-- Node `j` is a child of the internal node `i` (41_tree_builder.md R106, R110). -/
def Tree.hasChild (t : Tree) (i j : Nat) : Prop :=
  ∃ l r w, t.nodes[i]? = some (.internal l r w) ∧ (l.toNat = j ∨ r.toNat = j)

/-- Node `j` stands below `i` and is no child of an internal node below `i`: while node `i` is made, `j` is in the queue
(41_tree_builder.md R106, R108). -/
def Tree.freeBelow (t : Tree) (i j : Nat) : Prop := j < i ∧ ∀ i', i' < i → ¬ t.hasChild i' j

/-- The queue element of node `j`: its weight and its id (41_tree_builder.md R100, R105). -/
def Tree.elemAt (t : Tree) (j : Nat) : Option Elem := t.nodes[j]?.map fun n => ⟨n.weight, BitVec.ofNat 9 j⟩

/-- The invariants of 10_state.md R54, item by item, in every state whose `PHASE` is not FAULT; item 5 is stated of every
phase, so that it also says that nothing is pending in FAULT (60_exceptions.md R162, R163). -/
structure State.Sequenced (s : State) : Prop where
  /-- Item 1. -/
  totals : s.phase ≠ .fault → freqTotal s.freq = s.len.toNat ∧ s.nsym.toNat = distinctBytes s.freq
  /-- Item 2. -/
  counting : s.phase = .count → s.nnodes = 0 ∧ s.root = none ∧ (∀ b, s.codeLen b = 0) ∧ s.acc = [] ∧ s.outq = [] ∧
    s.bitcnt = 0#64 ∧ s.outcnt = 0#32
  /-- Item 3, for N = 0. -/
  builtEmpty : s.phase = .coded ∨ s.phase = .done → s.nsym = 0#9 → s.nnodes = 0 ∧ s.root = none
  /-- Item 3, for N >= 1. -/
  builtTree : s.phase = .coded ∨ s.phase = .done → s.nsym ≠ 0#9 →
    s.nnodes = 2 * s.nsym.toNat - 1 ∧ s.root = some (BitVec.ofNat 9 (s.nnodes - 1))
  /-- Item 3, the code table. -/
  builtCodes : s.phase = .coded ∨ s.phase = .done → ∀ b, s.codeLen b ≠ 0 ↔ s.freqAt b ≠ 0#32
  /-- Item 4. -/
  finished : s.phase = .done → s.acc = [] ∧ s.pending = none
  /-- Item 5, `BUILD`. -/
  pendingBuild : s.pending = some .build → s.phase = .count
  /-- Item 5, `ENCODE` and `FLUSH`. -/
  pendingPack : ∀ p, s.pending = some p → p ≠ .build → s.phase = .coded

/-- The sizes 10_state.md gives its items, and what `ERRCODE` says of the phase. -/
structure State.Bounded (s : State) : Prop where
  /-- `|ACC| <= 7` (R30). -/
  acc : s.acc.length ≤ 7
  /-- `|OUTQ| <= OUT_DEPTH` (R31). -/
  outq : s.outq.length ≤ Config.outDepth
  /-- `NNODES` is 0 to 511 (R27). -/
  nodes : s.nnodes ≤ Config.nodeCap
  /-- `CODE[b].len` is 0 to 255 (R29). -/
  code : ∀ b, s.codeLen b ≤ Config.maxCodeLen
  /-- `ERRCODE` is the code of the fault that put HEC in the FAULT phase, or 0 otherwise (R34). -/
  errCode : s.errCode = .none ↔ s.phase ≠ .fault
  /-- In FAULT nothing is pending (60_exceptions.md R162). -/
  faultIdle : s.phase = .fault → s.pending = none

/-- The word of `CLEAR` (45_control.md R150). -/
def clearWord : Word := 0x01000000#32

/-- The command word an operation of the host writes to `CMD`. -/
def HostOp.command : HostOp → Option Word
  | .memWrite off n v => if off = 0x008 ∧ n = 4 then some v else none
  | .memRead _ _ _ | .drain | .wait | .waitPop _ => none

/-- The operation reads `OUT_DATA`. -/
def HostOp.readsOutData : HostOp → Bool
  | .memRead off n _ => off == 0x00C && n == 4
  | .drain | .waitPop _ => true
  | .memWrite _ _ _ | .wait => false

/-- The command word that the next step writes to `CMD`, where it writes one. -/
def State.commandNow (s : State) : Option Word :=
  if s.mover = .host then s.hostProg.head?.bind HostOp.command else none

/-- The next step reads `OUT_DATA`. -/
def State.readsOutDataNow (s : State) : Bool :=
  s.mover == .host && (s.hostProg.head?.map HostOp.readsOutData).getD false

/-- The command that the next step completes, where it completes one (45_control.md R148). -/
def State.completesNow (s : State) : Option Pending :=
  if s.mover = .block ∧ s.blockEnabled = true then s.pending else none

/-- The next step is a `CLEAR` or a reset. -/
def State.clearsNow (s : State) : Bool := s.mover == .rst || s.commandNow == some clearWord

/-- What the stream model of 43_bit_packer.md R125 and 44_output_port.md R139 speaks of, since the last `CLEAR` or
reset: the encoded bit stream `S`, the sequence `E` of every byte appended to `OUTQ`, and the bytes the host's `OUT_DATA`
reads returned with `VALID` = 1. -/
structure History where
  stream : Bits
  emitted : List Byte
  drained : List Byte
  deriving DecidableEq, Repr

/-- The history after a step from `s` to `t`, from the definitions of `S` and `E` alone: `S` grows by the completed
`ENCODE`'s code, `E` by what was appended to `OUTQ`. -/
def History.after (h : History) (s t : State) : History :=
  if s.clearsNow then ⟨[], [], []⟩
  else
    match s.completesNow with
    | some (.encode b) => ⟨h.stream ++ s.codeAt b, h.emitted ++ t.outq.drop s.outq.length, h.drained⟩
    | some .flush => ⟨h.stream, h.emitted ++ t.outq.drop s.outq.length, h.drained⟩
    | some .build => h
    | none => if s.readsOutDataNow then { h with drained := h.drained ++ s.outq.take 1 } else h

/-- The packed output of a bit stream: its whole chunks, and the last one zero-padded (43_bit_packer.md R126). -/
def packedOutput (stream : Bits) : List Byte :=
  wholeBytes stream ++ (if leftover stream = [] then [] else [pack8 (leftover stream)])

/-- The stream model (43_bit_packer.md R125 in CODED, R129 in DONE; 44_output_port.md R139 for what is drained). -/
structure StreamModel (h : History) (s : State) : Prop where
  /-- Nothing has been encoded in COUNT. -/
  counting : s.phase = .count → h.stream = [] ∧ h.emitted = []
  /-- R125. -/
  coded : s.phase = .coded → h.emitted.flatMap byteBits ++ s.acc = h.stream ∧
    s.acc.length = h.stream.length % 8
  /-- R129 item 1. -/
  done : s.phase = .done → h.emitted = packedOutput h.stream
  /-- R125, the counters, which FLUSH's padding does not count in `BITCNT` (R128). -/
  counters : s.phase ≠ .fault → s.bitcnt = BitVec.ofNat 64 h.stream.length ∧
    s.outcnt = BitVec.ofNat 32 h.emitted.length
  /-- R136, R139: bytes leave in the order they were pushed, and none is lost. -/
  fifo : h.drained ++ s.outq = h.emitted

end Sys2Proof.Machine
end

