-- ==== Sys2Proof/Certificates/Slice0/Obligations.lean ====
section
/-! DEFINITION. The statements about HEC, from the spec's numbered rules. Each says which rule it formalises, or what it
is derived from. -/

open Sys2Proof Sys2Proof.Machine

/-! ## Encoding -/

/-- 30_encoding.md R80 to R84: a word decodes to an instruction exactly if it is that instruction's word; no bit of an
encoding is dropped, and no other word decodes to it. -/
def Obligations.DecodeInvertsEncodeBothWays : Prop :=
  ∀ (w : Word) (i : Instr), decode w = .ok i ↔ w = encode i

/-- 30_encoding.md R82, R84: a well-formed word matches one row of the opcode map and no other, and the well-formed
words are those the decoder reads, each as an instruction of the row it matches. -/
def Obligations.WellFormedWordMatchesOneRow : Prop :=
  ∀ w : Word,
    (wordWellFormed w = true ↔
      ∃ r ∈ opcodeMap, r.matchesWord w = true ∧ ∀ r' ∈ opcodeMap, r'.matchesWord w = true → r' = r) ∧
    (wordWellFormed w = true ↔ ∃ i, decode w = .ok i ∧ i.row ∈ opcodeMap ∧ i.row.matchesWord w = true)

/-- 30_encoding.md R83 and 60_exceptions.md R168: which words are ill-formed, and what writing one to `CMD` does. -/
def Obligations.IllFormedWordIsIllegalCommand : Prop :=
  (∀ w : Word, wordWellFormed w = false ↔
    (0x06 ≤ (opcodeField w).toNat ∨ rsvdField w ≠ 0#16 ∨
      (opcodeField w ∈ [0x00#8, 0x01#8, 0x03#8, 0x05#8] ∧ opndField w ≠ 0#8))) ∧
  (∀ (w : Word) (s : State), wordWellFormed w = false →
    (s.phase = .fault → onCmdWrite w s = .next s) ∧
    (s.phase ≠ .fault → s.pending ≠ none → onCmdWrite w s = .next (raiseFault .overrun w s)) ∧
    (s.phase ≠ .fault → s.pending = none → onCmdWrite w s = .next (raiseFault .illegalCmd w s))) ∧
  wordWellFormed 0x01000001#32 = false

/-- 30_encoding.md R82, R86: words written out from the encoding table and the examples of the assembler syntax. -/
def Obligations.SpelledWordsDecode : Prop :=
  decode 0x00000000#32 = .ok .nop ∧ decode 0x01000000#32 = .ok .clear ∧ decode 0x02000041#32 = .ok (.count 0x41#8) ∧
  decode 0x03000000#32 = .ok .build ∧ decode 0x040000FF#32 = .ok (.encode 0xFF#8) ∧
  decode 0x05000000#32 = .ok .flush ∧ decode 0x06000000#32 = .error .unknownOpcode ∧
  decode 0x02010041#32 = .error .reservedNotZero ∧ decode 0x01000001#32 = .error .operandNotZero

/-! ## A step, and the acceptance of a command -/

/-- 20_memory.md R62, R72, 30_encoding.md R86, 45_control.md R145, 70_reset_and_hazards.md R195: a step of the host makes
its next access on the state with that access, and the turn, taken off. A write answers what `memWrite` answers; a read
that answers a value appends it, under its name, to the values of the program's `RD` lines; a refused or faulting access
stops the step; and the write of a command word runs the decoded command.
The model's own in it: the turn taken off (log 1), the field `reads` and what it keeps (log 13), and the last clause,
that the step after `withFetchWord` is the command on the state itself, which is about the model's interface (log 2). -/
def Obligations.StepRunsDecodedCommand : Prop :=
  (∀ (s : State) (w : Word) (rest : List HostOp), s.mover = .host → s.hostProg = .memWrite 0x008 4 w :: rest →
    (∀ i, decode w = .ok i → step s = exec i { s with turns := s.turns.tail, hostProg := rest }) ∧
    (∀ e, decode w = .error e →
      step s = .next (rejectIllFormed w { s with turns := s.turns.tail, hostProg := rest }))) ∧
  (∀ (s : State) (off n : Nat) (v : Word) (rest : List HostOp), s.mover = .host →
    s.hostProg = .memWrite off n v :: rest →
    step s = memWrite off n v { s with turns := s.turns.tail, hostProg := rest }) ∧
  (∀ (s : State) (off n : Nat) (name : String) (rest : List HostOp), s.mover = .host →
    s.hostProg = .memRead off n name :: rest →
    let u := { s with turns := s.turns.tail, hostProg := rest }
    (∀ v t, memRead off n u = .next (v, t) → step s = .next { t with reads := s.reads ++ [(name, v)] }) ∧
    (∀ f, memRead off n u = .fault f → step s = .fault f) ∧
    (∀ r, memRead off n u = .refused r → step s = .refused r)) ∧
  (∀ (s : State) (nbits w : Nat) (i : Instr), decodeTableWord nbits w = some i →
    step (s.withFetchWord nbits w) = exec i s)

/-- 45_control.md R145: a `CMD` write runs the steps of `OnCmdWrite`, in their order. -/
def Obligations.CommandWriteRunsAcceptanceSteps : Prop :=
  ∀ (w : Word) (s : State), onCmdWrite w s = .next (
    if s.phase = .fault then (if w = 0x01000000#32 then clear s else s)
    else if w = 0x01000000#32 then clear s
    else if s.pending ≠ none then raiseFault .overrun w s
    else match decode w with
      | .error _ => raiseFault .illegalCmd w s
      | .ok .nop => s
      | .ok .clear => clear s
      | .ok (.count b) =>
        if s.phase ≠ .count then raiseFault .sequence w s
        else if s.len = 0xFFFFFFFF#32 then raiseFault .freqOverflow w s
        else { s with
          nsym := if s.freqAt b = 0#32 then s.nsym + 1#9 else s.nsym
          freq := s.freq.set (byteIndex b) (s.freqAt b + 1#32)
          len := s.len + 1#32 }
      | .ok .build => if s.phase ≠ .count then raiseFault .sequence w s else { s with pending := some .build }
      | .ok (.encode b) =>
        if s.phase ≠ .coded then raiseFault .sequence w s
        else if s.codeLen b = 0 then raiseFault .missingCode w s
        else { s with pending := some (.encode b) }
      | .ok .flush => if s.phase ≠ .coded then raiseFault .sequence w s else { s with pending := some .flush })

/-- 45_control.md R146 and 60_exceptions.md R169: the legal phases of each command, the `SEQUENCE` fault outside them,
and FAULT, which ignores every command but `CLEAR`. -/
def Obligations.LegalPhasesDecideSequenceFault : Prop :=
  let phases : Instr → List Phase := fun i => match i with
    | .nop => [.count, .coded, .done]
    | .clear => [.count, .coded, .done, .fault]
    | .count _ => [.count]
    | .build => [.count]
    | .encode _ => [.coded]
    | .flush => [.coded]
  ∀ (i : Instr) (s : State),
    (i = .clear → exec i s = .next (clear s)) ∧
    (i ≠ .clear → s.phase = .fault → exec i s = .next s) ∧
    (s.phase ≠ .fault → s.pending = none → s.phase ∉ phases i →
      exec i s = .next (raiseFault .sequence (encode i) s)) ∧
    (s.phase ≠ .fault → s.pending = none → s.phase ∈ phases i →
      ∃ t, exec i s = .next t ∧ (t.phase = .fault → t.errCode ≠ .sequence))

/-! ## The six commands -/

/-- 45_control.md R149: outside FAULT, with nothing pending, `NOP` changes no state. -/
def Obligations.NopChangesNothing : Prop :=
  ∀ s : State, s.phase ≠ .fault → s.pending = none → exec .nop s = .next s

/-- 45_control.md R150: `CLEAR` completes in every state; what it writes, and that `INT_EN`, `SEL` and everything outside
HEC are unchanged. -/
def Obligations.ClearReturnsToStart : Prop :=
  encode .clear = 0x01000000#32 ∧
  (∀ w : Word, opcodeField w = 0x01#8 → w ≠ 0x01000000#32 → wordWellFormed w = false) ∧
  (∀ s : State, ∃ t, exec .clear s = .next t ∧
    t.pending = none ∧ t.phase = .count ∧ (∀ b, t.freqAt b = 0#32) ∧ (∀ b, t.codeLen b = 0 ∧ t.codeAt b = []) ∧
    t.len = 0#32 ∧ t.nsym = 0#9 ∧ t.nnodes = 0 ∧ t.root = none ∧ t.acc = [] ∧ t.outq = [] ∧
    t.bitcnt = 0#64 ∧ t.outcnt = 0#32 ∧ t.errCode = .none ∧ t.errCmd = 0#32 ∧ t.intStatus = 0#3 ∧
    t.intEn = s.intEn ∧ t.sel = s.sel ∧ t.statusWord = 0#32 ∧ t.irq = false ∧
    t.hostProg = s.hostProg ∧ t.outbuf = s.outbuf ∧ t.reads = s.reads ∧ t.turns = s.turns ∧ t.draws = s.draws) ∧
  exec .clear State.reset = .next State.reset

/-- 40_frequency.md R91, the effect of `COUNT b` and its frame: where it is accepted and `LEN` is not at its maximum, it
counts one occurrence of `b` and leaves everything but `FREQ[b]`, `LEN` and `NSYM` unchanged. -/
def Obligations.CountCountsOneByte : Prop :=
  ∀ (b : Byte) (s : State), s.phase = .count → s.pending = none → s.len ≠ 0xFFFFFFFF#32 →
    ∃ t, exec (.count b) s = .next t ∧
      t.freqAt b = s.freqAt b + 1#32 ∧ (∀ c, c ≠ b → t.freqAt c = s.freqAt c) ∧ t.len = s.len + 1#32 ∧
      t.nsym = (if s.freqAt b = 0#32 then s.nsym + 1#9 else s.nsym) ∧
      { t with freq := s.freq, len := s.len, nsym := s.nsym } = s

/-- 40_frequency.md R91, "No addition can overflow": in a state that meets the invariants of 10_state.md R54, the
counters after `COUNT b` are one more as numbers, and `NSYM` is at most 256. -/
def Obligations.CountNeverWraps : Prop :=
  ∀ (b : Byte) (s t : State), s.Sequenced → s.phase = .count → s.pending = none → s.len ≠ 0xFFFFFFFF#32 →
    exec (.count b) s = .next t →
      (t.freqAt b).toNat = (s.freqAt b).toNat + 1 ∧ t.len.toNat = s.len.toNat + 1 ∧
      t.nsym.toNat = s.nsym.toNat + (if s.freqAt b = 0#32 then 1 else 0) ∧ t.nsym.toNat ≤ 256

/-- 41_tree_builder.md R107: an accepted `BUILD` only becomes pending, and the block's completion step then always writes
the tree, the codes, CODED and `BUILD_I`, and nothing else. -/
def Obligations.BuildIsAcceptedThenCompletes : Prop :=
  ∀ (s : State) (ts : List Turn), s.phase = .count → s.pending = none →
    exec .build s = .next { s with pending := some .build } ∧
    ∃ tree, buildTree s.freq = some tree ∧
      step { s with pending := some .build, turns := .block :: ts } = .next { s with
        turns := ts
        nodes := tree.nodes
        root := tree.root
        code := genCodes tree
        phase := .coded
        intStatus := s.intStatus ||| 0b010#3
        pending := none }

/-- 43_bit_packer.md R127: an accepted `ENCODE b` of a byte with a code only becomes pending; with room in the FIFO the
block's completion step then appends the code, and nothing else changes; without room the command holds. -/
def Obligations.EncodeIsAcceptedThenCompletes : Prop :=
  ∀ (b : Byte) (s : State) (ts : List Turn), s.phase = .coded → s.pending = none → s.codeLen b ≠ 0 →
    let bits := s.acc ++ s.codeAt b
    let k := bits.length / 8
    exec (.encode b) s = .next { s with pending := some (.encode b) } ∧
    (s.outq.length + k ≤ Config.outDepth →
      step { s with pending := some (.encode b), turns := .block :: ts } = .next { s with
        turns := ts
        outq := s.outq ++ (List.range k).map fun j => pack8 ((bits.drop (8 * j)).take 8)
        acc := bits.drop (8 * k)
        bitcnt := s.bitcnt + BitVec.ofNat 64 (s.codeLen b)
        outcnt := s.outcnt + BitVec.ofNat 32 k
        pending := none }) ∧
    (Config.outDepth < s.outq.length + k →
      step { s with pending := some (.encode b), turns := .block :: ts } =
        .next { s with pending := some (.encode b), turns := ts })

/-- 43_bit_packer.md R128: an accepted `FLUSH` only becomes pending; the block's completion step then pushes the padded
byte, if `ACC` holds bits, and ends the stream; it holds only when a byte is to be pushed and the FIFO is full. -/
def Obligations.FlushIsAcceptedThenCompletes : Prop :=
  ∀ (s : State) (ts : List Turn), s.phase = .coded → s.pending = none →
    exec .flush s = .next { s with pending := some .flush } ∧
    (s.acc = [] →
      step { s with pending := some .flush, turns := .block :: ts } = .next { s with
        turns := ts
        phase := .done
        intStatus := s.intStatus ||| 0b100#3
        pending := none }) ∧
    (s.acc ≠ [] → s.outq.length < Config.outDepth →
      step { s with pending := some .flush, turns := .block :: ts } = .next { s with
        turns := ts
        outq := s.outq ++ [pack8 s.acc]
        outcnt := s.outcnt + 1#32
        acc := []
        phase := .done
        intStatus := s.intStatus ||| 0b100#3
        pending := none }) ∧
    (s.acc ≠ [] → Config.outDepth ≤ s.outq.length →
      step { s with pending := some .flush, turns := .block :: ts } =
        .next { s with pending := some .flush, turns := ts })

/-- The frame of every command but `CLEAR`, in every state (40_frequency.md R91, 41_tree_builder.md R107,
43_bit_packer.md R127, R128, 45_control.md R149, 60_exceptions.md R162): the tree, the codes, the packer, the FIFO, the
counters, `INT_EN`, `SEL` and the host are unchanged; only `COUNT` changes the frequency table; and only a fault changes
the phase, the error registers or `INT_STATUS`. -/
def Obligations.CommandsLeaveTheRestUnchanged : Prop :=
  ∀ (i : Instr) (s t : State), i ≠ .clear → exec i s = .next t →
    t.nodes = s.nodes ∧ t.root = s.root ∧ t.code = s.code ∧ t.acc = s.acc ∧ t.outq = s.outq ∧
    t.bitcnt = s.bitcnt ∧ t.outcnt = s.outcnt ∧ t.intEn = s.intEn ∧ t.sel = s.sel ∧
    t.hostProg = s.hostProg ∧ t.outbuf = s.outbuf ∧ t.reads = s.reads ∧ t.turns = s.turns ∧ t.draws = s.draws ∧
    ((∀ b, i ≠ .count b) ∨ t.phase = .fault → t.freq = s.freq ∧ t.len = s.len ∧ t.nsym = s.nsym) ∧
    (t.phase ≠ .fault →
      t.phase = s.phase ∧ t.errCode = s.errCode ∧ t.errCmd = s.errCmd ∧ t.intStatus = s.intStatus) ∧
    (i = .nop ∨ (∃ b, i = .count b) → t.phase ≠ .fault → t.pending = s.pending)

/-- The frame of each completion, in every state (41_tree_builder.md R107, 43_bit_packer.md R127, R128): with the items
its rule writes put back, the state is the one before. -/
def Obligations.CompletionsLeaveTheRestUnchanged : Prop :=
  ∀ s : State,
    { complete .build s with
      nodes := s.nodes, root := s.root, code := s.code, phase := s.phase
      intStatus := s.intStatus, pending := s.pending } = s ∧
    (∀ b, { complete (.encode b) s with
      acc := s.acc, outq := s.outq, bitcnt := s.bitcnt, outcnt := s.outcnt, pending := s.pending } = s) ∧
    { complete .flush s with
      acc := s.acc, outq := s.outq, outcnt := s.outcnt, phase := s.phase
      intStatus := s.intStatus, pending := s.pending } = s

/-! ## Faults and phases -/

/-- 60_exceptions.md R167 and R171: the commands' own checks. `ENCODE b` in CODED of a byte without a code faults, and
after an empty count pass every `ENCODE` does; `COUNT b` faults when `LEN` is at its maximum. -/
def Obligations.CommandChecksFault : Prop :=
  (∀ (b : Byte) (s : State), s.phase = .coded → s.pending = none → s.codeLen b = 0 →
    exec (.encode b) s = .next (raiseFault .missingCode (encode (.encode b)) s) ∧
    (raiseFault .missingCode (encode (.encode b)) s).errCmd = encode (.encode b) ∧
    opndField (encode (.encode b)) = b) ∧
  (∀ (s : State), (∀ b, s.freqAt b = 0#32) → s.phase = .count → s.pending = some .build →
    ∀ b, exec (.encode b) (complete .build s) =
      .next (raiseFault .missingCode (encode (.encode b)) (complete .build s))) ∧
  (∀ (b : Byte) (s : State), s.phase = .count → s.pending = none → s.len = 0xFFFFFFFF#32 →
    exec (.count b) s = .next (raiseFault .freqOverflow (encode (.count b)) s) ∧
    (raiseFault .freqOverflow (encode (.count b)) s).errCmd = encode (.count b))

/-- 60_exceptions.md R170: any word but exactly `CLEAR`'s, written while a command is pending. -/
def Obligations.CommandWhilePendingOverruns : Prop :=
  ∀ (w : Word) (s : State), s.phase ≠ .fault → s.pending ≠ none → w ≠ 0x01000000#32 →
    onCmdWrite w s = .next (raiseFault .overrun w s) ∧
    (raiseFault .overrun w s).pending = none ∧ (raiseFault .overrun w s).errCmd = w

/-- 60_exceptions.md R162: raising a fault makes exactly its five writes, `ERRCODE` the code and `ERRCMD` the word it is
raised with, for every code; a `CMD` write that enters FAULT makes those writes with the word written, so the rest of the
state is that of just before the access; and the word of the fault of an empty queue inside `BUILD`, which never happens
(R166), is `BUILD`'s. -/
def Obligations.FaultEntryIsPrecise : Prop :=
  (∀ (w : Word) (s t : State), onCmdWrite w s = .next t → s.phase ≠ .fault → t.phase = .fault →
    ∃ code, code ≠ .none ∧ t = { s with
      pending := none
      phase := .fault
      errCode := code
      errCmd := w
      intStatus := s.intStatus ||| 0b001#3 }) ∧
  (∀ (code : ErrCode) (w : Word) (s : State), raiseFault code w s = { s with
      pending := none
      phase := .fault
      errCode := code
      errCmd := w
      intStatus := s.intStatus ||| 0b001#3 }) ∧
  Pending.build.word = 0x03000000#32

/-- 60_exceptions.md R163: what still works in the FAULT phase. (The values of R164 are left out here, as the rule does.) -/
def Obligations.FaultPhaseIgnoresCommands : Prop :=
  ∀ s : State, s.phase = .fault → s.pending = none → s.outq.length ≤ 255 →
    (∀ w, w ≠ 0x01000000#32 → onCmdWrite w s = .next s) ∧
    onCmdWrite 0x01000000#32 s = .next (clear s) ∧
    (∀ r, r.openInFault = false → r ≠ .outData → memRead r.offset 4 s = .next (s.view r, s)) ∧
    (∀ x q, s.outq = x :: q → memRead 0x00C 4 s = .next (0x100#32 ||| x.setWidth 32, { s with outq := q })) ∧
    (∀ v, memWrite 0x010 4 v s = .next { s with intStatus := s.intStatus &&& ~~~(v.extractLsb' 0 3) }) ∧
    (∀ v, memWrite 0x014 4 v s = .next { s with intEn := v.extractLsb' 0 3 }) ∧
    (∀ v, memWrite 0x040 4 v s = .next { s with sel := v.extractLsb' 0 9 }) ∧
    s.irq = (s.intStatus &&& s.intEn != 0#3) ∧
    s.statusWord.getLsbD 0 = false ∧ s.statusWord.getLsbD 1 = true ∧ s.statusWord.extractLsb' 2 2 = 3#2 ∧
    s.statusWord.extractLsb' 8 4 = s.errCode.value

/-- 10_state.md R22: the values of `PHASE`, its reset value, and every transition of it that a step can make. -/
def Obligations.PhaseTransitions : Prop :=
  Phase.count.value = 0#2 ∧ Phase.coded.value = 1#2 ∧ Phase.done.value = 2#2 ∧ Phase.fault.value = 3#2 ∧
  State.reset.phase = .count ∧ (∀ s, (clear s).phase = .count) ∧
  ∀ s t : State, s.Sequenced → step s = .next t → t.phase ≠ s.phase →
    (s.phase = .count ∧ t.phase = .coded ∧ s.completesNow = some .build) ∨
    (s.phase = .coded ∧ t.phase = .done ∧ s.completesNow = some .flush) ∨
    (t.phase = .fault ∧ t.errCode ≠ .none) ∨
    (t.phase = .count ∧ s.clearsNow = true)

/-- 60_exceptions.md R176: FAULT is left by `CLEAR` or reset alone, which leave COUNT with no error code; faults do not
nest, and the first fault's record stays. -/
def Obligations.FaultIsLeftOnlyByClearOrReset : Prop :=
  ∀ s t : State, s.Sequenced → s.phase = .fault → step s = .next t →
    (s.clearsNow = true → t.phase = .count ∧ t.errCode = .none) ∧
    (s.clearsNow = false → t.phase = .fault ∧ t.errCode = s.errCode ∧ t.errCmd = s.errCmd)

/-! ## The priority queue and the tree -/

/-- 41_tree_builder.md R100: the key order, and that it is a strict total order on elements of distinct ids. -/
def Obligations.KeyOrderIsStrictTotal : Prop :=
  (∀ a b : Elem, a.before b = true ↔
    (a.weight.toNat < b.weight.toNat ∨ (a.weight = b.weight ∧ a.id.toNat < b.id.toNat))) ∧
  (∀ a : Elem, a.before a = false) ∧
  (∀ a b c : Elem, a.before b = true → b.before c = true → a.before c = true) ∧
  (∀ a b : Elem, a.id ≠ b.id → a.before b = true ∨ b.before a = true)

/-- 41_tree_builder.md R102: `pop_min` removes and returns the least element, and answers none on an empty queue alone. -/
def Obligations.PopMinTakesTheLeast : Prop :=
  (∀ (q q' : List Elem) (e : Elem), popMin q = some (e, q') →
    e ∈ q ∧ (∀ x ∈ q, x = e ∨ e.before x = true) ∧ q.Perm (e :: q')) ∧
  (∀ q : List Elem, popMin q = none ↔ q = [])

/-- 41_tree_builder.md R105: the leaves are the byte values with a non-zero frequency, in ascending order, each with its
frequency as weight, and they come first in the arena. -/
def Obligations.LeavesComeFirstInByteOrder : Prop :=
  ∀ freq : Vector Word 256,
    (leaves freq).map Node.sym =
      ((List.range 256).map (BitVec.ofNat 8)).filter (fun b => freqOf freq b != 0#32) ∧
    (∀ n ∈ leaves freq, ∃ b, n = .leaf b (freqOf freq b)) ∧
    (∀ tree, buildTree freq = some tree → tree.nodes.take (leaves freq).length = leaves freq)

/-- 41_tree_builder.md R108, R109 and 60_exceptions.md R166: `BuildTree` never meets an empty queue, and it gives no tree
exactly for the empty input. -/
def Obligations.BuildNeverFindsEmptyQueue : Prop :=
  ∀ freq : Vector Word 256, ∃ tree, buildTree freq = some tree ∧
    ((∀ b, freqOf freq b = 0#32) ↔ tree.root = none) ∧ (tree.root = none → tree.nodes = [])

/-- 41_tree_builder.md R110, but for its last item: the shape of the built tree. -/
def Obligations.BuiltTreeShape : Prop :=
  ∀ (freq : Vector Word 256) (tree : Tree), buildTree freq = some tree → 1 ≤ distinctBytes freq →
    let n := distinctBytes freq
    tree.nodes.length = 2 * n - 1 ∧ tree.root = some (BitVec.ofNat 9 (2 * n - 2)) ∧
    (∀ i, i < n → ∃ b w, tree.nodes[i]? = some (.leaf b w)) ∧
    (∀ i, n ≤ i → i < 2 * n - 1 → ∃ l r w, tree.nodes[i]? = some (.internal l r w) ∧
      l.toNat < i ∧ r.toNat < i ∧ l ≠ r) ∧
    (∀ j, j < 2 * n - 2 → ∃ i, tree.hasChild i j ∧ ∀ i', tree.hasChild i' j → i' = i)

/-- 41_tree_builder.md R106, R108, R100: what each turn of the loop merges. Of the nodes below an internal node `i` that no
internal node below `i` has taken as a child (the queue at that turn), its left child is the least in the key order and
its right child the least of the others; and its weight is the sum of theirs. -/
def Obligations.MergesTakeTheTwoLeast : Prop :=
  ∀ (freq : Vector Word 256) (tree : Tree), buildTree freq = some tree →
    ∀ (i : Nat) (l r : NodeId) (w : Word), tree.nodes[i]? = some (.internal l r w) →
      ∃ el er, tree.elemAt l.toNat = some el ∧ tree.elemAt r.toNat = some er ∧ w = el.weight + er.weight ∧
        l ≠ r ∧ tree.freeBelow i l.toNat ∧ tree.freeBelow i r.toNat ∧
        (∀ j e, tree.freeBelow i j → tree.elemAt j = some e → j ≠ l.toNat → el.before e = true) ∧
        (∀ j e, tree.freeBelow i j → tree.elemAt j = some e → j ≠ l.toNat → j ≠ r.toNat → er.before e = true)

/-- 41_tree_builder.md R106, R111: every internal node's weight is the sum of its children's as numbers, so the addition
never overflows, and the root's weight is the number of bytes counted. -/
def Obligations.WeightsNeverOverflow : Prop :=
  ∀ (freq : Vector Word 256) (tree : Tree), freqTotal freq < 2 ^ 32 → buildTree freq = some tree →
    (∀ (i : Nat) (l r : NodeId) (w : Word), tree.nodes[i]? = some (.internal l r w) →
      ∃ nl nr, tree.nodes[l.toNat]? = some nl ∧ tree.nodes[r.toNat]? = some nr ∧
        w.toNat = nl.weight.toNat + nr.weight.toNat) ∧
    (∀ r, tree.root = some r → ∃ n, tree.nodes[r.toNat]? = some n ∧ n.weight.toNat = freqTotal freq)

/-! ## The code table -/

/-- 42_code_table.md R115, its equivalent definition, and R116: with two or more byte values, following a present byte's
code from the root leads to its leaf; with one, its code is `[0]`. -/
def Obligations.CodesAreTreePaths : Prop :=
  ∀ (freq : Vector Word 256) (tree : Tree) (b : Byte), buildTree freq = some tree → freqOf freq b ≠ 0#32 →
    (2 ≤ distinctBytes freq → ∃ r, tree.root = some r ∧
      descend tree.nodes r (codeOf (genCodes tree) b) = some (.leaf b (freqOf freq b))) ∧
    (distinctBytes freq = 1 → codeOf (genCodes tree) b = [false])

/-- 42_code_table.md R117, R120 item 3 and 41_tree_builder.md R112: exactly the counted byte values get a code, and no
code is longer than N - 1 bits (1 for N = 1), so none is longer than `MAX_CODE_LEN`. -/
def Obligations.CodesExistForCountedBytesAndFit : Prop :=
  ∀ (freq : Vector Word 256) (tree : Tree) (b : Byte), buildTree freq = some tree →
    ((codeOf (genCodes tree) b).length ≠ 0 ↔ freqOf freq b ≠ 0#32) ∧
    (codeOf (genCodes tree) b).length ≤ max 1 (distinctBytes freq - 1) ∧
    (codeOf (genCodes tree) b).length ≤ Config.maxCodeLen

/-- 42_code_table.md R120 item 1: the codes are prefix-free. -/
def Obligations.CodesArePrefixFree : Prop :=
  ∀ (freq : Vector Word 256) (tree : Tree) (a c : Byte), buildTree freq = some tree → a ≠ c →
    freqOf freq a ≠ 0#32 → freqOf freq c ≠ 0#32 →
    ¬ (codeOf (genCodes tree) a <+: codeOf (genCodes tree) c)

/-- 42_code_table.md R120 item 2: with two or more byte values the code is complete, the sum of `2^(-len)` being 1 (here
both sides times `2^255`). -/
def Obligations.CodesAreComplete : Prop :=
  ∀ (freq : Vector Word 256) (tree : Tree), buildTree freq = some tree → 2 ≤ distinctBytes freq →
    ((List.range 256).map fun b =>
      let len := (codeOf (genCodes tree) (BitVec.ofNat 8 b)).length
      if len = 0 then 0 else 2 ^ (255 - len)).sum = 2 ^ 255

/-! ## Packing -/

/-- 00_scope.md R8: the byte built from a bit sequence of at most 8 bits. -/
def Obligations.PackPutsFirstBitHighest : Prop :=
  ∀ s : Bits, s.length ≤ 8 →
    (pack8 s).toNat = ((List.range 8).map fun i => (s.getD i false).toNat * 2 ^ (7 - i)).sum

/-- 43_bit_packer.md R126 and 20_memory.md R68: bit `s[i]` goes to byte `floor(i/8)` at position `7 - (i mod 8)`, in the
whole chunks and in the zero-padded last one. -/
def Obligations.StreamBitsLandMsbFirst : Prop :=
  ∀ s : Bits,
    (packedOutput s).length = (s.length + 7) / 8 ∧
    ∀ i, i < 8 * ((s.length + 7) / 8) →
      ∃ x, (packedOutput s)[i / 8]? = some x ∧ x.getLsbD (7 - i % 8) = s.getD i false

/-- 42_code_table.md R118: a code as a number, and its readback in eight registers. -/
def Obligations.CodeValueReadsLeftToRight : Prop :=
  ∀ (s : State) (k : Fin 8), s.phase ≠ .fault → s.codeLen s.selByte ≤ 255 →
    let code := s.codeAt s.selByte
    let value := ((List.range code.length).map fun i => (code.getD i false).toNat * 2 ^ (code.length - 1 - i)).sum
    (codeval code).toNat = value ∧
    ∃ v, memRead (0x060 + 4 * k.val) 4 s = .next (v, s) ∧ v.toNat = value / 2 ^ (32 * k.val) % 2 ^ 32

/-! ## Registers and the bus -/

/-- 10_state.md R39: the fields of `STATUS`, in a state whose `|OUTQ|` is at most 255; and the number of each error code,
which `STATUS[11:8]` shows (60_exceptions.md R161). -/
def Obligations.StatusFields : Prop :=
  (∀ s : State, s.outq.length ≤ 255 →
    memRead 0x004 4 s = .next (s.statusWord, s) ∧
    (s.statusWord.getLsbD 0 = true ↔ s.pending ≠ none) ∧ (s.statusWord.getLsbD 1 = true ↔ s.phase = .fault) ∧
    s.statusWord.extractLsb' 2 2 = s.phase.value ∧ s.statusWord.extractLsb' 4 4 = 0#4 ∧
    s.statusWord.extractLsb' 8 4 = s.errCode.value ∧ s.statusWord.extractLsb' 12 4 = 0#4 ∧
    (s.statusWord.extractLsb' 16 8).toNat = s.outq.length ∧ s.statusWord.extractLsb' 24 8 = 0#8) ∧
  State.reset.statusWord = 0#32 ∧
  ErrCode.none.value = 0#4 ∧ ErrCode.illegalCmd.value = 1#4 ∧ ErrCode.sequence.value = 2#4 ∧
  ErrCode.overrun.value = 3#4 ∧ ErrCode.missingCode.value = 4#4 ∧ ErrCode.freqOverflow.value = 5#4 ∧
  ErrCode.emptyQueue.value = 6#4

/-- 10_state.md R48: the fields of `PACK`, in a state with at most 7 bits in `ACC`. That bits [14:7] are `pack8(ACC)` is the
sentence the spec derives from R48 and 43_bit_packer.md R128: "The first pending bit is at bit 14, so `PACK[14:8] << 1`
is the byte that `FLUSH` would emit". -/
def Obligations.PackRegisterFields : Prop :=
  (∀ s : State, s.acc.length ≤ 7 →
    memRead 0x034 4 s = .next (s.packWord, s) ∧
    (s.packWord.extractLsb' 0 3).toNat = s.acc.length ∧ s.packWord.extractLsb' 3 5 = 0#5 ∧
    (∀ i, i < 7 → s.packWord.getLsbD (14 - i) = s.acc.getD i false) ∧ s.packWord.extractLsb' 15 17 = 0#17 ∧
    s.packWord.extractLsb' 7 8 = pack8 s.acc) ∧
  State.reset.packWord = 0#32

/-- 10_state.md R46, R50, R51, R52: the frequency readback in every phase, and outside FAULT the code length, the node
readbacks and `ROOT`, which shows the root with VALID = 1 in CODED and DONE alone. (In FAULT: `UnspecifiedReadsAreFreeDraws`.) -/
def Obligations.TableReadbacks : Prop :=
  ∀ s : State,
    memRead 0x044 4 s = .next (s.freqAt (s.sel.extractLsb' 0 8), s) ∧
    (s.phase ≠ .fault →
      (s.codeLen (s.sel.extractLsb' 0 8) ≤ 255 →
        ∃ v, memRead 0x048 4 s = .next (v, s) ∧ v.toNat = s.codeLen (s.sel.extractLsb' 0 8)) ∧
      (∀ b w, s.nodes[s.sel.toNat]? = some (.leaf b w) →
        memRead 0x04C 4 s = .next (0x80000000#32 ||| b.setWidth 32, s) ∧ memRead 0x050 4 s = .next (w, s)) ∧
      (∀ l r w, s.nodes[s.sel.toNat]? = some (.internal l r w) →
        memRead 0x04C 4 s = .next (0xC0000000#32 ||| (r.setWidth 32 <<< 17) ||| (l.setWidth 32 <<< 8), s) ∧
        memRead 0x050 4 s = .next (w, s)) ∧
      (s.nnodes ≤ s.sel.toNat → memRead 0x04C 4 s = .next (0#32, s) ∧ memRead 0x050 4 s = .next (0#32, s)) ∧
      (∀ r, s.root = some r → s.phase = .coded ∨ s.phase = .done →
        memRead 0x024 4 s = .next (0x80000000#32 ||| r.setWidth 32, s)) ∧
      (s.root = none ∨ s.phase = .count → memRead 0x024 4 s = .next (0#32, s)))

/-- 10_state.md R38, R40, R44, R45: the identification register, `CMD`, and the exact copies of `ERRCMD`, `NSYM` and
`LEN`, in every phase; 10_state.md R47 and R37 for the counters and `PARAM`. -/
def Obligations.PlainRegistersShowTheirItems : Prop :=
  (∀ s : State,
    memRead 0x000 4 s = .next (0x48454331#32, s) ∧ memRead 0x008 4 s = .next (0#32, s) ∧
    memRead 0x018 4 s = .next (s.errCmd, s) ∧ memRead 0x01C 4 s = .next (s.nsym.setWidth 32, s) ∧
    memRead 0x020 4 s = .next (s.len, s) ∧ memRead 0x028 4 s = .next (s.bitcnt.extractLsb' 0 32, s) ∧
    memRead 0x02C 4 s = .next (s.bitcnt.extractLsb' 32 32, s) ∧ memRead 0x030 4 s = .next (s.outcnt, s) ∧
    memRead 0x010 4 s = .next (s.intStatus.setWidth 32, s) ∧ memRead 0x014 4 s = .next (s.intEn.setWidth 32, s) ∧
    memRead 0x040 4 s = .next (s.sel.setWidth 32, s) ∧
    memRead 0x038 4 s = .next (0x01FFFF00#32 + BitVec.ofNat 32 Config.outDepth, s)) ∧
  32 ≤ Config.outDepth ∧ Config.outDepth ≤ 255 ∧ paramWordAt 64 = 0x01FFFF40#32

/-- 10_state.md R42, R43, R49: writes of the three writable registers other than `CMD`, in every phase. -/
def Obligations.WritableRegistersTakeWrites : Prop :=
  ∀ (s : State) (v : Word),
    memWrite 0x010 4 v s = .next { s with intStatus := s.intStatus &&& ~~~(v.extractLsb' 0 3) } ∧
    memWrite 0x014 4 v s = .next { s with intEn := v.extractLsb' 0 3 } ∧
    memWrite 0x040 4 v s = .next { s with sel := v.extractLsb' 0 9 }

/-- 20_memory.md R64 and R65: reserved offsets read 0 and ignore writes, writes to read-only registers are ignored, and
reading `CMD` returns 0; none of them has a side effect. -/
def Obligations.ReservedAndReadOnlyAreInert : Prop :=
  (∀ (off : Nat) (v : Word) (s : State), off % 4 = 0 →
    (off = 0x03C ∨ (0x054 ≤ off ∧ off ≤ 0x05C) ∨ (0x080 ≤ off ∧ off ≤ 0xFFC)) →
    memRead off 4 s = .next (0#32, s) ∧ memWrite off 4 v s = .next s) ∧
  (∀ (r : Reg) (v : Word) (s : State), r ≠ .cmd → r ≠ .intStatus → r ≠ .intEn → r ≠ .sel →
    memWrite r.offset 4 v s = .next s) ∧
  (∀ s : State, memRead 0x008 4 s = .next (0#32, s))

/-- 20_memory.md R66: an access of another width or alignment is refused; one outside the window of R60 faults (log 12). -/
def Obligations.InexpressibleAccessesStop : Prop :=
  ∀ (off n : Nat) (v : Word) (s : State),
    (n ≠ 4 ∨ off % 4 ≠ 0 →
      memRead off n s = .refused (.unsupportedAccess off n) ∧
      memWrite off n v s = .refused (.unsupportedAccess off n)) ∧
    (n = 4 → off % 4 = 0 → 0x1000 ≤ off →
      memRead off n s = .fault (.outsideWindow off) ∧ memWrite off n v s = .fault (.outsideWindow off))

/-- 20_memory.md R67: a read changes nothing of HEC but `OUTQ`, and that only at `OUT_DATA`; any other read that R164
does not leave open returns the same value twice. -/
def Obligations.ReadsChangeOnlyTheOutputQueue : Prop :=
  ∀ (r : Reg) (s t : State) (v : Word), memRead r.offset 4 s = .next (v, t) →
    { t with outq := s.outq, draws := s.draws } = s ∧
    (r ≠ .outData → t.outq = s.outq) ∧
    (r ≠ .outData → ¬(s.phase = .fault ∧ r.openInFault = true) → t = s ∧ memRead r.offset 4 t = .next (v, t))

/-- 44_output_port.md R137: a read of `OUT_DATA`, in every phase and whether or not a command is pending; and a write to
it is ignored. -/
def Obligations.OutDataReadPops : Prop :=
  ∀ s : State,
    (∀ x q, s.outq = x :: q →
      memRead 0x00C 4 s = .next (0x00000100#32 ||| x.setWidth 32, { s with outq := q })) ∧
    (s.outq = [] → memRead 0x00C 4 s = .next (0#32, s)) ∧
    (∀ v, memWrite 0x00C 4 v s = .next s)

/-- 60_exceptions.md R164: which reads are open in FAULT, and that each takes the next free draw, so that two reads may
differ; it holds whatever the draws are (log 5). Every other read in FAULT but `OUT_DATA` is exact. -/
def Obligations.UnspecifiedReadsAreFreeDraws : Prop :=
  ∀ (r : Reg) (s : State), s.phase = .fault →
    (r ∈ [.root, .nodeRd, .nodeWeightRd, .codeLenRd, .codeValRd 0, .codeValRd 1, .codeValRd 2, .codeValRd 3,
        .codeValRd 4, .codeValRd 5, .codeValRd 6, .codeValRd 7] →
      memRead r.offset 4 s = .next (Config.faultReadback s.draws, { s with draws := s.draws + 1 })) ∧
    (r ∉ [.outData, .root, .nodeRd, .nodeWeightRd, .codeLenRd, .codeValRd 0, .codeValRd 1, .codeValRd 2,
        .codeValRd 3, .codeValRd 4, .codeValRd 5, .codeValRd 6, .codeValRd 7] →
      memRead r.offset 4 s = .next (s.view r, s))

/-- 60_exceptions.md R174: the interrupt output. -/
def Obligations.IrqIsMaskedLevel : Prop :=
  (∀ s : State, s.irq = true ↔ ∃ k, k < 3 ∧ s.intStatus.getLsbD k = true ∧ s.intEn.getLsbD k = true) ∧
  State.reset.irq = false ∧ (∀ s : State, (clear s).irq = false) ∧
  (∀ (s t : State) (v : Word), memWrite 0x014 4 v s = .next t → t.irq = (s.intStatus &&& v.extractLsb' 0 3 != 0#3))

/-- 60_exceptions.md R173: each interrupt bit is set by its event and by nothing else, and stays set until a W1C write of
it, `CLEAR` or reset. -/
def Obligations.InterruptBitsFollowTheirEvents : Prop :=
  ∀ s t : State, s.Sequenced → step s = .next t → s.clearsNow = false →
    (s.phase ≠ .fault → t.phase = .fault → t.intStatus.getLsbD 0 = true) ∧
    (s.completesNow = some .build → t.intStatus.getLsbD 1 = true) ∧
    (s.completesNow = some .flush → t.intStatus.getLsbD 2 = true) ∧
    (t.intStatus.getLsbD 0 = true → s.intStatus.getLsbD 0 = true ∨ (s.phase ≠ .fault ∧ t.phase = .fault)) ∧
    (t.intStatus.getLsbD 1 = true → s.intStatus.getLsbD 1 = true ∨ s.completesNow = some .build) ∧
    (t.intStatus.getLsbD 2 = true → s.intStatus.getLsbD 2 = true ∨ s.completesNow = some .flush) ∧
    (∀ k, s.intStatus.getLsbD k = true → t.intStatus.getLsbD k = false →
      s.mover = .host ∧ ∃ v, s.hostProg.head? = some (.memWrite 0x010 4 v) ∧ v.getLsbD k = true)

/-! ## Reset -/

/-- 70_reset_and_hazards.md R186: the reset value of every architectural state item. The last clause, what every register
reads after reset, is the sentence of R186 that the spec derives from 10_state.md R37 to R52. -/
def Obligations.ResetStateIsDefined : Prop :=
  let s := State.reset
  s.phase = .count ∧ s.pending = none ∧ (∀ b, s.freqAt b = 0#32) ∧ s.len = 0#32 ∧ s.nsym = 0#9 ∧ s.nnodes = 0 ∧
  s.root = none ∧ (∀ b, s.codeLen b = 0) ∧ s.acc = [] ∧ s.outq = [] ∧ s.bitcnt = 0#64 ∧ s.outcnt = 0#32 ∧
  s.errCode = .none ∧ s.errCmd = 0#32 ∧ s.intStatus = 0#3 ∧ s.intEn = 0#3 ∧ s.sel = 0#9 ∧
  (∀ r, readReg r s = (if r = .id then 0x48454331#32 else if r = .param then s.view .param else 0#32, s))

/-- 70_reset_and_hazards.md R187 (which the spec derives from R186 and 45_control.md R150), R185: reset differs from `CLEAR`
only in `INT_EN` and `SEL`, and a reset edge applies to HEC in any state. That it leaves the host's program, `OUTBUF` and
reads as they are, and takes one turn, is the model's choice (log 11, log 1). -/
def Obligations.ResetIsClearWithMaskAndSelector : Prop :=
  (∀ s : State, resetHec s = { clear s with intEn := 0#3, sel := 0#9 }) ∧
  (∀ (s : State) (ts : List Turn), s.turns = .rst :: ts →
    ∃ t, step s = .next t ∧ t.hec = State.reset.hec ∧ t.turns = ts ∧ t.hostProg = s.hostProg ∧ t.outbuf = s.outbuf ∧
      t.reads = s.reads)

/-! ## The two agents -/

/-- 45_control.md R151, at acceptance: when a multi-cycle command becomes pending, every register reads what it read,
except `STATUS`, whose `BUSY` bit alone changes. -/
def Obligations.AcceptanceShowsOnlyBusy : Prop :=
  ∀ (i : Instr) (s t : State), i = .build ∨ i = .flush ∨ (∃ b, i = .encode b) → s.pending = none →
    exec i s = .next t → t.phase ≠ .fault →
    t.pending ≠ none ∧ t.statusWord = s.statusWord ||| 1#32 ∧
    (∀ r, r ≠ .status → (readReg r t).1 = (readReg r s).1)

/-- 10_state.md R24 to R26, R32 and 70_reset_and_hazards.md R192, 40_frequency.md R92: across any step but a `CLEAR` or a
reset, only an accepted `COUNT` changes the frequency table, and only a completing `ENCODE` changes `BITCNT`. -/
def Obligations.TablesHaveOneWriter : Prop :=
  ∀ s t : State, step s = .next t → s.clearsNow = false →
    (t.freq ≠ s.freq ∨ t.len ≠ s.len ∨ t.nsym ≠ s.nsym →
      s.phase = .count ∧ ∃ b, s.commandNow = some (encode (.count b))) ∧
    (t.bitcnt ≠ s.bitcnt → ∃ b, s.completesNow = some (.encode b)) ∧
    (t.nodes ≠ s.nodes ∨ t.root ≠ s.root ∨ t.code ≠ s.code → s.completesNow = some .build)

/-- 10_state.md R31 and 44_output_port.md R136, R138: across any step but a `CLEAR` or a reset, `OUTQ` only grows at its
tail, by a completing `ENCODE` or `FLUSH`, or loses its head, by a read of `OUT_DATA`. -/
def Obligations.OutputQueueIsFifo : Prop :=
  ∀ s t : State, step s = .next t → s.clearsNow = false →
    t.outq = s.outq ∨
    (∃ pushed, t.outq = s.outq ++ pushed ∧ (s.completesNow = some .flush ∨ ∃ b, s.completesNow = some (.encode b))) ∨
    (∃ x, s.outq = x :: t.outq ∧ s.readsOutDataNow = true)

/-- 43_bit_packer.md R130, 45_control.md R148: a held command is released only by a read of `OUT_DATA` that returns a
byte, and once its condition is true it stays true until it completes or is abandoned. -/
def Obligations.HoldIsLiftedOnlyByOutDataRead : Prop :=
  ∀ (s t : State) (p : Pending), s.pending = some p → step s = .next t → t.pending = some p →
    (s.blockEnabled = false → t.blockEnabled = true → s.readsOutDataNow = true ∧ ∃ x, s.outq = x :: t.outq) ∧
    (s.blockEnabled = true → t.blockEnabled = true)

/-- 30_encoding.md R87: one pass of `WAIT` and of `DRAIN`, access by access, and the expansion of `COMPRESS`. The model's
own in it: the loops' reads are not kept in `reads` (log 13), and a pass of `WAIT` is two atomic accesses, its loop decided
by the `BUSY` that the first one read (log 19). -/
def Obligations.PseudoInstructionsRunTheirLoops : Prop :=
  (∀ (s : State) (rest : List HostOp), s.mover = .host → s.hostProg = .wait :: rest → s.outq.length ≤ 255 →
    step s = .next { s with
      turns := s.turns.tail
      hostProg :=
        if s.outq ≠ [] then .waitPop s.busy :: rest else if s.busy = true then .wait :: rest else rest }) ∧
  (∀ (s : State) (rest : List HostOp) (busy : Bool), s.mover = .host → s.hostProg = .waitPop busy :: rest →
    step s = .next { s with
      turns := s.turns.tail
      hostProg := if busy = true then .wait :: rest else rest
      outq := s.outq.tail
      outbuf := s.outbuf ++ s.outq.take 1 }) ∧
  (∀ (s : State) (rest : List HostOp), s.mover = .host → s.hostProg = .drain :: rest →
    step s = .next { s with
      turns := s.turns.tail
      hostProg := if s.outq ≠ [] then .drain :: rest else rest
      outq := s.outq.tail
      outbuf := s.outbuf ++ s.outq.take 1 }) ∧
  (∀ xs : List Byte, (HostLine.compress xs).expand =
    [.memWrite 0x008 4 0x01000000#32] ++ xs.map (fun x => .memWrite 0x008 4 (0x02000000#32 ||| x.setWidth 32)) ++
    [.memWrite 0x008 4 0x03000000#32, .wait] ++
    xs.flatMap (fun x => [.memWrite 0x008 4 (0x04000000#32 ||| x.setWidth 32), .wait]) ++
    [.memWrite 0x008 4 0x05000000#32, .wait, .drain])

/-- 43_bit_packer.md R130 and 70_reset_and_hazards.md R193, by the model's choice that an enabled completion goes first
once the interleaving has run out (log 1): a host in `WAIT` always lets a pending command complete, within two steps for
each byte in the FIFO. -/
def Obligations.WaitingHostLetsCommandComplete : Prop :=
  ∀ (s : State) (rest : List HostOp), s.Bounded → s.pending ≠ none → s.turns = [] → s.hostProg = .wait :: rest →
    ∃ n t, n ≤ 2 * s.outq.length + 1 ∧ runSteps n s = .next t ∧ t.pending = none

/-! ## Invariants -/

/-- 10_state.md R54: every step keeps the invariants. -/
def Obligations.EveryStepKeepsSequencing : Prop :=
  ∀ s t : State, s.Sequenced → step s = .next t → t.Sequenced

/-- 10_state.md R27, R29, R30, R31, R34: every step keeps the sizes of the state items, and `ERRCODE` says whether the
phase is FAULT. -/
def Obligations.EveryStepKeepsBounds : Prop :=
  ∀ s t : State, s.Bounded → step s = .next t → t.Bounded

/-- 43_bit_packer.md R125, R129 item 1 and 44_output_port.md R139: every step keeps the stream model, so the bytes drained
and those still in `OUTQ` are, in order, the packed output of the codes encoded. -/
def Obligations.EveryStepKeepsStreamModel : Prop :=
  ∀ (s t : State) (h : History), s.Sequenced → StreamModel h s → step s = .next t → StreamModel (h.after s t) t

/-- The three invariants hold at reset (70_reset_and_hazards.md R186). -/
def Obligations.ResetMeetsTheInvariants : Prop :=
  State.reset.Sequenced ∧ State.reset.Bounded ∧ StreamModel ⟨[], [], []⟩ State.reset
end

