-- ==== Sys2Proof/Laws/Bits.lean ====
section
/-! SUPPORT. Lengths of packed and left-over bits, and the number a bit sequence denotes. -/

namespace Sys2Proof.Machine

@[simp] theorem wholeBytes_length (s : Bits) : (wholeBytes s).length = s.length / 8 := by
  simp [wholeBytes]

@[simp] theorem leftover_length (s : Bits) : (leftover s).length = s.length % 8 := by
  simp [leftover]
  omega

@[simp] theorem byteBits_length (x : Byte) : (byteBits x).length = 8 := by
  simp [byteBits]

@[simp] theorem bitsToNat_nil : bitsToNat [] = 0 := rfl

/-- A last bit doubles the number and adds itself. -/
theorem bitsToNat_append_one (s : Bits) (b : Bool) : bitsToNat (s ++ [b]) = 2 * bitsToNat s + b.toNat := by
  simp [bitsToNat]

/-- A number of `k` bits is below `2^k`. -/
theorem bitsToNat_lt (s : Bits) : bitsToNat s < 2 ^ s.length := by
  induction s using List.reverseRecOn with
  | nil => simp
  | append_singleton s b ih =>
    rw [bitsToNat_append_one, List.length_append, List.length_singleton, pow_succ]
    have := b.toNat_le
    omega

end Sys2Proof.Machine
end

