-- ==== Sys2Proof/Laws/State.lean ====
section
/-! SUPPORT. One lemma for each field of each named update of the state, each true by unfolding the update once, so that
no later proof unfolds a record update. -/

namespace Sys2Proof.Machine

@[simp] theorem raiseFault_phase (c : ErrCode) (w : Word) (s : State) : (raiseFault c w s).phase = .fault := rfl
@[simp] theorem raiseFault_pending (c : ErrCode) (w : Word) (s : State) : (raiseFault c w s).pending = none := rfl
@[simp] theorem raiseFault_freq (c : ErrCode) (w : Word) (s : State) : (raiseFault c w s).freq = s.freq := rfl
@[simp] theorem raiseFault_len (c : ErrCode) (w : Word) (s : State) : (raiseFault c w s).len = s.len := rfl
@[simp] theorem raiseFault_nsym (c : ErrCode) (w : Word) (s : State) : (raiseFault c w s).nsym = s.nsym := rfl
@[simp] theorem raiseFault_nodes (c : ErrCode) (w : Word) (s : State) : (raiseFault c w s).nodes = s.nodes := rfl
@[simp] theorem raiseFault_root (c : ErrCode) (w : Word) (s : State) : (raiseFault c w s).root = s.root := rfl
@[simp] theorem raiseFault_code (c : ErrCode) (w : Word) (s : State) : (raiseFault c w s).code = s.code := rfl
@[simp] theorem raiseFault_acc (c : ErrCode) (w : Word) (s : State) : (raiseFault c w s).acc = s.acc := rfl
@[simp] theorem raiseFault_outq (c : ErrCode) (w : Word) (s : State) : (raiseFault c w s).outq = s.outq := rfl
@[simp] theorem raiseFault_bitcnt (c : ErrCode) (w : Word) (s : State) : (raiseFault c w s).bitcnt = s.bitcnt := rfl
@[simp] theorem raiseFault_outcnt (c : ErrCode) (w : Word) (s : State) : (raiseFault c w s).outcnt = s.outcnt := rfl
@[simp] theorem raiseFault_errCode (c : ErrCode) (w : Word) (s : State) : (raiseFault c w s).errCode = c := rfl
@[simp] theorem raiseFault_errCmd (c : ErrCode) (w : Word) (s : State) : (raiseFault c w s).errCmd = w := rfl
@[simp] theorem raiseFault_intStatus (c : ErrCode) (w : Word) (s : State) : (raiseFault c w s).intStatus = s.intStatus ||| errI := rfl
@[simp] theorem raiseFault_intEn (c : ErrCode) (w : Word) (s : State) : (raiseFault c w s).intEn = s.intEn := rfl
@[simp] theorem raiseFault_sel (c : ErrCode) (w : Word) (s : State) : (raiseFault c w s).sel = s.sel := rfl
@[simp] theorem raiseFault_hostProg (c : ErrCode) (w : Word) (s : State) : (raiseFault c w s).hostProg = s.hostProg := rfl
@[simp] theorem raiseFault_outbuf (c : ErrCode) (w : Word) (s : State) : (raiseFault c w s).outbuf = s.outbuf := rfl
@[simp] theorem raiseFault_reads (c : ErrCode) (w : Word) (s : State) : (raiseFault c w s).reads = s.reads := rfl
@[simp] theorem raiseFault_turns (c : ErrCode) (w : Word) (s : State) : (raiseFault c w s).turns = s.turns := rfl
@[simp] theorem raiseFault_draws (c : ErrCode) (w : Word) (s : State) : (raiseFault c w s).draws = s.draws := rfl

@[simp] theorem clear_phase (s : State) : (clear s).phase = .count := rfl
@[simp] theorem clear_pending (s : State) : (clear s).pending = none := rfl
@[simp] theorem clear_freq (s : State) : (clear s).freq = Vector.replicate 256 0#32 := rfl
@[simp] theorem clear_len (s : State) : (clear s).len = 0#32 := rfl
@[simp] theorem clear_nsym (s : State) : (clear s).nsym = 0#9 := rfl
@[simp] theorem clear_nodes (s : State) : (clear s).nodes = [] := rfl
@[simp] theorem clear_root (s : State) : (clear s).root = none := rfl
@[simp] theorem clear_code (s : State) : (clear s).code = Vector.replicate 256 [] := rfl
@[simp] theorem clear_acc (s : State) : (clear s).acc = [] := rfl
@[simp] theorem clear_outq (s : State) : (clear s).outq = [] := rfl
@[simp] theorem clear_bitcnt (s : State) : (clear s).bitcnt = 0#64 := rfl
@[simp] theorem clear_outcnt (s : State) : (clear s).outcnt = 0#32 := rfl
@[simp] theorem clear_errCode (s : State) : (clear s).errCode = .none := rfl
@[simp] theorem clear_errCmd (s : State) : (clear s).errCmd = 0#32 := rfl
@[simp] theorem clear_intStatus (s : State) : (clear s).intStatus = 0#3 := rfl
@[simp] theorem clear_intEn (s : State) : (clear s).intEn = s.intEn := rfl
@[simp] theorem clear_sel (s : State) : (clear s).sel = s.sel := rfl
@[simp] theorem clear_hostProg (s : State) : (clear s).hostProg = s.hostProg := rfl
@[simp] theorem clear_outbuf (s : State) : (clear s).outbuf = s.outbuf := rfl
@[simp] theorem clear_reads (s : State) : (clear s).reads = s.reads := rfl
@[simp] theorem clear_turns (s : State) : (clear s).turns = s.turns := rfl
@[simp] theorem clear_draws (s : State) : (clear s).draws = s.draws := rfl

@[simp] theorem resetHec_phase (s : State) : (resetHec s).phase = .count := rfl
@[simp] theorem resetHec_pending (s : State) : (resetHec s).pending = none := rfl
@[simp] theorem resetHec_freq (s : State) : (resetHec s).freq = Vector.replicate 256 0#32 := rfl
@[simp] theorem resetHec_len (s : State) : (resetHec s).len = 0#32 := rfl
@[simp] theorem resetHec_nsym (s : State) : (resetHec s).nsym = 0#9 := rfl
@[simp] theorem resetHec_nodes (s : State) : (resetHec s).nodes = [] := rfl
@[simp] theorem resetHec_root (s : State) : (resetHec s).root = none := rfl
@[simp] theorem resetHec_code (s : State) : (resetHec s).code = Vector.replicate 256 [] := rfl
@[simp] theorem resetHec_acc (s : State) : (resetHec s).acc = [] := rfl
@[simp] theorem resetHec_outq (s : State) : (resetHec s).outq = [] := rfl
@[simp] theorem resetHec_bitcnt (s : State) : (resetHec s).bitcnt = 0#64 := rfl
@[simp] theorem resetHec_outcnt (s : State) : (resetHec s).outcnt = 0#32 := rfl
@[simp] theorem resetHec_errCode (s : State) : (resetHec s).errCode = .none := rfl
@[simp] theorem resetHec_errCmd (s : State) : (resetHec s).errCmd = 0#32 := rfl
@[simp] theorem resetHec_intStatus (s : State) : (resetHec s).intStatus = 0#3 := rfl
@[simp] theorem resetHec_intEn (s : State) : (resetHec s).intEn = 0#3 := rfl
@[simp] theorem resetHec_sel (s : State) : (resetHec s).sel = 0#9 := rfl
@[simp] theorem resetHec_hostProg (s : State) : (resetHec s).hostProg = s.hostProg := rfl
@[simp] theorem resetHec_outbuf (s : State) : (resetHec s).outbuf = s.outbuf := rfl
@[simp] theorem resetHec_reads (s : State) : (resetHec s).reads = s.reads := rfl
@[simp] theorem resetHec_turns (s : State) : (resetHec s).turns = s.turns := rfl
@[simp] theorem resetHec_draws (s : State) : (resetHec s).draws = s.draws := rfl

@[simp] theorem fifoPush_phase (x : Byte) (s : State) : (fifoPush x s).phase = s.phase := rfl
@[simp] theorem fifoPush_pending (x : Byte) (s : State) : (fifoPush x s).pending = s.pending := rfl
@[simp] theorem fifoPush_freq (x : Byte) (s : State) : (fifoPush x s).freq = s.freq := rfl
@[simp] theorem fifoPush_len (x : Byte) (s : State) : (fifoPush x s).len = s.len := rfl
@[simp] theorem fifoPush_nsym (x : Byte) (s : State) : (fifoPush x s).nsym = s.nsym := rfl
@[simp] theorem fifoPush_nodes (x : Byte) (s : State) : (fifoPush x s).nodes = s.nodes := rfl
@[simp] theorem fifoPush_root (x : Byte) (s : State) : (fifoPush x s).root = s.root := rfl
@[simp] theorem fifoPush_code (x : Byte) (s : State) : (fifoPush x s).code = s.code := rfl
@[simp] theorem fifoPush_acc (x : Byte) (s : State) : (fifoPush x s).acc = s.acc := rfl
@[simp] theorem fifoPush_outq (x : Byte) (s : State) : (fifoPush x s).outq = s.outq ++ [x] := rfl
@[simp] theorem fifoPush_bitcnt (x : Byte) (s : State) : (fifoPush x s).bitcnt = s.bitcnt := rfl
@[simp] theorem fifoPush_outcnt (x : Byte) (s : State) : (fifoPush x s).outcnt = s.outcnt := rfl
@[simp] theorem fifoPush_errCode (x : Byte) (s : State) : (fifoPush x s).errCode = s.errCode := rfl
@[simp] theorem fifoPush_errCmd (x : Byte) (s : State) : (fifoPush x s).errCmd = s.errCmd := rfl
@[simp] theorem fifoPush_intStatus (x : Byte) (s : State) : (fifoPush x s).intStatus = s.intStatus := rfl
@[simp] theorem fifoPush_intEn (x : Byte) (s : State) : (fifoPush x s).intEn = s.intEn := rfl
@[simp] theorem fifoPush_sel (x : Byte) (s : State) : (fifoPush x s).sel = s.sel := rfl
@[simp] theorem fifoPush_hostProg (x : Byte) (s : State) : (fifoPush x s).hostProg = s.hostProg := rfl
@[simp] theorem fifoPush_outbuf (x : Byte) (s : State) : (fifoPush x s).outbuf = s.outbuf := rfl
@[simp] theorem fifoPush_reads (x : Byte) (s : State) : (fifoPush x s).reads = s.reads := rfl
@[simp] theorem fifoPush_turns (x : Byte) (s : State) : (fifoPush x s).turns = s.turns := rfl
@[simp] theorem fifoPush_draws (x : Byte) (s : State) : (fifoPush x s).draws = s.draws := rfl

@[simp] theorem countByte_phase (b : Byte) (s : State) : (countByte b s).phase = s.phase := rfl
@[simp] theorem countByte_pending (b : Byte) (s : State) : (countByte b s).pending = s.pending := rfl
@[simp] theorem countByte_freq (b : Byte) (s : State) : (countByte b s).freq = s.freq.set (byteIndex b) (s.freqAt b + 1#32) := rfl
@[simp] theorem countByte_len (b : Byte) (s : State) : (countByte b s).len = s.len + 1#32 := rfl
@[simp] theorem countByte_nsym (b : Byte) (s : State) : (countByte b s).nsym = if s.freqAt b = 0#32 then s.nsym + 1#9 else s.nsym := rfl
@[simp] theorem countByte_nodes (b : Byte) (s : State) : (countByte b s).nodes = s.nodes := rfl
@[simp] theorem countByte_root (b : Byte) (s : State) : (countByte b s).root = s.root := rfl
@[simp] theorem countByte_code (b : Byte) (s : State) : (countByte b s).code = s.code := rfl
@[simp] theorem countByte_acc (b : Byte) (s : State) : (countByte b s).acc = s.acc := rfl
@[simp] theorem countByte_outq (b : Byte) (s : State) : (countByte b s).outq = s.outq := rfl
@[simp] theorem countByte_bitcnt (b : Byte) (s : State) : (countByte b s).bitcnt = s.bitcnt := rfl
@[simp] theorem countByte_outcnt (b : Byte) (s : State) : (countByte b s).outcnt = s.outcnt := rfl
@[simp] theorem countByte_errCode (b : Byte) (s : State) : (countByte b s).errCode = s.errCode := rfl
@[simp] theorem countByte_errCmd (b : Byte) (s : State) : (countByte b s).errCmd = s.errCmd := rfl
@[simp] theorem countByte_intStatus (b : Byte) (s : State) : (countByte b s).intStatus = s.intStatus := rfl
@[simp] theorem countByte_intEn (b : Byte) (s : State) : (countByte b s).intEn = s.intEn := rfl
@[simp] theorem countByte_sel (b : Byte) (s : State) : (countByte b s).sel = s.sel := rfl
@[simp] theorem countByte_hostProg (b : Byte) (s : State) : (countByte b s).hostProg = s.hostProg := rfl
@[simp] theorem countByte_outbuf (b : Byte) (s : State) : (countByte b s).outbuf = s.outbuf := rfl
@[simp] theorem countByte_reads (b : Byte) (s : State) : (countByte b s).reads = s.reads := rfl
@[simp] theorem countByte_turns (b : Byte) (s : State) : (countByte b s).turns = s.turns := rfl
@[simp] theorem countByte_draws (b : Byte) (s : State) : (countByte b s).draws = s.draws := rfl

@[simp] theorem buildDone_phase (t : Tree) (s : State) : (buildDone t s).phase = .coded := rfl
@[simp] theorem buildDone_pending (t : Tree) (s : State) : (buildDone t s).pending = none := rfl
@[simp] theorem buildDone_freq (t : Tree) (s : State) : (buildDone t s).freq = s.freq := rfl
@[simp] theorem buildDone_len (t : Tree) (s : State) : (buildDone t s).len = s.len := rfl
@[simp] theorem buildDone_nsym (t : Tree) (s : State) : (buildDone t s).nsym = s.nsym := rfl
@[simp] theorem buildDone_nodes (t : Tree) (s : State) : (buildDone t s).nodes = t.nodes := rfl
@[simp] theorem buildDone_root (t : Tree) (s : State) : (buildDone t s).root = t.root := rfl
@[simp] theorem buildDone_code (t : Tree) (s : State) : (buildDone t s).code = genCodes t := rfl
@[simp] theorem buildDone_acc (t : Tree) (s : State) : (buildDone t s).acc = s.acc := rfl
@[simp] theorem buildDone_outq (t : Tree) (s : State) : (buildDone t s).outq = s.outq := rfl
@[simp] theorem buildDone_bitcnt (t : Tree) (s : State) : (buildDone t s).bitcnt = s.bitcnt := rfl
@[simp] theorem buildDone_outcnt (t : Tree) (s : State) : (buildDone t s).outcnt = s.outcnt := rfl
@[simp] theorem buildDone_errCode (t : Tree) (s : State) : (buildDone t s).errCode = s.errCode := rfl
@[simp] theorem buildDone_errCmd (t : Tree) (s : State) : (buildDone t s).errCmd = s.errCmd := rfl
@[simp] theorem buildDone_intStatus (t : Tree) (s : State) : (buildDone t s).intStatus = s.intStatus ||| buildI := rfl
@[simp] theorem buildDone_intEn (t : Tree) (s : State) : (buildDone t s).intEn = s.intEn := rfl
@[simp] theorem buildDone_sel (t : Tree) (s : State) : (buildDone t s).sel = s.sel := rfl
@[simp] theorem buildDone_hostProg (t : Tree) (s : State) : (buildDone t s).hostProg = s.hostProg := rfl
@[simp] theorem buildDone_outbuf (t : Tree) (s : State) : (buildDone t s).outbuf = s.outbuf := rfl
@[simp] theorem buildDone_reads (t : Tree) (s : State) : (buildDone t s).reads = s.reads := rfl
@[simp] theorem buildDone_turns (t : Tree) (s : State) : (buildDone t s).turns = s.turns := rfl
@[simp] theorem buildDone_draws (t : Tree) (s : State) : (buildDone t s).draws = s.draws := rfl

@[simp] theorem takeTurn_phase (s : State) : (s.takeTurn).phase = s.phase := rfl
@[simp] theorem takeTurn_pending (s : State) : (s.takeTurn).pending = s.pending := rfl
@[simp] theorem takeTurn_freq (s : State) : (s.takeTurn).freq = s.freq := rfl
@[simp] theorem takeTurn_len (s : State) : (s.takeTurn).len = s.len := rfl
@[simp] theorem takeTurn_nsym (s : State) : (s.takeTurn).nsym = s.nsym := rfl
@[simp] theorem takeTurn_nodes (s : State) : (s.takeTurn).nodes = s.nodes := rfl
@[simp] theorem takeTurn_root (s : State) : (s.takeTurn).root = s.root := rfl
@[simp] theorem takeTurn_code (s : State) : (s.takeTurn).code = s.code := rfl
@[simp] theorem takeTurn_acc (s : State) : (s.takeTurn).acc = s.acc := rfl
@[simp] theorem takeTurn_outq (s : State) : (s.takeTurn).outq = s.outq := rfl
@[simp] theorem takeTurn_bitcnt (s : State) : (s.takeTurn).bitcnt = s.bitcnt := rfl
@[simp] theorem takeTurn_outcnt (s : State) : (s.takeTurn).outcnt = s.outcnt := rfl
@[simp] theorem takeTurn_errCode (s : State) : (s.takeTurn).errCode = s.errCode := rfl
@[simp] theorem takeTurn_errCmd (s : State) : (s.takeTurn).errCmd = s.errCmd := rfl
@[simp] theorem takeTurn_intStatus (s : State) : (s.takeTurn).intStatus = s.intStatus := rfl
@[simp] theorem takeTurn_intEn (s : State) : (s.takeTurn).intEn = s.intEn := rfl
@[simp] theorem takeTurn_sel (s : State) : (s.takeTurn).sel = s.sel := rfl
@[simp] theorem takeTurn_hostProg (s : State) : (s.takeTurn).hostProg = s.hostProg := rfl
@[simp] theorem takeTurn_outbuf (s : State) : (s.takeTurn).outbuf = s.outbuf := rfl
@[simp] theorem takeTurn_reads (s : State) : (s.takeTurn).reads = s.reads := rfl
@[simp] theorem takeTurn_turns (s : State) : (s.takeTurn).turns = s.turns.tail := rfl
@[simp] theorem takeTurn_draws (s : State) : (s.takeTurn).draws = s.draws := rfl

/-! The bytes of a completing `ENCODE` go to `OUTQ` and change nothing else. -/

theorem fifoPushAll_eq (xs : List Byte) (s : State) : fifoPushAll xs s = { s with outq := s.outq ++ xs } := by
  induction xs generalizing s with
  | nil => simp [fifoPushAll]
  | cons x xs ih => simp [fifoPushAll, ih, fifoPush]

@[simp] theorem fifoPushAll_phase (xs : List Byte) (s : State) : (fifoPushAll xs s).phase = s.phase := by
  rw [fifoPushAll_eq]
@[simp] theorem fifoPushAll_pending (xs : List Byte) (s : State) : (fifoPushAll xs s).pending = s.pending := by
  rw [fifoPushAll_eq]
@[simp] theorem fifoPushAll_freq (xs : List Byte) (s : State) : (fifoPushAll xs s).freq = s.freq := by
  rw [fifoPushAll_eq]
@[simp] theorem fifoPushAll_len (xs : List Byte) (s : State) : (fifoPushAll xs s).len = s.len := by
  rw [fifoPushAll_eq]
@[simp] theorem fifoPushAll_nsym (xs : List Byte) (s : State) : (fifoPushAll xs s).nsym = s.nsym := by
  rw [fifoPushAll_eq]
@[simp] theorem fifoPushAll_nodes (xs : List Byte) (s : State) : (fifoPushAll xs s).nodes = s.nodes := by
  rw [fifoPushAll_eq]
@[simp] theorem fifoPushAll_root (xs : List Byte) (s : State) : (fifoPushAll xs s).root = s.root := by
  rw [fifoPushAll_eq]
@[simp] theorem fifoPushAll_code (xs : List Byte) (s : State) : (fifoPushAll xs s).code = s.code := by
  rw [fifoPushAll_eq]
@[simp] theorem fifoPushAll_acc (xs : List Byte) (s : State) : (fifoPushAll xs s).acc = s.acc := by
  rw [fifoPushAll_eq]
@[simp] theorem fifoPushAll_outq (xs : List Byte) (s : State) : (fifoPushAll xs s).outq = s.outq ++ xs := by
  rw [fifoPushAll_eq]
@[simp] theorem fifoPushAll_bitcnt (xs : List Byte) (s : State) : (fifoPushAll xs s).bitcnt = s.bitcnt := by
  rw [fifoPushAll_eq]
@[simp] theorem fifoPushAll_outcnt (xs : List Byte) (s : State) : (fifoPushAll xs s).outcnt = s.outcnt := by
  rw [fifoPushAll_eq]
@[simp] theorem fifoPushAll_errCode (xs : List Byte) (s : State) : (fifoPushAll xs s).errCode = s.errCode := by
  rw [fifoPushAll_eq]
@[simp] theorem fifoPushAll_errCmd (xs : List Byte) (s : State) : (fifoPushAll xs s).errCmd = s.errCmd := by
  rw [fifoPushAll_eq]
@[simp] theorem fifoPushAll_intStatus (xs : List Byte) (s : State) : (fifoPushAll xs s).intStatus = s.intStatus := by
  rw [fifoPushAll_eq]
@[simp] theorem fifoPushAll_intEn (xs : List Byte) (s : State) : (fifoPushAll xs s).intEn = s.intEn := by
  rw [fifoPushAll_eq]
@[simp] theorem fifoPushAll_sel (xs : List Byte) (s : State) : (fifoPushAll xs s).sel = s.sel := by
  rw [fifoPushAll_eq]
@[simp] theorem fifoPushAll_hostProg (xs : List Byte) (s : State) : (fifoPushAll xs s).hostProg = s.hostProg := by
  rw [fifoPushAll_eq]
@[simp] theorem fifoPushAll_outbuf (xs : List Byte) (s : State) : (fifoPushAll xs s).outbuf = s.outbuf := by
  rw [fifoPushAll_eq]
@[simp] theorem fifoPushAll_reads (xs : List Byte) (s : State) : (fifoPushAll xs s).reads = s.reads := by
  rw [fifoPushAll_eq]
@[simp] theorem fifoPushAll_turns (xs : List Byte) (s : State) : (fifoPushAll xs s).turns = s.turns := by
  rw [fifoPushAll_eq]
@[simp] theorem fifoPushAll_draws (xs : List Byte) (s : State) : (fifoPushAll xs s).draws = s.draws := by
  rw [fifoPushAll_eq]

@[simp] theorem completeEncode_phase (b : Byte) (s : State) : (completeEncode b s).phase = s.phase := by
  simp [completeEncode]
@[simp] theorem completeEncode_pending (b : Byte) (s : State) : (completeEncode b s).pending = none := by
  simp [completeEncode]
@[simp] theorem completeEncode_freq (b : Byte) (s : State) : (completeEncode b s).freq = s.freq := by
  simp [completeEncode]
@[simp] theorem completeEncode_len (b : Byte) (s : State) : (completeEncode b s).len = s.len := by
  simp [completeEncode]
@[simp] theorem completeEncode_nsym (b : Byte) (s : State) : (completeEncode b s).nsym = s.nsym := by
  simp [completeEncode]
@[simp] theorem completeEncode_nodes (b : Byte) (s : State) : (completeEncode b s).nodes = s.nodes := by
  simp [completeEncode]
@[simp] theorem completeEncode_root (b : Byte) (s : State) : (completeEncode b s).root = s.root := by
  simp [completeEncode]
@[simp] theorem completeEncode_code (b : Byte) (s : State) : (completeEncode b s).code = s.code := by
  simp [completeEncode]
@[simp] theorem completeEncode_acc (b : Byte) (s : State) : (completeEncode b s).acc = leftover (s.acc ++ s.codeAt b) := by
  simp [completeEncode]
@[simp] theorem completeEncode_outq (b : Byte) (s : State) : (completeEncode b s).outq = s.outq ++ wholeBytes (s.acc ++ s.codeAt b) := by
  simp [completeEncode]
@[simp] theorem completeEncode_bitcnt (b : Byte) (s : State) : (completeEncode b s).bitcnt = s.bitcnt + BitVec.ofNat 64 (s.codeLen b) := by
  simp [completeEncode]
@[simp] theorem completeEncode_outcnt (b : Byte) (s : State) : (completeEncode b s).outcnt = s.outcnt + BitVec.ofNat 32 ((s.acc ++ s.codeAt b).length / 8) := by
  simp [completeEncode]
@[simp] theorem completeEncode_errCode (b : Byte) (s : State) : (completeEncode b s).errCode = s.errCode := by
  simp [completeEncode]
@[simp] theorem completeEncode_errCmd (b : Byte) (s : State) : (completeEncode b s).errCmd = s.errCmd := by
  simp [completeEncode]
@[simp] theorem completeEncode_intStatus (b : Byte) (s : State) : (completeEncode b s).intStatus = s.intStatus := by
  simp [completeEncode]
@[simp] theorem completeEncode_intEn (b : Byte) (s : State) : (completeEncode b s).intEn = s.intEn := by
  simp [completeEncode]
@[simp] theorem completeEncode_sel (b : Byte) (s : State) : (completeEncode b s).sel = s.sel := by
  simp [completeEncode]
@[simp] theorem completeEncode_hostProg (b : Byte) (s : State) : (completeEncode b s).hostProg = s.hostProg := by
  simp [completeEncode]
@[simp] theorem completeEncode_outbuf (b : Byte) (s : State) : (completeEncode b s).outbuf = s.outbuf := by
  simp [completeEncode]
@[simp] theorem completeEncode_reads (b : Byte) (s : State) : (completeEncode b s).reads = s.reads := by
  simp [completeEncode]
@[simp] theorem completeEncode_turns (b : Byte) (s : State) : (completeEncode b s).turns = s.turns := by
  simp [completeEncode]
@[simp] theorem completeEncode_draws (b : Byte) (s : State) : (completeEncode b s).draws = s.draws := by
  simp [completeEncode]

@[simp] theorem flushByte_phase (s : State) : (flushByte s).phase = s.phase := by
  unfold flushByte
  split <;> rfl
@[simp] theorem flushByte_pending (s : State) : (flushByte s).pending = s.pending := by
  unfold flushByte
  split <;> rfl
@[simp] theorem flushByte_freq (s : State) : (flushByte s).freq = s.freq := by
  unfold flushByte
  split <;> rfl
@[simp] theorem flushByte_len (s : State) : (flushByte s).len = s.len := by
  unfold flushByte
  split <;> rfl
@[simp] theorem flushByte_nsym (s : State) : (flushByte s).nsym = s.nsym := by
  unfold flushByte
  split <;> rfl
@[simp] theorem flushByte_nodes (s : State) : (flushByte s).nodes = s.nodes := by
  unfold flushByte
  split <;> rfl
@[simp] theorem flushByte_root (s : State) : (flushByte s).root = s.root := by
  unfold flushByte
  split <;> rfl
@[simp] theorem flushByte_code (s : State) : (flushByte s).code = s.code := by
  unfold flushByte
  split <;> rfl
@[simp] theorem flushByte_acc (s : State) : (flushByte s).acc = s.acc := by
  unfold flushByte
  split <;> rfl
@[simp] theorem flushByte_outq (s : State) : (flushByte s).outq = if s.acc = [] then s.outq else s.outq ++ [pack8 s.acc] := by
  unfold flushByte
  split <;> rfl
@[simp] theorem flushByte_bitcnt (s : State) : (flushByte s).bitcnt = s.bitcnt := by
  unfold flushByte
  split <;> rfl
@[simp] theorem flushByte_outcnt (s : State) : (flushByte s).outcnt = if s.acc = [] then s.outcnt else s.outcnt + 1#32 := by
  unfold flushByte
  split <;> rfl
@[simp] theorem flushByte_errCode (s : State) : (flushByte s).errCode = s.errCode := by
  unfold flushByte
  split <;> rfl
@[simp] theorem flushByte_errCmd (s : State) : (flushByte s).errCmd = s.errCmd := by
  unfold flushByte
  split <;> rfl
@[simp] theorem flushByte_intStatus (s : State) : (flushByte s).intStatus = s.intStatus := by
  unfold flushByte
  split <;> rfl
@[simp] theorem flushByte_intEn (s : State) : (flushByte s).intEn = s.intEn := by
  unfold flushByte
  split <;> rfl
@[simp] theorem flushByte_sel (s : State) : (flushByte s).sel = s.sel := by
  unfold flushByte
  split <;> rfl
@[simp] theorem flushByte_hostProg (s : State) : (flushByte s).hostProg = s.hostProg := by
  unfold flushByte
  split <;> rfl
@[simp] theorem flushByte_outbuf (s : State) : (flushByte s).outbuf = s.outbuf := by
  unfold flushByte
  split <;> rfl
@[simp] theorem flushByte_reads (s : State) : (flushByte s).reads = s.reads := by
  unfold flushByte
  split <;> rfl
@[simp] theorem flushByte_turns (s : State) : (flushByte s).turns = s.turns := by
  unfold flushByte
  split <;> rfl
@[simp] theorem flushByte_draws (s : State) : (flushByte s).draws = s.draws := by
  unfold flushByte
  split <;> rfl

@[simp] theorem completeFlush_phase (s : State) : (completeFlush s).phase = .done := by
  simp [completeFlush]
@[simp] theorem completeFlush_pending (s : State) : (completeFlush s).pending = none := by
  simp [completeFlush]
@[simp] theorem completeFlush_freq (s : State) : (completeFlush s).freq = s.freq := by
  simp [completeFlush]
@[simp] theorem completeFlush_len (s : State) : (completeFlush s).len = s.len := by
  simp [completeFlush]
@[simp] theorem completeFlush_nsym (s : State) : (completeFlush s).nsym = s.nsym := by
  simp [completeFlush]
@[simp] theorem completeFlush_nodes (s : State) : (completeFlush s).nodes = s.nodes := by
  simp [completeFlush]
@[simp] theorem completeFlush_root (s : State) : (completeFlush s).root = s.root := by
  simp [completeFlush]
@[simp] theorem completeFlush_code (s : State) : (completeFlush s).code = s.code := by
  simp [completeFlush]
@[simp] theorem completeFlush_acc (s : State) : (completeFlush s).acc = [] := by
  simp [completeFlush]
@[simp] theorem completeFlush_outq (s : State) : (completeFlush s).outq = if s.acc = [] then s.outq else s.outq ++ [pack8 s.acc] := by
  simp [completeFlush]
@[simp] theorem completeFlush_bitcnt (s : State) : (completeFlush s).bitcnt = s.bitcnt := by
  simp [completeFlush]
@[simp] theorem completeFlush_outcnt (s : State) : (completeFlush s).outcnt = if s.acc = [] then s.outcnt else s.outcnt + 1#32 := by
  simp [completeFlush]
@[simp] theorem completeFlush_errCode (s : State) : (completeFlush s).errCode = s.errCode := by
  simp [completeFlush]
@[simp] theorem completeFlush_errCmd (s : State) : (completeFlush s).errCmd = s.errCmd := by
  simp [completeFlush]
@[simp] theorem completeFlush_intStatus (s : State) : (completeFlush s).intStatus = s.intStatus ||| flushI := by
  simp [completeFlush]
@[simp] theorem completeFlush_intEn (s : State) : (completeFlush s).intEn = s.intEn := by
  simp [completeFlush]
@[simp] theorem completeFlush_sel (s : State) : (completeFlush s).sel = s.sel := by
  simp [completeFlush]
@[simp] theorem completeFlush_hostProg (s : State) : (completeFlush s).hostProg = s.hostProg := by
  simp [completeFlush]
@[simp] theorem completeFlush_outbuf (s : State) : (completeFlush s).outbuf = s.outbuf := by
  simp [completeFlush]
@[simp] theorem completeFlush_reads (s : State) : (completeFlush s).reads = s.reads := by
  simp [completeFlush]
@[simp] theorem completeFlush_turns (s : State) : (completeFlush s).turns = s.turns := by
  simp [completeFlush]
@[simp] theorem completeFlush_draws (s : State) : (completeFlush s).draws = s.draws := by
  simp [completeFlush]

end Sys2Proof.Machine
end

