-- ==== Sys2Proof/Laws/Tables.lean ====
section
/-! SUPPORT. Reading the 256-entry tables after writing them. -/

namespace Sys2Proof.Machine

theorem byteIndex_injective {a b : Byte} (h : (byteIndex a).val = (byteIndex b).val) : a = b :=
  BitVec.eq_of_toNat_eq h

@[simp] theorem freqAt_setFreq_same (s : State) (b : Byte) (v : Word) : (s.setFreq b v).freqAt b = v := by
  simp [State.setFreq, State.freqAt, freqOf]

theorem freqAt_setFreq_other (s : State) {a b : Byte} (v : Word) (h : a ≠ b) :
    (s.setFreq a v).freqAt b = s.freqAt b := by
  have : (byteIndex a).val ≠ (byteIndex b).val := fun e => h (byteIndex_injective e)
  simp [State.setFreq, State.freqAt, freqOf, Vector.getElem_set_ne, this]

@[simp] theorem freqAt_countByte_same (s : State) (b : Byte) : (countByte b s).freqAt b = s.freqAt b + 1#32 := by
  simp [State.freqAt, freqOf]

theorem freqAt_countByte_other (s : State) {a b : Byte} (h : a ≠ b) : (countByte a s).freqAt b = s.freqAt b := by
  have : (byteIndex a).val ≠ (byteIndex b).val := fun e => h (byteIndex_injective e)
  simp [State.freqAt, freqOf, Vector.getElem_set_ne, this]

@[simp] theorem codeOf_emptyCodes (b : Byte) : codeOf emptyCodes b = [] := by
  simp [codeOf, emptyCodes]

@[simp] theorem codeOf_setCode_same (codes : Vector Bits 256) (b : Byte) (p : Bits) :
    codeOf (setCode b p codes) b = p := by
  simp [codeOf, setCode]

theorem codeOf_setCode_other (codes : Vector Bits 256) {a b : Byte} (p : Bits) (h : a ≠ b) :
    codeOf (setCode a p codes) b = codeOf codes b := by
  have : (byteIndex a).val ≠ (byteIndex b).val := fun e => h (byteIndex_injective e)
  simp [codeOf, setCode, Vector.getElem_set_ne, this]

@[simp] theorem codeAt_buildDone (t : Tree) (s : State) (b : Byte) :
    (buildDone t s).codeAt b = codeOf (genCodes t) b := rfl

@[simp] theorem freqAt_cleared (s : State) (b : Byte) : (clear s).freqAt b = 0#32 := by
  simp [State.freqAt, freqOf]

@[simp] theorem codeAt_cleared (s : State) (b : Byte) : (clear s).codeAt b = [] := by
  simp [State.codeAt, codeOf]

end Sys2Proof.Machine
end

