-- ==== Sys2Proof/Laws/Ops.lean ====
section
/-! SUPPORT. What the shared operations can do, said once: the common acceptance, the output FIFO, the free draw, the
parameter OUT_DEPTH. -/

namespace Sys2Proof.Machine

/-- OUT_DEPTH is 32 to 255 (00_scope.md R5). -/
theorem outDepth_bounds : 32 ≤ Config.outDepth ∧ Config.outDepth ≤ 255 := by
  have := Config.outDepthAbove32.isLt
  unfold Config.outDepth
  omega

theorem accept_in_fault {s : State} (i : Instr) (own : State → State) (h : s.phase = .fault) : accept i own s = s := by
  simp [accept, h]

theorem accept_while_pending {s : State} (i : Instr) (own : State → State) (hf : s.phase ≠ .fault)
    (hp : s.pending ≠ none) : accept i own s = raiseFault .overrun (encode i) s := by
  simp [accept, hf, hp]

theorem accept_out_of_phase {s : State} {i : Instr} (own : State → State) (hf : s.phase ≠ .fault)
    (hp : s.pending = none) (hl : legal i s.phase = false) :
    accept i own s = raiseFault .sequence (encode i) s := by
  simp [accept, hf, hp, hl]

theorem accept_legal {s : State} {i : Instr} (own : State → State) (hf : s.phase ≠ .fault) (hp : s.pending = none)
    (hl : legal i s.phase = true) : accept i own s = own s := by
  simp [accept, hf, hp, hl]

/-- Everything the common acceptance can answer. -/
theorem accept_cases (i : Instr) (own : State → State) (s : State) :
    (s.phase = .fault ∧ accept i own s = s) ∨
    (s.phase ≠ .fault ∧ s.pending ≠ none ∧ accept i own s = raiseFault .overrun (encode i) s) ∨
    (s.phase ≠ .fault ∧ s.pending = none ∧ legal i s.phase = false ∧
      accept i own s = raiseFault .sequence (encode i) s) ∨
    (s.phase ≠ .fault ∧ s.pending = none ∧ legal i s.phase = true ∧ accept i own s = own s) := by
  by_cases hf : s.phase = .fault
  · exact .inl ⟨hf, accept_in_fault i own hf⟩
  · by_cases hp : s.pending = none
    · cases hl : legal i s.phase
      · exact .inr (.inr (.inl ⟨hf, hp, rfl, accept_out_of_phase own hf hp hl⟩))
      · exact .inr (.inr (.inr ⟨hf, hp, rfl, accept_legal own hf hp hl⟩))
    · exact .inr (.inl ⟨hf, hp, accept_while_pending i own hf hp⟩)

theorem rejectIllFormed_cases (w : Word) (s : State) :
    (s.phase = .fault ∧ rejectIllFormed w s = s) ∨
    (s.phase ≠ .fault ∧ s.pending ≠ none ∧ rejectIllFormed w s = raiseFault .overrun w s) ∨
    (s.phase ≠ .fault ∧ s.pending = none ∧ rejectIllFormed w s = raiseFault .illegalCmd w s) := by
  by_cases hf : s.phase = .fault <;> by_cases hp : s.pending = none <;> simp [rejectIllFormed, hf, hp]

theorem fifoPop_empty {s : State} (h : s.outq = []) : fifoPop s = none := by
  simp [fifoPop, h]

theorem fifoPop_cons {s : State} {x : Byte} {q : List Byte} (h : s.outq = x :: q) :
    fifoPop s = some (x, { s with outq := q }) := by
  simp [fifoPop, h]

/-- A read of `OUT_DATA` either finds the FIFO empty or removes its head. -/
theorem readOutData_cases (s : State) :
    (s.outq = [] ∧ readOutData s = (0#32, s)) ∨
    ∃ x q, s.outq = x :: q ∧ readOutData s = (0#23 ++ 1#1 ++ x, { s with outq := q }) := by
  cases h : s.outq with
  | nil => exact .inl ⟨rfl, by simp [readOutData, fifoPop_empty h]⟩
  | cons x q => exact .inr ⟨x, q, rfl, by simp [readOutData, fifoPop_cons h]⟩

/-- Everything a read of a register can do to the state. -/
theorem readReg_cases (r : Reg) (s : State) :
    (r = .outData ∧ readReg r s = readOutData s) ∨
    (r ≠ .outData ∧ s.phase = .fault ∧ r.openInFault = true ∧
      readReg r s = (Config.faultReadback s.draws, { s with draws := s.draws + 1 })) ∨
    (r ≠ .outData ∧ ¬(s.phase = .fault ∧ r.openInFault = true) ∧ readReg r s = (s.view r, s)) := by
  by_cases ho : r = .outData
  · exact .inl ⟨ho, by simp [readReg, ho]⟩
  · by_cases hf : s.phase = .fault ∧ r.openInFault = true
    · exact .inr (.inl ⟨ho, hf.1, hf.2, by simp [readReg, ho, hf, freeDraw]⟩)
    · exact .inr (.inr ⟨ho, hf, by simp [readReg, ho, hf]⟩)

/-- Every command answers a next state. -/
theorem exec_answers_next (i : Instr) (s : State) : ∃ t, exec i s = .next t := by
  cases i <;> exact ⟨_, rfl⟩

/-- So does every write to `CMD`. -/
theorem onCmdWrite_answers_next (w : Word) (s : State) : ∃ t, onCmdWrite w s = .next t := by
  unfold onCmdWrite
  split
  · exact exec_answers_next _ s
  · exact ⟨_, rfl⟩

end Sys2Proof.Machine
end

