-- ==== Sys2Proof/Laws/Bus.lean ====
section
/-! SUPPORT. The register map read both ways, and what one bus access answers. -/

namespace Sys2Proof.Machine

/-- The map finds each register at its offset. -/
theorem regAt_offset (r : Reg) : regAt r.offset = some r := by
  cases r with
  | codeValRd k => revert k; decide
  | _ => decide

theorem offset_expressible (r : Reg) : expressible r.offset 4 = true := by
  cases r with
  | codeValRd k => revert k; decide
  | _ => decide

theorem offset_in_window (r : Reg) : r.offset < Config.windowSize := by
  cases r with
  | codeValRd k => revert k; decide
  | _ => decide

theorem memRead_reg (r : Reg) (s : State) : memRead r.offset 4 s = .next (readReg r s) := by
  have := offset_in_window r
  simp [memRead, offset_expressible, regAt_offset, Nat.not_le.mpr this]

theorem memWrite_reg (r : Reg) (v : Word) (s : State) : memWrite r.offset 4 v s = writeReg r v s := by
  have := offset_in_window r
  simp [memWrite, offset_expressible, regAt_offset, Nat.not_le.mpr this]

/-- The write of a command word. -/
theorem memWrite_cmd (w : Word) (s : State) : memWrite 0x008 4 w s = onCmdWrite w s :=
  memWrite_reg .cmd w s

/-- The read of the output port. -/
theorem memRead_outData (s : State) : memRead 0x00C 4 s = .next (readOutData s) := by
  have h := memRead_reg .outData s
  rw [show Reg.outData.offset = 0x00C from rfl] at h
  rw [h]
  simp [readReg]

/-- Everything a write can answer: a refusal, a fault, or a register's write. -/
theorem memWrite_cases (off n : Nat) (v : Word) (s : State) :
    (expressible off n = false ∧ memWrite off n v s = .refused (.unsupportedAccess off n)) ∨
    (expressible off n = true ∧ Config.windowSize ≤ off ∧ memWrite off n v s = .fault (.outsideWindow off)) ∨
    (expressible off n = true ∧ off < Config.windowSize ∧ regAt off = none ∧ memWrite off n v s = .next s) ∨
    ∃ r, expressible off n = true ∧ off < Config.windowSize ∧ regAt off = some r ∧
      memWrite off n v s = writeReg r v s := by
  cases he : expressible off n
  · exact .inl ⟨rfl, by simp [memWrite, he]⟩
  · by_cases hw : Config.windowSize ≤ off
    · exact .inr (.inl ⟨rfl, hw, by simp [memWrite, he, hw]⟩)
    · cases hr : regAt off with
      | none => exact .inr (.inr (.inl ⟨rfl, by omega, rfl, by simp [memWrite, he, hw, hr]⟩))
      | some r => exact .inr (.inr (.inr ⟨r, rfl, by omega, rfl, by simp [memWrite, he, hw, hr]⟩))

end Sys2Proof.Machine
end

