-- ==== Sys2Proof/Laws/Encoding.lean ====
section
/-! SUPPORT. The three fields of a command word, and a word from its fields. -/

namespace Sys2Proof

/-- The bits of a command word: `OPND`, then `RSVD`, then `OPCODE` (30_encoding.md R80). -/
theorem commandWord_getLsbD (opcode opnd : Byte) (i : Nat) : (commandWord opcode opnd).getLsbD i =
    if i < 8 then opnd.getLsbD i else if i < 24 then false else opcode.getLsbD (i - 24) := by
  change BitVec.getLsbD (w := 8 + 16 + 8) (opcode ++ 0#16 ++ opnd) i = _
  rw [BitVec.getLsbD_append, BitVec.getLsbD_append]
  by_cases h8 : i < 8
  · simp [h8]
  · by_cases h24 : i < 24
    · simp [h8, h24, show i - 8 < 16 by omega]
    · simp [h8, h24, show ¬ i - 8 < 16 by omega, show i - 8 - 16 = i - 24 by omega]

theorem rsvdField_commandWord (opcode opnd : Byte) : rsvdField (commandWord opcode opnd) = 0#16 := by
  apply BitVec.eq_of_getLsbD_eq
  intro i hi
  simp [rsvdField, commandWord_getLsbD, hi]
  omega

theorem opcodeField_commandWord (opcode opnd : Byte) : opcodeField (commandWord opcode opnd) = opcode := by
  apply BitVec.eq_of_getLsbD_eq
  intro i hi
  rw [opcodeField, BitVec.getLsbD_extractLsb', commandWord_getLsbD]
  simp [hi]
  omega

theorem opndField_commandWord (opcode opnd : Byte) : opndField (commandWord opcode opnd) = opnd := by
  apply BitVec.eq_of_getLsbD_eq
  intro i hi
  rw [opndField, BitVec.getLsbD_extractLsb', commandWord_getLsbD]
  simp [hi]

/-- A word whose reserved field is 0 is its other two fields side by side. -/
theorem word_of_fields {w : Word} (h : rsvdField w = 0#16) : w = commandWord (opcodeField w) (opndField w) := by
  have hr : ∀ j, j < 16 → w.getLsbD (8 + j) = false := by
    intro j hj
    have := congrArg (fun v => BitVec.getLsbD v j) h
    simpa [rsvdField, hj] using this
  apply BitVec.eq_of_getLsbD_eq
  intro i hi
  rw [commandWord_getLsbD, opcodeField, opndField, BitVec.getLsbD_extractLsb', BitVec.getLsbD_extractLsb']
  by_cases h8 : i < 8
  · simp [h8]
  · by_cases h24 : i < 24
    · have := hr (i - 8) (by omega)
      rw [show 8 + (i - 8) = i by omega] at this
      simp [h8, h24, this]
    · simp only [h8, h24, if_false]
      rw [show 24 + (i - 24) = i by omega]
      simp
      intro
      omega

end Sys2Proof
end

