-- ==== Sys2Proof/Laws/PerInstr.lean ====
section
/-! SUPPORT. Facts of every instruction as syntax, one lemma for each constructor. Family `OpcodeMap`: the encoder's word
matches the instruction's row of 30_encoding.md R82, which is one of the map's, and its reserved field is 0. -/

namespace Sys2Proof.Laws.OpcodeMap

/-- The instruction's word matches its row, its row is in the map, and `RSVD` is 0 (30_encoding.md R80, R82). -/
def Statement (i : Instr) : Prop :=
  i.row.matchesWord (encode i) = true ∧ i.row ∈ opcodeMap ∧ rsvdField (encode i) = 0#16

theorem nop : Statement .nop := by unfold Statement; decide

theorem clear : Statement .clear := by unfold Statement; decide

theorem count (b : Byte) : Statement (.count b) := by unfold Statement; revert b; decide

theorem build : Statement .build := by unfold Statement; decide

theorem encode (b : Byte) : Statement (.encode b) := by unfold Statement; revert b; decide

theorem flush : Statement .flush := by unfold Statement; decide

end Sys2Proof.Laws.OpcodeMap
end

