-- ==== Sys2Proof/Laws/Queue.lean ====
section
/-! SUPPORT. The priority queue: what `leastOf` and `popMin` answer, and how the queue's size moves. -/

namespace Sys2Proof.Machine

@[simp] theorem popMin_nil : popMin [] = none := rfl

@[simp] theorem popMin_cons (e : Elem) (q : List Elem) :
    popMin (e :: q) = some (leastOf e q, (e :: q).erase (leastOf e q)) := rfl

@[simp] theorem push_length (q : List Elem) (e : Elem) : (push q e).length = q.length + 1 := by
  simp [push]

theorem leastOf_mem (e : Elem) (q : List Elem) : leastOf e q ∈ e :: q := by
  induction q generalizing e with
  | nil => simp [leastOf]
  | cons x q ih =>
    rw [leastOf]
    have h := ih (if x.before e then x else e)
    rcases List.mem_cons.mp h with h | h
    · rw [h]
      split <;> simp
    · exact List.mem_cons_of_mem _ (List.mem_cons_of_mem _ h)

/-- Popping removes one element. -/
theorem popMin_length {q q' : List Elem} {e : Elem} (h : popMin q = some (e, q')) : q'.length + 1 = q.length := by
  cases q with
  | nil => simp at h
  | cons x q =>
    simp only [popMin_cons, Option.some.injEq, Prod.mk.injEq] at h
    obtain ⟨rfl, rfl⟩ := h
    rw [List.length_erase_of_mem (leastOf_mem x q)]
    simp

/-- A non-empty queue can be popped. -/
theorem popMin_of_pos {q : List Elem} (h : 0 < q.length) : ∃ e q', popMin q = some (e, q') := by
  cases q with
  | nil => simp at h
  | cons x q => exact ⟨_, _, rfl⟩

end Sys2Proof.Machine
end

