-- ==== Sys2Proof/Laws/Step.lean ====
section
/-! SUPPORT. What one step can do, said once: the move of the agent whose turn it is. -/

namespace Sys2Proof.Machine

theorem step_of_host {s : State} (h : s.mover = .host) : step s = hostStep s.takeTurn := by
  simp [step, h, moveOf]

theorem step_of_block {s : State} (h : s.mover = .block) : step s = .next (blockStep s.takeTurn) := by
  simp [step, h, moveOf]

theorem step_of_rst {s : State} (h : s.mover = .rst) : step s = .next (resetHec s.takeTurn) := by
  simp [step, h, moveOf]

/-- The host's write of a command word, whichever turn brought it. -/
theorem hostStep_command {s : State} {w : Word} {rest : List HostOp} (h : s.hostProg = commandOp w :: rest) :
    hostStep s = onCmdWrite w { s with hostProg := rest } := by
  simp [hostStep, h, commandOp, memWrite_cmd]

/-- A block step completes the pending command or leaves the state alone. -/
theorem blockStep_cases (s : State) :
    (s.blockEnabled = false ∧ blockStep s = s) ∨
    ∃ p, s.pending = some p ∧ s.blockEnabled = true ∧ blockStep s = complete p s := by
  cases hp : s.pending with
  | none => exact .inl ⟨by simp [State.blockEnabled, hp], by simp [blockStep, blockStepAt, hp]⟩
  | some p =>
    cases hr : readyAt Config.outDepth p s
    · exact .inl ⟨by simp [State.blockEnabled, hp, hr], by simp [blockStep, blockStepAt, hp, hr]⟩
    · exact .inr ⟨p, rfl, by simp [State.blockEnabled, hp, hr], by simp [blockStep, blockStepAt, hp, hr]⟩

/-- Everything a step can answer: one move of one agent. -/
theorem step_cases (s : State) :
    (s.mover = .host ∧ step s = hostStep s.takeTurn) ∨
    (s.mover = .block ∧ step s = .next (blockStep s.takeTurn)) ∨
    (s.mover = .rst ∧ step s = .next (resetHec s.takeTurn)) := by
  cases h : s.mover
  · exact .inl ⟨rfl, step_of_host h⟩
  · exact .inr (.inl ⟨rfl, step_of_block h⟩)
  · exact .inr (.inr ⟨rfl, step_of_rst h⟩)

end Sys2Proof.Machine
end

