-- ==== Sys2Proof/Machine/Assembler.lean ====
section
/-! DEFINITION. The text form of a host program's lines (30_encoding.md R86, R87), read into `HostLine`. A text is a list
of characters; a line that is no line of R86 or R87 is refused by `none`. Log 20. -/

namespace Sys2Proof.Machine

/-- A piece of a line. -/
inductive Token where
  /-- A mnemonic, a register name, a number, a name or `->`. -/
  | word (cs : List Char)
  /-- A character literal in single quotes: its ASCII value (30_encoding.md R86). -/
  | charLit (c : Char)
  /-- A string literal in double quotes: its ASCII bytes (30_encoding.md R87). -/
  | strLit (cs : List Char)
  deriving DecidableEq, Repr

/-- Where in a line the reader stands, with the characters of the piece begun. -/
inductive LexMode where
  | gap
  | inWord (cs : List Char)
  | inChar (cs : List Char)
  | inString (cs : List Char)
  | inComment
  deriving DecidableEq, Repr

/-- The single quote. -/
def quoteChar : Char := Char.ofNat 39

/-- The double quote. -/
def dquoteChar : Char := Char.ofNat 34

/-- What a character begins when no piece is open: blanks and commas stand between pieces, `;` starts a comment that
"runs to the end of the line" (30_encoding.md R86). -/
def lexBegin (c : Char) : LexMode :=
  if c = ' ' ∨ c = ',' ∨ c = Char.ofNat 9 then .gap
  else if c = ';' then .inComment
  else if c = quoteChar then .inChar []
  else if c = dquoteChar then .inString []
  else .inWord [c]

/-- The character ends a word. -/
def endsWord (c : Char) : Bool := c == ' ' || c == ',' || c == Char.ofNat 9 || c == ';'

/-- One character of a line. -/
def lexStep (st : List Token × LexMode) (c : Char) : List Token × LexMode :=
  match st.2 with
  | .gap => (st.1, lexBegin c)
  | .inWord cs => if endsWord c then (st.1 ++ [.word cs], lexBegin c) else (st.1, .inWord (cs ++ [c]))
  | .inChar [] => (st.1, .inChar [c])
  | .inChar (d :: ds) =>
    if c = quoteChar ∧ ds = [] then (st.1 ++ [.charLit d], .gap) else (st.1, .inChar (d :: ds ++ [c]))
  | .inString cs => if c = dquoteChar then (st.1 ++ [.strLit cs], .gap) else (st.1, .inString (cs ++ [c]))
  | .inComment => st

/-- The pieces of a line; none where a literal is not closed. -/
def lexLine (line : List Char) : Option (List Token) :=
  match line.foldl lexStep ([], .gap) with
  | (ts, .gap) => some ts
  | (ts, .inComment) => some ts
  | (ts, .inWord cs) => some (ts ++ [.word cs])
  | (_, .inChar _) => none
  | (_, .inString _) => none

/-- The value of a digit in a base. -/
def digitValue (base : Nat) (c : Char) : Option Nat :=
  let n := c.toNat
  let v := if 48 ≤ n ∧ n ≤ 57 then n - 48 else if 65 ≤ n ∧ n ≤ 70 then n - 55 else if 97 ≤ n ∧ n ≤ 102 then n - 87 else 99
  if v < base then some v else none

/-- The value of digits in a base; `_` between digits only groups them. -/
def digitsValue (base : Nat) : List Char → Nat → Option Nat
  | [], acc => some acc
  | c :: cs, acc =>
    if c = '_' then digitsValue base cs acc
    else match digitValue base c with
      | none => none
      | some v => digitsValue base cs (base * acc + v)

/-- A number in decimal (`65`) or hexadecimal (`0x41`) (30_encoding.md R86). -/
def numberValue : List Char → Option Nat
  | [] => none
  | '0' :: 'x' :: c :: cs => (digitValue 16 c).bind (digitsValue 16 cs)
  | c :: cs => (digitValue 10 c).bind (digitsValue 10 cs)

/-- A number that fits in `w` bits. -/
def fitsIn (w n : Nat) : Option (BitVec w) := if n < 2 ^ w then some (BitVec.ofNat w n) else none

/-- The ASCII value of a character (30_encoding.md R86). -/
def asciiByte (c : Char) : Option Byte := if c.toNat < 128 then some (BitVec.ofNat 8 c.toNat) else none

/-- A byte operand: decimal, hexadecimal, or a character literal (30_encoding.md R86). -/
def byteOperand : Token → Option Byte
  | .word cs => (numberValue cs).bind (fitsIn 8)
  | .charLit c => asciiByte c
  | .strLit _ => none

/-- A 32-bit value of `WR` or `CMDW`. 30_encoding.md R86 gives forms only for the operand of `COUNT` and `ENCODE`; that a
value is written in those forms too (decimal, hexadecimal, a character literal) is the model's choice, DESIGN CHOICE
(log 20). -/
def wordOperand : Token → Option Word
  | .word cs => (numberValue cs).bind (fitsIn 32)
  | .charLit c => (asciiByte c).map (BitVec.setWidth 32)
  | .strLit _ => none

/-- The bytes of an operand list: "A string literal stands for its ASCII bytes" (30_encoding.md R87). -/
def byteOperands : List Token → Option (List Byte)
  | [] => some []
  | .strLit cs :: ts => do
    let xs ← cs.mapM asciiByte
    let ys ← byteOperands ts
    pure (xs ++ ys)
  | t :: ts => do
    let x ← byteOperand t
    let ys ← byteOperands ts
    pure (x :: ys)

/-- The name of a register, as 20_memory.md R63 writes it. -/
def Reg.name : Reg → List Char
  | .id => ['I', 'D']
  | .status => ['S', 'T', 'A', 'T', 'U', 'S']
  | .cmd => ['C', 'M', 'D']
  | .outData => ['O', 'U', 'T', '_', 'D', 'A', 'T', 'A']
  | .intStatus => ['I', 'N', 'T', '_', 'S', 'T', 'A', 'T', 'U', 'S']
  | .intEn => ['I', 'N', 'T', '_', 'E', 'N']
  | .errCmd => ['E', 'R', 'R', 'C', 'M', 'D']
  | .nsym => ['N', 'S', 'Y', 'M']
  | .len => ['L', 'E', 'N']
  | .root => ['R', 'O', 'O', 'T']
  | .bitcntLo => ['B', 'I', 'T', 'C', 'N', 'T', '_', 'L', 'O']
  | .bitcntHi => ['B', 'I', 'T', 'C', 'N', 'T', '_', 'H', 'I']
  | .outcnt => ['O', 'U', 'T', 'C', 'N', 'T']
  | .pack => ['P', 'A', 'C', 'K']
  | .param => ['P', 'A', 'R', 'A', 'M']
  | .sel => ['S', 'E', 'L']
  | .freqRd => ['F', 'R', 'E', 'Q', '_', 'R', 'D']
  | .codeLenRd => ['C', 'O', 'D', 'E', '_', 'L', 'E', 'N', '_', 'R', 'D']
  | .nodeRd => ['N', 'O', 'D', 'E', '_', 'R', 'D']
  | .nodeWeightRd => ['N', 'O', 'D', 'E', '_', 'W', 'E', 'I', 'G', 'H', 'T', '_', 'R', 'D']
  | .codeValRd k => ['C', 'O', 'D', 'E', '_', 'V', 'A', 'L', '_', 'R', 'D', Char.ofNat (48 + k.val)]

/-- The register a token names. -/
def regOperand : Token → Option Reg
  | .word cs => allRegs.find? fun r => r.name == cs
  | .charLit _ => none
  | .strLit _ => none

/-- A line from its pieces (30_encoding.md R86, R87). Mnemonics are upper-case. -/
def lineOf : List Token → Option HostLine
  | [] => some .comment
  | [.word ['N', 'O', 'P']] => some (.command .nop)
  | [.word ['C', 'L', 'E', 'A', 'R']] => some (.command .clear)
  | [.word ['C', 'O', 'U', 'N', 'T'], t] => (byteOperand t).map fun b => .command (.count b)
  | [.word ['B', 'U', 'I', 'L', 'D']] => some (.command .build)
  | [.word ['E', 'N', 'C', 'O', 'D', 'E'], t] => (byteOperand t).map fun b => .command (.encode b)
  | [.word ['F', 'L', 'U', 'S', 'H']] => some (.command .flush)
  | [.word ['C', 'M', 'D', 'W'], t] => (wordOperand t).map .cmdw
  | [.word ['W', 'R'], r, v] => do
    let reg ← regOperand r
    let value ← wordOperand v
    pure (.wr reg value)
  | [.word ['R', 'D'], r] => (regOperand r).map fun reg => .rd reg ""
  | [.word ['R', 'D'], r, .word ['-', '>'], .word name] => (regOperand r).map fun reg => .rd reg (String.ofList name)
  | [.word ['D', 'R', 'A', 'I', 'N']] => some .drain
  | [.word ['W', 'A', 'I', 'T']] => some .wait
  | .word ['C', 'O', 'U', 'N', 'T', 'S'] :: ts => (byteOperands ts).map .counts
  | .word ['E', 'N', 'C', 'O', 'D', 'E', 'S'] :: ts => (byteOperands ts).map .encodes
  | .word ['C', 'O', 'M', 'P', 'R', 'E', 'S', 'S'] :: ts => (byteOperands ts).map .compress
  | _ => none

/-- A line of text (30_encoding.md R86). -/
def parseLine (line : List Char) : Option HostLine := (lexLine line).bind lineOf

end Sys2Proof.Machine
end

