-- ==== Sys2Proof/Tests/Slice0.lean ====
section
/-! SUPPORT. Tests of the model, and for each statement with hypotheses a concrete state that meets them. Expected values
come from spec/95_test_vectors.md and from the worked examples of the rules named, not from the model. -/

namespace Sys2Proof.Tests
open Sys2Proof Sys2Proof.Machine

/-! ## Well-formedness: an ill-formed term for each check -/

theorem smoke_word_unknown_opcode : wordWellFormed 0x06000000#32 = false := by decide
theorem smoke_word_reserved_field : wordWellFormed 0x02010041#32 = false := by decide
theorem smoke_word_operand_not_zero : wordWellFormed 0x01000001#32 = false := by decide
theorem smoke_access_width : accessWellFormed 0x004 2 = false := by decide
theorem smoke_access_alignment : accessWellFormed 0x006 4 = false := by decide
theorem smoke_access_window : accessWellFormed 0x1000 4 = false := by decide
theorem smoke_access_good : accessWellFormed 0xFFC 4 = true := by decide
theorem smoke_operand_range (b : Byte) : Instr.wellFormed (.count b) = true := by revert b; decide

/-! ## Decoding: words written out bit by bit from 30_encoding.md R82 -/

theorem decode_nop : decode 0b00000000000000000000000000000000#32 = .ok .nop := by decide
theorem decode_clear : decode 0b00000001000000000000000000000000#32 = .ok .clear := by decide
theorem decode_count : decode 0b00000010000000000000000001000001#32 = .ok (.count 0x41#8) := by decide
theorem decode_build : decode 0b00000011000000000000000000000000#32 = .ok .build := by decide
theorem decode_encode : decode 0b00000100000000000000000011111110#32 = .ok (.encode 0xFE#8) := by decide
theorem decode_flush : decode 0b00000101000000000000000000000000#32 = .ok .flush := by decide
theorem decode_table_word : decodeTableWord 32 0x020000FF = some (.count 0xFF#8) := by decide

/-! ## Single steps -/

/-- What an outcome's next state satisfies. -/
def nextSatisfies (o : Out) (p : State → Bool) : Bool :=
  match o with
  | .next t => p t
  | .fault _ => false
  | .refused _ => false

/-- HEC after `COUNT 'A'` from reset. -/
def oneCounted : State := countByte 0x41#8 State.reset

/-- A frequency table with three byte values: A 3, B 2, C 1 (95_test_vectors.md TB-1). -/
def freqABC : Vector Word 256 :=
  (((Vector.replicate 256 0#32).set 0x41 3#32).set 0x42 2#32).set 0x43 1#32

/-- The tree of TB-1 (95_test_vectors.md). -/
def treeABC : Tree :=
  ⟨[.leaf 0x41#8 3#32, .leaf 0x42#8 2#32, .leaf 0x43#8 1#32, .internal 2#9 1#9 3#32, .internal 0#9 3#9 6#32], some 4#9⟩

/-- A frequency table with one byte value: five times 'x' (95_test_vectors.md TB-7). -/
def freqX : Vector Word 256 := (Vector.replicate 256 0#32).set 0x78 5#32

/-- The code table of TB-1: A `0`, B `11`, C `10`. -/
def codesABC : Vector Bits 256 :=
  setCode 0x43#8 [true, false] (setCode 0x42#8 [true, true] (setCode 0x41#8 [false] emptyCodes))

/-- HEC in CODED with the codes of TB-1. -/
def codedABC : State := { State.reset with phase := .coded, code := codesABC }

/-- HEC in FAULT after `FLUSH` at reset, with a byte still in `OUTQ`. -/
def faulted : State := { raiseFault .sequence 0x05000000#32 State.reset with outq := [0x1F#8] }

/-- 95_test_vectors.md 2.1: `COUNT 'A'` from reset. -/
theorem test_count_from_reset : nextSatisfies (exec (.count 0x41#8) State.reset) (fun t =>
    t.freqAt 0x41#8 == 1#32 && t.len == 1#32 && t.nsym == 1#9 && t.statusWord == 0#32) = true := by decide +kernel

/-- 95_test_vectors.md 2.1: `COUNT` at `LEN` = 0xFFFFFFFF. -/
theorem test_count_overflow : nextSatisfies (exec (.count 0x41#8) { State.reset with len := 0xFFFFFFFF#32 }) (fun t =>
    t.statusWord == 0x0000050E#32 && t.errCmd == 0x02000041#32 && t.freqAt 0x41#8 == 0#32) = true := by decide +kernel

/-- 95_test_vectors.md 2.5: `NOP` while `BUILD` is pending. -/
theorem test_nop_overrun : nextSatisfies (exec .nop { State.reset with pending := some .build }) (fun t =>
    t.statusWord == 0x0000030E#32 && t.errCmd == 0#32) = true := by decide +kernel

/-- 95_test_vectors.md 2.5: `CLEAR` while `BUILD` is pending, after `COUNT 'A'`. -/
theorem test_clear_while_busy : nextSatisfies (exec .clear { oneCounted with pending := some .build, intEn := 1#3 })
    (fun t => t.statusWord == 0#32 && t.len == 0#32 && t.intEn == 1#3) = true := by decide +kernel

/-- 95_test_vectors.md 2.5: `BUILD` accepted. -/
theorem test_build_accepted : nextSatisfies (exec .build oneCounted) (fun t => t.statusWord == 1#32) = true := by
  decide +kernel

/-- 95_test_vectors.md TB-1: the tree. -/
theorem test_build_tree : buildTree freqABC = some treeABC := by decide +kernel

/-- 95_test_vectors.md TB-1: the codes. -/
theorem test_codes : genCodes treeABC = codesABC := by decide +kernel

/-- 95_test_vectors.md 2.3: `ENCODE 'C'` with `ACC` = `0001111`. -/
theorem test_encode_completes :
    let t := completeEncode 0x43#8 { codedABC with
      acc := [false, false, false, true, true, true, true], bitcnt := 7#64, pending := some (.encode 0x43#8) }
    t.outq = [0x1F#8] ∧ t.packWord = 0x0001#32 ∧ t.bitcnt = 9#64 ∧ t.outcnt = 1#32 ∧ t.statusWord = 0x00010004#32 := by
  decide +kernel

/-- 95_test_vectors.md 2.3: `ENCODE 'D'`, which has no code. -/
theorem test_encode_missing_code : nextSatisfies (exec (.encode 0x44#8) codedABC) (fun t =>
    t.statusWord == 0x0000040E#32 && t.errCmd == 0x04000044#32 && t.intStatus == 1#3) = true := by decide +kernel

/-- 95_test_vectors.md 2.3: `FLUSH` with `ACC` = `0`. -/
theorem test_flush_completes :
    let t := completeFlush { codedABC with acc := [false], outq := [0x1F#8], outcnt := 1#32, pending := some .flush }
    t.outq = [0x1F#8, 0x00#8] ∧ t.packWord = 0#32 ∧ t.outcnt = 2#32 ∧ t.statusWord = 0x00020008#32 := by decide +kernel

/-- 95_test_vectors.md 2.3: `FLUSH` in COUNT. -/
theorem test_flush_sequence : nextSatisfies (exec .flush State.reset) (fun t => t.statusWord == 0x0000020E#32) = true := by
  decide +kernel

/-- 95_test_vectors.md 2.4 with OUT_DEPTH = 32: a full FIFO holds an `ENCODE` that needs a byte, and one read frees it. -/
theorem test_hold : encodeReadyAt 32 0x41#8 { codedABC with outq := List.replicate 32 0#8, acc := List.replicate 7 true }
    = false ∧ encodeReadyAt 32 0x41#8 { codedABC with outq := List.replicate 31 0#8, acc := List.replicate 7 true } = true := by
  decide +kernel

/-- 95_test_vectors.md TB-1: the node readbacks. -/
theorem test_node_readback : nodeWord treeABC.nodes[3]? = 0xC0020200#32 ∧ nodeWord treeABC.nodes[0]? = 0x80000041#32 := by
  decide +kernel

/-- 30_encoding.md R86: a command line in text form. -/
theorem test_parse_count : parseLine ['C', 'O', 'U', 'N', 'T', ' ', quoteChar, 'A', quoteChar, ' ', ';', 'x'] =
    some (.command (.count 0x41#8)) := by decide

/-- 30_encoding.md R86: a register write in text form. -/
theorem test_parse_write : parseLine ['W', 'R', ' ', 'S', 'E', 'L', ',', ' ', '0', 'x', '7', '8'] =
    some (.wr .sel 0x78#32) := by decide

/-! ## Witnesses: for each statement with hypotheses, a state and operands that meet them -/

/-- The next step of a state writes the word to `CMD`. -/
def writing (w : Word) (s : State) : State := { s with turns := [.host], hostProg := [commandOp w] }

/-- The next step of a state is the block's. -/
def completing (p : Pending) (s : State) : State := { s with turns := [.block], pending := some p }

theorem witness_IllFormedWordIsIllegalCommand :
    wordWellFormed 0x06000000#32 = false ∧ faulted.phase = .fault ∧
    (completing .build State.reset).phase ≠ .fault ∧ (completing .build State.reset).pending ≠ none ∧
    State.reset.phase ≠ .fault ∧ State.reset.pending = none := by decide

/-- The next step of a state is the host's access `op`. -/
def accessing (op : HostOp) (s : State) : State := { s with turns := [.host], hostProg := [op] }

theorem witness_StepRunsDecodedCommand :
    (writing 0x02000041#32 State.reset).mover = .host ∧
    (writing 0x02000041#32 State.reset).hostProg = [.memWrite 0x008 4 0x02000041#32] ∧
    decode 0x02000041#32 = .ok (.count 0x41#8) ∧
    (writing 0x06000000#32 State.reset).mover = .host ∧
    (writing 0x06000000#32 State.reset).hostProg = [.memWrite 0x008 4 0x06000000#32] ∧
    decode 0x06000000#32 = .error .unknownOpcode ∧
    decodeTableWord 32 0x05000000 = some .flush := by decide

/-- A register write, a read that answers, one outside the window and one the bus cannot express. -/
theorem witness_StepRunsDecodedCommand_accesses :
    (∀ op, (accessing op State.reset).mover = .host ∧ (accessing op State.reset).hostProg = [op]) ∧
    (∀ s, memRead 0x000 4 s = .next (0x48454331#32, s)) ∧
    (∀ s, memRead 0x1000 4 s = .fault (.outsideWindow 0x1000)) ∧
    (∀ s, memRead 0x002 4 s = .refused (.unsupportedAccess 0x002 4)) ∧
    (∀ s, memWrite 0x040 4 0x1FF#32 s = .next { s with sel := 0x1FF#9 }) :=
  ⟨fun _ => ⟨rfl, rfl⟩,
    fun s => (memRead_reg .id s).trans (by simp [readReg, Reg.openInFault, State.view, Config.idValue]),
    fun _ => rfl, fun _ => rfl, memWrite_reg .sel 0x1FF#32⟩

theorem witness_LegalPhasesDecideSequenceFault :
    Instr.nop ≠ .clear ∧ faulted.phase = .fault ∧
    State.reset.phase ≠ .fault ∧ State.reset.pending = none ∧
    State.reset.phase ∉ [Phase.coded] ∧ State.reset.phase ∈ [Phase.count] := by decide

theorem witness_NopChangesNothing : State.reset.phase ≠ .fault ∧ State.reset.pending = none := by decide

theorem witness_ClearReturnsToStart : opcodeField 0x01000001#32 = 0x01#8 ∧ 0x01000001#32 ≠ 0x01000000#32 := by decide

theorem witness_CountCountsOneByte :
    State.reset.phase = .count ∧ State.reset.pending = none ∧
    ({ State.reset with len := 0xFFFFFFFE#32 } : State).len ≠ 0xFFFFFFFF#32 := by decide

theorem sequenced_oneCounted : oneCounted.Sequenced where
  totals := fun _ => by decide +kernel
  counting := fun _ => ⟨rfl, rfl, fun b => by simp [oneCounted, State.codeLen, State.codeAt, codeOf, State.reset], rfl,
    rfl, rfl, rfl⟩
  builtEmpty := fun h => by simp [oneCounted, State.reset] at h
  builtTree := fun h => by simp [oneCounted, State.reset] at h
  builtCodes := fun h => by simp [oneCounted, State.reset] at h
  finished := fun h => by simp [oneCounted, State.reset] at h
  pendingBuild := fun h => by simp [oneCounted, State.reset] at h
  pendingPack := fun p h => by simp [oneCounted, State.reset] at h

theorem sequenced_faulted : faulted.Sequenced where
  totals := fun h => absurd rfl h
  counting := fun h => by simp [faulted] at h
  builtEmpty := fun h => by simp [faulted] at h
  builtTree := fun h => by simp [faulted] at h
  builtCodes := fun h => by simp [faulted] at h
  finished := fun h => by simp [faulted] at h
  pendingBuild := fun h => by simp [faulted] at h
  pendingPack := fun p h => by simp [faulted] at h

theorem witness_CountNeverWraps : oneCounted.Sequenced ∧ oneCounted.phase = .count ∧ oneCounted.pending = none ∧
    oneCounted.len ≠ 0xFFFFFFFF#32 ∧ exec (.count 0x41#8) oneCounted = .next (countByte 0x41#8 oneCounted) :=
  ⟨sequenced_oneCounted, by decide +kernel, by decide +kernel, by decide +kernel, by
    simp [exec, execCount, accept, oneCounted, State.reset, legal, countOwn, lenMax]⟩

theorem witness_BuildIsAcceptedThenCompletes : oneCounted.phase = .count ∧ oneCounted.pending = none := by decide

/-- CODED with codes, and at least `OUT_DEPTH` bytes in `OUTQ` whatever it is. -/
def codedFull : State := { codedABC with outq := List.replicate 255 0#8, acc := List.replicate 7 true }

theorem witness_EncodeIsAcceptedThenCompletes :
    codedABC.phase = .coded ∧ codedABC.pending = none ∧ codedABC.codeLen 0x41#8 ≠ 0 ∧
    codedABC.outq.length + (codedABC.acc ++ codedABC.codeAt 0x41#8).length / 8 ≤ Config.outDepth ∧
    codedFull.phase = .coded ∧ codedFull.pending = none ∧ codedFull.codeLen 0x41#8 ≠ 0 ∧
    Config.outDepth < codedFull.outq.length + (codedFull.acc ++ codedFull.codeAt 0x41#8).length / 8 := by
  have hd := outDepth_bounds
  have h1 : codedABC.outq.length + (codedABC.acc ++ codedABC.codeAt 0x41#8).length / 8 = 0 := by decide +kernel
  have h2 : codedFull.outq.length + (codedFull.acc ++ codedFull.codeAt 0x41#8).length / 8 = 256 := by decide +kernel
  refine ⟨by decide, by decide, by decide +kernel, by omega, by decide, by decide, by decide +kernel, by omega⟩

theorem witness_FlushIsAcceptedThenCompletes :
    codedABC.phase = .coded ∧ codedABC.pending = none ∧ codedABC.acc = [] ∧
    ({ codedABC with acc := [true] } : State).acc ≠ [] ∧ codedABC.outq.length < Config.outDepth ∧
    codedFull.acc ≠ [] ∧ Config.outDepth ≤ codedFull.outq.length := by
  have hd := outDepth_bounds
  have h1 : codedABC.outq.length = 0 := by decide
  have h2 : codedFull.outq.length = 255 := by decide +kernel
  refine ⟨by decide, by decide, by decide, by simp, by omega, by decide, by omega⟩

theorem witness_CommandsLeaveTheRestUnchanged :
    Instr.nop ≠ .clear ∧ exec .nop State.reset = .next State.reset ∧
    exec .flush State.reset = .next (raiseFault .sequence (encode .flush) State.reset) ∧
    exec (.count 0x41#8) State.reset = .next oneCounted := by
  refine ⟨by decide, rfl, rfl, ?_⟩
  simp [exec, execCount, accept, State.reset, legal, countOwn, lenMax, oneCounted]

theorem witness_CommandChecksFault :
    codedABC.phase = .coded ∧ codedABC.pending = none ∧ codedABC.codeLen 0x44#8 = 0 ∧
    (∀ b, (completing .build State.reset).freqAt b = 0#32) ∧ (completing .build State.reset).phase = .count ∧
    (completing .build State.reset).pending = some .build ∧
    ({ State.reset with len := 0xFFFFFFFF#32 } : State).len = 0xFFFFFFFF#32 ∧ State.reset.phase = .count := by
  refine ⟨by decide, by decide, by decide +kernel, ?_, by decide, by decide, rfl, by decide⟩
  intro b
  simp [completing, State.freqAt, freqOf, State.reset]

theorem witness_CommandWhilePendingOverruns :
    (completing .build State.reset).phase ≠ .fault ∧ (completing .build State.reset).pending ≠ none ∧
    0x00000000#32 ≠ 0x01000000#32 := by decide

theorem witness_FaultEntryIsPrecise :
    onCmdWrite 0x06000000#32 State.reset = .next (raiseFault .illegalCmd 0x06000000#32 State.reset) ∧
    State.reset.phase ≠ .fault ∧ (raiseFault .illegalCmd 0x06000000#32 State.reset).phase = .fault :=
  ⟨rfl, by decide, rfl⟩

theorem witness_FaultPhaseIgnoresCommands :
    faulted.phase = .fault ∧ faulted.pending = none ∧ faulted.outq.length ≤ 255 ∧ 0#32 ≠ 0x01000000#32 ∧
    Reg.status.openInFault = false ∧ faulted.outq = 0x1F#8 :: [] := by decide

theorem step_writing (w : Word) (s : State) (t : State)
    (h : onCmdWrite w { s with turns := [], hostProg := [] } = .next t) : step (writing w s) = .next t := by
  rw [step_of_host rfl, hostStep_command (w := w) (rest := []) rfl]
  exact h

/-- A `SEQUENCE` fault changes the phase. -/
theorem witness_PhaseTransitions :
    (writing 0x05000000#32 oneCounted).Sequenced ∧
    step (writing 0x05000000#32 oneCounted) =
      .next (raiseFault .sequence 0x05000000#32 { oneCounted with turns := [], hostProg := [] }) ∧
    (raiseFault .sequence 0x05000000#32 { oneCounted with turns := [], hostProg := [] }).phase ≠
      (writing 0x05000000#32 oneCounted).phase := by
  have h := sequenced_oneCounted
  exact ⟨⟨h.totals, h.counting, h.builtEmpty, h.builtTree, h.builtCodes, h.finished, h.pendingBuild, h.pendingPack⟩,
    step_writing _ _ _ rfl, by decide⟩

theorem sequenced_writing {s : State} (w : Word) (h : s.Sequenced) : (writing w s).Sequenced :=
  ⟨h.totals, h.counting, h.builtEmpty, h.builtTree, h.builtCodes, h.finished, h.pendingBuild, h.pendingPack⟩

theorem witness_FaultIsLeftOnlyByClearOrReset :
    (writing 0x01000000#32 faulted).Sequenced ∧ (writing 0x01000000#32 faulted).phase = .fault ∧
    (∃ t, step (writing 0x01000000#32 faulted) = .next t) ∧ (writing 0x01000000#32 faulted).clearsNow = true ∧
    (writing 0x00000000#32 faulted).Sequenced ∧ (∃ t, step (writing 0x00000000#32 faulted) = .next t) ∧
    (writing 0x00000000#32 faulted).clearsNow = false :=
  ⟨sequenced_writing _ sequenced_faulted, rfl, ⟨_, step_writing _ _ _ rfl⟩, by decide,
    sequenced_writing _ sequenced_faulted, ⟨_, step_writing _ _ _ rfl⟩, by decide⟩

theorem witness_KeyOrderIsStrictTotal :
    Elem.before ⟨1#32, 2#9⟩ ⟨2#32, 0#9⟩ = true ∧ Elem.before ⟨2#32, 0#9⟩ ⟨2#32, 1#9⟩ = true ∧
    (⟨2#32, 0#9⟩ : Elem).id ≠ (⟨2#32, 1#9⟩ : Elem).id := by decide

/-- Queue order of 95_test_vectors.md WE-1: C (1, 2) before B (2, 1) before A (3, 0). -/
theorem witness_PopMinTakesTheLeast :
    popMin [⟨3#32, 0#9⟩, ⟨2#32, 1#9⟩, ⟨1#32, 2#9⟩] = some (⟨1#32, 2#9⟩, [⟨3#32, 0#9⟩, ⟨2#32, 1#9⟩]) := by decide

/-- A tree of three byte values meets the hypotheses of the statements about built trees. -/
theorem witness_BuiltTreeShape : buildTree freqABC = some treeABC ∧ 1 ≤ distinctBytes freqABC ∧
    2 ≤ distinctBytes freqABC := by decide +kernel

theorem witness_MergesTakeTheTwoLeast : buildTree freqABC = some treeABC ∧
    treeABC.nodes[3]? = some (.internal 2#9 1#9 3#32) ∧ treeABC.nodes[4]? = some (.internal 0#9 3#9 6#32) ∧
    treeABC.elemAt 0 = some ⟨3#32, 0#9⟩ ∧ treeABC.elemAt 3 = some ⟨3#32, 3#9⟩ := by decide +kernel

/-- While node 3 of TB-1 is made, the third leaf is in the queue beside its two children. -/
theorem witness_MergesTakeTheTwoLeast_free : treeABC.freeBelow 3 0 := by
  refine ⟨by decide, ?_⟩
  rintro i hi ⟨l, r, w, hn, -⟩
  obtain rfl | rfl | rfl : i = 0 ∨ i = 1 ∨ i = 2 := by omega
  all_goals simp [treeABC] at hn

theorem witness_LeavesComeFirstInByteOrder : buildTree freqABC = some treeABC := by decide +kernel

theorem witness_BuildNeverFindsEmptyQueue :
    buildTree (Vector.replicate 256 0#32) = some ⟨[], none⟩ ∧
    buildTree freqX = some ⟨[.leaf 0x78#8 5#32], some 0#9⟩ := by decide +kernel

theorem witness_WeightsNeverOverflow : freqTotal freqABC < 2 ^ 32 ∧ buildTree freqABC = some treeABC ∧
    treeABC.nodes[4]? = some (.internal 0#9 3#9 6#32) ∧ treeABC.root = some 4#9 := by decide +kernel

theorem witness_CodesAreTreePaths : buildTree freqABC = some treeABC ∧ freqOf freqABC 0x42#8 ≠ 0#32 ∧
    2 ≤ distinctBytes freqABC ∧ buildTree freqX = some ⟨[.leaf 0x78#8 5#32], some 0#9⟩ ∧
    freqOf freqX 0x78#8 ≠ 0#32 ∧ distinctBytes freqX = 1 := by decide +kernel

theorem witness_CodesExistForCountedBytesAndFit : buildTree freqX = some ⟨[.leaf 0x78#8 5#32], some 0#9⟩ := by
  decide +kernel

theorem witness_CodesArePrefixFree : buildTree freqABC = some treeABC ∧ (0x41#8 : Byte) ≠ 0x43#8 ∧
    freqOf freqABC 0x41#8 ≠ 0#32 ∧ freqOf freqABC 0x43#8 ≠ 0#32 := by decide +kernel

theorem witness_CodesAreComplete : buildTree freqABC = some treeABC ∧ 2 ≤ distinctBytes freqABC := by decide +kernel

theorem witness_PackPutsFirstBitHighest : ([true, false, false, false, false, false, false, true] : Bits).length ≤ 8 := by
  decide

theorem witness_StreamBitsLandMsbFirst :
    (15 : Nat) < 8 * ((([false, false, false, true, true, true, true, true, false] : Bits).length + 7) / 8) := by decide

theorem witness_CodeValueReadsLeftToRight :
    let s := { codedABC with code := setCode 0x00#8 (List.replicate 255 true) emptyCodes }
    s.phase ≠ .fault ∧ s.codeLen s.selByte ≤ 255 := by decide +kernel

theorem witness_StatusFields : codedFull.outq.length ≤ 255 := by decide +kernel

theorem witness_PackRegisterFields : codedFull.acc.length ≤ 7 := by decide

theorem witness_TableReadbacks :
    let s := { codedABC with nodes := treeABC.nodes, root := some 4#9, sel := 4#9 }
    s.phase ≠ .fault ∧ s.codeLen (s.sel.extractLsb' 0 8) ≤ 255 ∧
    ({ s with code := setCode 0x04#8 (List.replicate 255 true) emptyCodes } : State).codeLen
      (s.sel.extractLsb' 0 8) = 255 ∧
    s.nodes[({ s with sel := 0#9 } : State).sel.toNat]? = some (.leaf 0x41#8 3#32) ∧
    s.nodes[s.sel.toNat]? = some (.internal 0#9 3#9 6#32) ∧
    s.nnodes ≤ ({ s with sel := 5#9 } : State).sel.toNat ∧ s.root = some 4#9 ∧ s.phase = .coded ∧
    State.reset.phase ≠ .fault ∧ State.reset.root = none ∧ State.reset.phase = .count := by decide +kernel

theorem witness_ReservedAndReadOnlyAreInert :
    (0x03C : Nat) % 4 = 0 ∧ (0x05C : Nat) % 4 = 0 ∧ (0x054 : Nat) ≤ 0x05C ∧ (0xFFC : Nat) % 4 = 0 ∧ (0x080 : Nat) ≤ 0xFFC ∧
    Reg.codeValRd 7 ≠ .cmd ∧ Reg.codeValRd 7 ≠ .intStatus ∧ Reg.codeValRd 7 ≠ .intEn ∧ Reg.codeValRd 7 ≠ .sel := by
  decide

theorem witness_InexpressibleAccessesStop :
    ((2 : Nat) ≠ 4 ∨ (0x004 : Nat) % 4 ≠ 0) ∧ ((4 : Nat) ≠ 4 ∨ (0x006 : Nat) % 4 ≠ 0) ∧ (0x1000 : Nat) % 4 = 0 ∧
    (0x1000 : Nat) ≤ 0x1000 := by decide

theorem witness_ReadsChangeOnlyTheOutputQueue :
    memRead Reg.outData.offset 4 faulted = .next (0x11F#32, { faulted with outq := [] }) ∧
    memRead Reg.status.offset 4 faulted = .next (faulted.statusWord, faulted) ∧ Reg.status ≠ .outData ∧
    ¬(faulted.phase = .fault ∧ Reg.status.openInFault = true) := by
  refine ⟨?_, ?_, by decide, by decide⟩
  · rw [memRead_reg]
    simp [readReg, readOutData, fifoPop, faulted]
  · rw [memRead_reg]
    simp [readReg, State.view, Reg.openInFault]

theorem witness_OutDataReadPops : faulted.outq = 0x1F#8 :: [] ∧ State.reset.outq = [] := by decide

theorem witness_UnspecifiedReadsAreFreeDraws :
    faulted.phase = .fault ∧ Reg.codeValRd 7 ∈ [.root, .nodeRd, .nodeWeightRd, .codeLenRd, .codeValRd 0, .codeValRd 1,
      .codeValRd 2, .codeValRd 3, .codeValRd 4, .codeValRd 5, .codeValRd 6, .codeValRd 7] ∧
    Reg.freqRd ∉ [.outData, .root, .nodeRd, .nodeWeightRd, .codeLenRd, .codeValRd 0, .codeValRd 1, .codeValRd 2,
      .codeValRd 3, .codeValRd 4, .codeValRd 5, .codeValRd 6, .codeValRd 7] := by decide

theorem witness_IrqIsMaskedLevel :
    memWrite 0x014 4 0x7#32 faulted = .next { faulted with intEn := 0x7#3 } := memWrite_reg .intEn 0x7#32 faulted

/-- A state whose `INT_STATUS` has `ERR_I` set and whose next step writes 1 to it. -/
def acknowledging : State := { faulted with turns := [.host], hostProg := [.memWrite 0x010 4 1#32] }

/-- CODED with nothing counted, as after an empty `BUILD`. -/
def codedEmpty : State := { State.reset with phase := .coded }

theorem sequenced_codedEmpty (p : Option Pending) (hp : p ≠ some .build) (turns : List Turn) :
    State.Sequenced { codedEmpty with pending := p, turns := turns } where
  totals := fun _ => by
    change freqTotal State.reset.freq = State.reset.len.toNat ∧
      State.reset.nsym.toNat = distinctBytes State.reset.freq
    decide +kernel
  counting := fun h => by simp [codedEmpty] at h
  builtEmpty := fun _ _ => ⟨rfl, rfl⟩
  builtTree := fun _ h => absurd rfl h
  builtCodes := fun _ b => by simp [codedEmpty, State.codeLen, State.codeAt, codeOf, State.freqAt, freqOf, State.reset]
  finished := fun h => by simp [codedEmpty] at h
  pendingBuild := fun h => absurd h hp
  pendingPack := fun _ _ _ => rfl

theorem sequenced_oneCounted_building : (completing .build oneCounted).Sequenced := by
  have h := sequenced_oneCounted
  exact ⟨h.totals, h.counting, h.builtEmpty, h.builtTree, h.builtCodes,
    fun hp => by simp [completing, oneCounted, State.reset] at hp,
    fun _ => rfl, fun p hp hb => by simp [completing] at hp; exact absurd hp.symm hb⟩

/-- Each clause of the interrupt statement: a fault, a `BUILD`, a `FLUSH`, and an acknowledgement. -/
theorem witness_InterruptBitsFollowTheirEvents :
    ((writing 0x05000000#32 oneCounted).Sequenced ∧ (∃ t, step (writing 0x05000000#32 oneCounted) = .next t ∧
      t.phase = .fault) ∧ (writing 0x05000000#32 oneCounted).clearsNow = false ∧ oneCounted.phase ≠ .fault) ∧
    ((completing .build oneCounted).Sequenced ∧ (∃ t, step (completing .build oneCounted) = .next t) ∧
      (completing .build oneCounted).clearsNow = false ∧
      (completing .build oneCounted).completesNow = some .build) ∧
    ((completing .flush codedEmpty).Sequenced ∧ (∃ t, step (completing .flush codedEmpty) = .next t) ∧
      (completing .flush codedEmpty).clearsNow = false ∧
      (completing .flush codedEmpty).completesNow = some .flush) ∧
    (acknowledging.Sequenced ∧ acknowledging.clearsNow = false ∧ acknowledging.intStatus.getLsbD 0 = true ∧
      ∃ t, step acknowledging = .next t ∧ t.intStatus.getLsbD 0 = false) := by
  refine ⟨⟨sequenced_writing _ sequenced_oneCounted, ⟨_, step_writing _ _ _ rfl, rfl⟩, by decide, by decide⟩,
    ⟨sequenced_oneCounted_building, ⟨_, step_of_block rfl⟩, by decide, by decide⟩,
    ⟨sequenced_codedEmpty _ (by simp) _, ⟨_, step_of_block rfl⟩, by decide, ?_⟩,
    ⟨?_, by decide, by decide, ?_⟩⟩
  · simp [State.completesNow, State.mover, completing, State.blockEnabled, readyAt, flushReadyAt, codedEmpty, State.reset]
  · have h := sequenced_faulted
    exact ⟨h.totals, h.counting, h.builtEmpty, h.builtTree, h.builtCodes, h.finished, h.pendingBuild, h.pendingPack⟩
  · refine ⟨(acknowledging.takeTurn.clearInt 1#32 : State) |> fun t => { t with hostProg := [] }, ?_, by decide⟩
    rw [step_of_host rfl]
    exact memWrite_reg .intStatus 1#32 _

theorem witness_ResetIsClearWithMaskAndSelector :
    ({ faulted with turns := [.rst, .host] } : State).turns = .rst :: [.host] := by decide

theorem witness_AcceptanceShowsOnlyBusy :
    oneCounted.pending = none ∧ exec .build oneCounted = .next { oneCounted with pending := some .build } ∧
    ({ oneCounted with pending := some .build } : State).phase ≠ .fault := ⟨by decide, rfl, by decide⟩

/-- Each clause: a `COUNT`, a completing `ENCODE`, and a completing `BUILD`. -/
theorem witness_TablesHaveOneWriter :
    (∃ t, step (writing 0x02000041#32 State.reset) = .next t ∧ t.len ≠ State.reset.len) ∧
    (writing 0x02000041#32 State.reset).clearsNow = false ∧
    (∃ t, step (completing (.encode 0x41#8) codedABC) = .next t ∧ t.bitcnt ≠ codedABC.bitcnt) ∧
    (completing (.encode 0x41#8) codedABC).clearsNow = false ∧
    (∃ t, step (completing .build oneCounted) = .next t ∧ t.nodes ≠ oneCounted.nodes) ∧
    (completing .build oneCounted).clearsNow = false := by
  have hd := outDepth_bounds
  refine ⟨⟨_, step_writing _ _ _ rfl, by decide +kernel⟩, by decide, ⟨_, step_of_block rfl, ?_⟩, by decide,
    ⟨_, step_of_block rfl, by decide +kernel⟩, by decide⟩
  have hr : encodeRoom 0x41#8 (completing (.encode 0x41#8) codedABC).takeTurn = 0 := by decide +kernel
  have hl : (completing (.encode 0x41#8) codedABC).takeTurn.outq.length = 0 := by decide
  have hc : (completing (.encode 0x41#8) codedABC).takeTurn.codeLen 0x41#8 = 1 := by decide +kernel
  have hp : (completing (.encode 0x41#8) codedABC).takeTurn.pending = some (.encode 0x41#8) := rfl
  have hb : (completing (.encode 0x41#8) codedABC).takeTurn.bitcnt = 0#64 := rfl
  simp only [blockStep, blockStepAt, hp, readyAt, encodeReadyAt, hr, hl, complete]
  rw [if_pos (by simp)]
  simp only [completeEncode_bitcnt, hc, hb]
  decide

theorem witness_OutputQueueIsFifo :
    (∃ t, step (completing .flush codedEmpty) = .next t) ∧ (completing .flush codedEmpty).clearsNow = false :=
  ⟨⟨_, step_of_block rfl⟩, by decide⟩

/-- CODED with `OUTQ` exactly full and an `ENCODE` held by it; the host reads `OUT_DATA`. -/
def held : State := { codedABC with
  outq := List.replicate Config.outDepth 0#8
  acc := List.replicate 7 true
  pending := some (.encode 0x41#8)
  turns := [.host]
  hostProg := [.memRead 0x00C 4 "d"] }

/-- `held` once the byte has been read. -/
def released : State := { held with
  outq := List.replicate (Config.outDepth - 1) 0#8
  turns := []
  hostProg := []
  reads := [("d", 0x100#32)] }

/-- Disabled before and enabled after an `OUT_DATA` read; and enabled before and after a `STATUS` read. -/
theorem witness_HoldIsLiftedOnlyByOutDataRead :
    (held.pending = some (.encode 0x41#8) ∧ step held = .next released ∧ released.pending = some (.encode 0x41#8) ∧
      held.blockEnabled = false ∧ released.blockEnabled = true) ∧
    (∃ t, step { released with turns := [.host] } = .next t ∧ t.pending = some (.encode 0x41#8)) := by
  have hd := outDepth_bounds
  have hcode : codesABC[byteIndex 0x41#8] = [false] := by decide +kernel
  refine ⟨⟨rfl, ?_, rfl, ?_, ?_⟩, ⟨_, step_of_host rfl, rfl⟩⟩
  · obtain ⟨n, hn⟩ : ∃ n, Config.outDepth = n + 1 := ⟨Config.outDepth - 1, by omega⟩
    rw [step_of_host rfl]
    change hostRead 0x00C 4 "d" _ = _
    rw [hostRead, memRead_outData]
    simp [readOutData, fifoPop, held, released, State.takeTurn, State.keepRead, hn, List.replicate_succ, codedABC,
      State.reset]
  · simp [State.blockEnabled, held, readyAt, encodeReadyAt, encodeRoom, State.codeLen, State.codeAt, codeOf, codedABC, hcode]
  · simp [State.blockEnabled, released, held, readyAt, encodeReadyAt, encodeRoom, State.codeLen, State.codeAt, codeOf,
      codedABC, hcode]
    omega

theorem witness_PseudoInstructionsRunTheirLoops :
    (∀ op ∈ [HostOp.wait, .waitPop true, .drain],
      ({ faulted with turns := [.host], hostProg := [op] } : State).mover = .host ∧
      ({ faulted with turns := [.host], hostProg := [op] } : State).hostProg = [op]) ∧ faulted.outq.length ≤ 255 := by
  decide

theorem bounded_building (s : State) (hs : s = { State.reset with pending := some .build, hostProg := [.wait] }) :
    s.Bounded := by
  subst hs
  refine ⟨by simp [State.reset], by simp [State.reset], by simp [State.reset, State.nnodes], fun b => ?_,
    by simp [State.reset], fun h => by simp [State.reset] at h⟩
  simp [State.codeLen, State.codeAt, codeOf, State.reset]

theorem witness_WaitingHostLetsCommandComplete :
    let s : State := { State.reset with pending := some .build, hostProg := [.wait] }
    s.Bounded ∧ s.pending ≠ none ∧ s.turns = [] ∧ s.hostProg = .wait :: [] :=
  ⟨bounded_building _ rfl, by simp, rfl, rfl⟩

theorem witness_EveryStepKeepsSequencing : (completing .build oneCounted).Sequenced ∧
    ∃ t, step (completing .build oneCounted) = .next t := ⟨sequenced_oneCounted_building, ⟨_, step_of_block rfl⟩⟩

theorem witness_EveryStepKeepsBounds :
    let s : State := { State.reset with pending := some .build, hostProg := [.wait] }
    s.Bounded ∧ ∃ t, step s = .next t := ⟨bounded_building _ rfl, ⟨_, step_of_block rfl⟩⟩

theorem witness_EveryStepKeepsStreamModel : (completing .build oneCounted).Sequenced ∧
    StreamModel ⟨[], [], []⟩ (completing .build oneCounted) ∧ ∃ t, step (completing .build oneCounted) = .next t := by
  refine ⟨sequenced_oneCounted_building, ⟨fun _ => ⟨rfl, rfl⟩, fun h => ?_, fun h => ?_, fun _ => ⟨rfl, rfl⟩, rfl⟩,
    ⟨_, step_of_block rfl⟩⟩
  · simp [completing, oneCounted, State.reset] at h
  · simp [completing, oneCounted, State.reset] at h

end Sys2Proof.Tests
end

section
/-! PROOFS. The byte built from a bit sequence (00_scope.md R8). -/

namespace Sys2Proof.Machine

/-- The number of a bit sequence, bit by bit (42_code_table.md R118). -/
theorem bitsToNat_eq_sum (s : Bits) :
    bitsToNat s = ((List.range s.length).map fun i => (s.getD i false).toNat * 2 ^ (s.length - 1 - i)).sum := by
  induction s using List.reverseRecOn with
  | nil => rfl
  | append_singleton s b ih =>
    have earlier : ∀ i ∈ List.range s.length,
        ((s ++ [b]).getD i false).toNat * 2 ^ ((s ++ [b]).length - 1 - i) =
          2 * ((s.getD i false).toNat * 2 ^ (s.length - 1 - i)) := by
      intro i hi
      have hi : i < s.length := List.mem_range.mp hi
      rw [List.getD_append _ _ _ _ hi, List.length_append, List.length_singleton,
        show s.length + 1 - 1 - i = s.length - 1 - i + 1 by omega, pow_succ]
      ring
    rw [bitsToNat_append_one, ih, ← List.sum_map_mul_left, ← List.map_congr_left earlier]
    simp [List.range_succ]

@[simp] theorem padTo_length {k : Nat} {s : Bits} (h : s.length ≤ k) : (padTo k s).length = k := by
  simp [padTo, h]

/-- Padding adds zero bits only. -/
@[simp] theorem padTo_getD (k : Nat) (s : Bits) (i : Nat) : (padTo k s).getD i false = s.getD i false := by
  by_cases hi : i < s.length
  · rw [padTo, List.getD_append _ _ _ _ hi]
  · have hi : s.length ≤ i := Nat.not_lt.mp hi
    rw [padTo, List.getD_append_right _ _ _ _ hi, List.getD_eq_default s _ hi, List.getD_eq_getElem?_getD,
      List.getElem?_getD_replicate_default_eq]

/-- The byte of at most 8 bits is the number of the padded sequence: nothing is lost to the byte's width. -/
theorem pack8_toNat {s : Bits} (h : s.length ≤ 8) : (pack8 s).toNat = bitsToNat (padTo 8 s) := by
  have hlt := bitsToNat_lt (padTo 8 s)
  rw [padTo_length h] at hlt
  rw [pack8, BitVec.toNat_ofNat, Nat.mod_eq_of_lt hlt]

/-- Settles O33: the byte is the number of the sequence padded to 8 bits, summed bit by bit. -/
theorem packPutsFirstBitHighest : Obligations.PackPutsFirstBitHighest := by
  intro s hs
  rw [pack8_toNat hs, bitsToNat_eq_sum, padTo_length hs]
  simp only [padTo_getD, Nat.reduceSub]

end Sys2Proof.Machine
end

section
/-! PROOFS. What a step that keeps the pending command can do to the things its completion condition looks at
(45_control.md R148): nothing, or the removal of the head of `OUTQ` by a read of `OUT_DATA` (43_bit_packer.md R130). -/

namespace Sys2Proof.Machine

/-- Nothing that a completion condition looks at has changed: `ACC`, `CODE`, `OUTQ` (45_control.md R148). -/
def KeepsReadyInputs (s t : State) : Prop := t.acc = s.acc ∧ t.code = s.code ∧ t.outq = s.outq

/-- Of what a completion condition looks at, only the head of `OUTQ` has gone (44_output_port.md R136). -/
def PopsOutq (s t : State) : Prop := t.acc = s.acc ∧ t.code = s.code ∧ ∃ x, s.outq = x :: t.outq

theorem KeepsReadyInputs.refl (s : State) : KeepsReadyInputs s s := ⟨rfl, rfl, rfl⟩

theorem PopsOutq.trans_keeps {s t u : State} (hst : PopsOutq s t) (htu : KeepsReadyInputs t u) : PopsOutq s u := by
  obtain ⟨hacc, hcode, x, hq⟩ := hst
  obtain ⟨hacc', hcode', hq'⟩ := htu
  exact ⟨hacc'.trans hacc, hcode'.trans hcode, x, by rw [hq, hq']⟩

theorem KeepsReadyInputs.trans {s t u : State} (hst : KeepsReadyInputs s t) (htu : KeepsReadyInputs t u) :
    KeepsReadyInputs s u := by
  obtain ⟨hacc, hcode, hq⟩ := hst
  obtain ⟨hacc', hcode', hq'⟩ := htu
  exact ⟨hacc'.trans hacc, hcode'.trans hcode, hq'.trans hq⟩

/-! ## The completion condition -/

/-- A command that is ready is ready with a shorter `OUTQ` too. -/
theorem readyAt_of_outq_le {depth : Nat} {p : Pending} {s t : State} (hacc : t.acc = s.acc) (hcode : t.code = s.code)
    (hq : t.outq.length ≤ s.outq.length) (hr : readyAt depth p s = true) : readyAt depth p t = true := by
  cases p with
  | build => rfl
  | encode b =>
    have hroom : encodeRoom b t = encodeRoom b s := by simp [encodeRoom, State.codeLen, State.codeAt, hacc, hcode]
    have hr : s.outq.length + encodeRoom b s ≤ depth := of_decide_eq_true hr
    exact decide_eq_true (by omega)
  | flush =>
    simp only [readyAt, flushReadyAt, Bool.or_eq_true, decide_eq_true_eq, hacc] at hr ⊢
    exact hr.imp_right hq.trans_lt

theorem KeepsReadyInputs.readyAt_iff {s t : State} (h : KeepsReadyInputs s t) (depth : Nat) (p : Pending) :
    readyAt depth p t = true ↔ readyAt depth p s = true := by
  obtain ⟨hacc, hcode, hq⟩ := h
  exact ⟨readyAt_of_outq_le hacc.symm hcode.symm (by rw [hq]), readyAt_of_outq_le hacc hcode (by rw [hq])⟩

theorem PopsOutq.readyAt_of_readyAt {s t : State} (h : PopsOutq s t) {depth : Nat} {p : Pending}
    (hr : readyAt depth p s = true) : readyAt depth p t = true := by
  obtain ⟨hacc, hcode, x, hq⟩ := h
  exact readyAt_of_outq_le hacc hcode (by simp [hq]) hr

theorem blockEnabled_of_pending {s : State} {p : Pending} (h : s.pending = some p) :
    s.blockEnabled = readyAt Config.outDepth p s := by
  simp [State.blockEnabled, h]

/-! ## Reads -/

/-- The map holds each register at its own offset only. -/
theorem offset_of_regAt {off : Nat} {r : Reg} (h : regAt off = some r) : r.offset = off := by
  simpa using List.find?_some h

/-- Everything a read can answer: a refusal, a fault, 0 at a reserved offset, or a register's read. -/
theorem memRead_cases (off n : Nat) (s : State) :
    (expressible off n = false ∧ memRead off n s = .refused (.unsupportedAccess off n)) ∨
    (expressible off n = true ∧ Config.windowSize ≤ off ∧ memRead off n s = .fault (.outsideWindow off)) ∨
    (expressible off n = true ∧ off < Config.windowSize ∧ regAt off = none ∧ memRead off n s = .next (0#32, s)) ∨
    ∃ r, expressible off n = true ∧ off < Config.windowSize ∧ regAt off = some r ∧
      memRead off n s = .next (readReg r s) := by
  cases he : expressible off n
  · exact .inl ⟨rfl, by simp [memRead, he]⟩
  · by_cases hw : Config.windowSize ≤ off
    · exact .inr (.inl ⟨rfl, hw, by simp [memRead, he, hw]⟩)
    · cases hr : regAt off with
      | none => exact .inr (.inr (.inl ⟨rfl, by omega, rfl, by simp [memRead, he, hw, hr]⟩))
      | some r => exact .inr (.inr (.inr ⟨r, rfl, by omega, rfl, by simp [memRead, he, hw, hr]⟩))

@[simp] theorem readReg_outData (s : State) : readReg .outData s = readOutData s := by
  simp [readReg]

@[simp] theorem readReg_status (s : State) : readReg .status s = (s.statusWord, s) := by
  simp [readReg, Reg.openInFault, State.view]

theorem readOutData_keeps_or_pops (s : State) :
    KeepsReadyInputs s (readOutData s).2 ∨ PopsOutq s (readOutData s).2 := by
  obtain ⟨-, h⟩ | ⟨x, q, hq, h⟩ := readOutData_cases s
  · rw [h]
    exact .inl (.refl s)
  · rw [h]
    exact .inr ⟨rfl, rfl, x, hq⟩

theorem readReg_keeps_of_ne_outData {r : Reg} (hr : r ≠ .outData) (s : State) : KeepsReadyInputs s (readReg r s).2 := by
  obtain ⟨ho, -⟩ | ⟨-, -, -, h⟩ | ⟨-, -, h⟩ := readReg_cases r s
  · exact absurd ho hr
  · rw [h]
    exact ⟨rfl, rfl, rfl⟩
  · rw [h]
    exact .refl s

/-- Only a read of offset 0x00C can remove a byte (20_memory.md R67). -/
theorem memRead_keeps_or_pops {off n : Nat} {s t : State} {v : Word} (h : memRead off n s = .next (v, t)) :
    KeepsReadyInputs s t ∨ (off = 0x00C ∧ n = 4 ∧ PopsOutq s t) := by
  obtain ⟨-, h'⟩ | ⟨-, -, h'⟩ | ⟨-, -, -, h'⟩ | ⟨r, he, -, hreg, h'⟩ := memRead_cases off n s <;> rw [h'] at h
  · cases h
  · cases h
  · cases h
    exact .inl (.refl s)
  · have ht : t = (readReg r s).2 := by
      rw [Host.Outcome.next.inj h]
    subst ht
    by_cases hr : r = .outData
    · subst hr
      have hoff : off = 0x00C := (offset_of_regAt hreg).symm
      have hn : n = 4 := by
        simp only [expressible, Bool.and_eq_true, beq_iff_eq] at he
        exact he.1
      rw [readReg_outData]
      exact (readOutData_keeps_or_pops s).imp_right fun hp => ⟨hoff, hn, hp⟩
    · exact .inl (readReg_keeps_of_ne_outData hr s)

/-! ## Writes while a command is pending -/

/-- The common acceptance either abandons a pending command or changes nothing (45_control.md R145). -/
theorem accept_eq_self_of_keeps_pending {i : Instr} {own : State → State} {s : State} (hs : s.pending ≠ none)
    (ht : (accept i own s).pending ≠ none) : accept i own s = s := by
  by_cases hf : s.phase = .fault
  · exact accept_in_fault i own hf
  · rw [accept_while_pending i own hf hs] at ht
    exact absurd rfl ht

/-- So does every command: a `CLEAR` always abandons it. -/
theorem exec_eq_self_of_keeps_pending {i : Instr} {s t : State} (h : exec i s = .next t) (hs : s.pending ≠ none)
    (ht : t.pending ≠ none) : t = s := by
  cases i with
  | clear =>
    cases h
    exact absurd rfl ht
  | nop | build | flush | count _ | encode _ =>
    cases h
    exact accept_eq_self_of_keeps_pending hs ht

theorem onCmdWrite_eq_self_of_keeps_pending {w : Word} {s t : State} (h : onCmdWrite w s = .next t)
    (hs : s.pending ≠ none) (ht : t.pending ≠ none) : t = s := by
  unfold onCmdWrite at h
  split at h
  · exact exec_eq_self_of_keeps_pending h hs ht
  · cases h
    obtain ⟨-, h'⟩ | ⟨-, -, h'⟩ | ⟨-, hp, -⟩ := rejectIllFormed_cases w s
    · exact h'
    · rw [h'] at ht
      exact absurd rfl ht
    · exact absurd hp hs

theorem writeReg_keeps_of_keeps_pending {r : Reg} {v : Word} {s t : State} (h : writeReg r v s = .next t)
    (hs : s.pending ≠ none) (ht : t.pending ≠ none) : KeepsReadyInputs s t := by
  cases r with
  | cmd =>
    rw [onCmdWrite_eq_self_of_keeps_pending h hs ht]
    exact .refl s
  | _ =>
    cases h
    exact ⟨rfl, rfl, rfl⟩

theorem memWrite_keeps_of_keeps_pending {off n : Nat} {v : Word} {s t : State} (h : memWrite off n v s = .next t)
    (hs : s.pending ≠ none) (ht : t.pending ≠ none) : KeepsReadyInputs s t := by
  obtain ⟨-, h'⟩ | ⟨-, -, h'⟩ | ⟨-, -, -, h'⟩ | ⟨r, -, -, -, h'⟩ := memWrite_cases off n v s <;> rw [h'] at h
  · cases h
  · cases h
  · cases h
    exact .refl s
  · exact writeReg_keeps_of_keeps_pending h hs ht

/-! ## The host's step and any step -/

theorem keepByte_keeps (s : State) (d : Word) : KeepsReadyInputs s (s.keepByte d) := by
  unfold State.keepByte
  split <;> exact ⟨rfl, rfl, rfl⟩

/-- A raw read keeps the value it read beside what the access did. -/
theorem hostRead_next {off n : Nat} {name : String} {s t : State} (h : hostRead off n name s = .next t) :
    ∃ v u, memRead off n s = .next (v, u) ∧ t = u.keepRead name v := by
  unfold hostRead at h
  split at h
  · next v u hm =>
    cases h
    exact ⟨v, u, hm, rfl⟩
  · cases h
  · cases h

theorem hostDrain_keeps (rest : List HostOp) (s : State) :
    KeepsReadyInputs (readOutData s).2 (hostDrain rest s) := by
  simp only [hostDrain, readReg_outData]
  split
  · exact keepByte_keeps _ _
  · exact .refl _

theorem hostWaitPop_keeps (busy : Bool) (rest : List HostOp) (s : State) :
    KeepsReadyInputs (readOutData s).2 (hostWaitPop busy rest s) := by
  simp only [hostWaitPop, readReg_outData]
  exact keepByte_keeps _ _

theorem hostWait_keeps (rest : List HostOp) (s : State) : KeepsReadyInputs s (hostWait rest s) := by
  simp only [hostWait, readReg_status]
  split <;> exact ⟨rfl, rfl, rfl⟩

/-- The host keeps the inputs of the completion condition, or pops `OUTQ` by an access that reads `OUT_DATA`. -/
theorem hostStep_keeps_or_pops {s t : State} (h : hostStep s = .next t) (hs : s.pending ≠ none) (ht : t.pending ≠ none) :
    KeepsReadyInputs s t ∨ ((s.hostProg.head?.map HostOp.readsOutData).getD false = true ∧ PopsOutq s t) := by
  unfold hostStep at h
  split at h
  · cases h
    exact .inl (.refl s)
  · next off n name rest hprog =>
    obtain ⟨v, u, hread, rfl⟩ := hostRead_next h
    obtain hk | ⟨rfl, rfl, hpop⟩ := memRead_keeps_or_pops hread
    · exact .inl hk
    · exact .inr ⟨by rw [hprog]; rfl, hpop⟩
  · next rest _ =>
    exact .inl (memWrite_keeps_of_keeps_pending (s := { s with hostProg := rest }) h hs ht)
  · next rest hprog =>
    cases h
    have hafter := hostDrain_keeps rest { s with hostProg := rest }
    obtain hk | hpop := readOutData_keeps_or_pops { s with hostProg := rest }
    · exact .inl (hk.trans hafter)
    · exact .inr ⟨by rw [hprog]; rfl, hpop.trans_keeps hafter⟩
  · cases h
    exact .inl (hostWait_keeps _ _)
  · next busy rest hprog =>
    cases h
    have hafter := hostWaitPop_keeps busy rest { s with hostProg := rest }
    obtain hk | hpop := readOutData_keeps_or_pops { s with hostProg := rest }
    · exact .inl (hk.trans hafter)
    · exact .inr ⟨by rw [hprog]; rfl, hpop.trans_keeps hafter⟩

/-- A completion leaves nothing pending. -/
@[simp] theorem complete_pending (p : Pending) (s : State) : (complete p s).pending = none := by
  cases p with
  | build =>
    simp only [complete, completeBuild]
    split <;> rfl
  | encode b => exact completeEncode_pending b s
  | flush => exact completeFlush_pending s

/-- A step under which a command stays pending keeps the inputs of its completion condition, or pops `OUTQ` by a read of
`OUT_DATA`: a completion, a `CLEAR`, a fault and a reset all end with nothing pending. -/
theorem step_keeps_or_pops {s t : State} (h : step s = .next t) (hs : s.pending ≠ none) (ht : t.pending ≠ none) :
    KeepsReadyInputs s t ∨ (s.readsOutDataNow = true ∧ PopsOutq s t) := by
  obtain ⟨hm, hstep⟩ | ⟨-, hstep⟩ | ⟨-, hstep⟩ := step_cases s <;> rw [hstep] at h
  · refine (hostStep_keeps_or_pops h hs ht).imp_right fun ⟨hop, hpop⟩ => ⟨?_, hpop⟩
    simpa [State.readsOutDataNow, hm] using hop
  · cases h
    obtain ⟨-, hb⟩ | ⟨p, -, -, hb⟩ := blockStep_cases s.takeTurn
    · rw [hb]
      exact .inl ⟨rfl, rfl, rfl⟩
    · rw [hb] at ht
      exact absurd (complete_pending p _) ht
  · cases h
    exact absurd rfl ht

/-- Settles O53: a step that keeps the pending command keeps its completion condition, or pops `OUTQ` by a read of
`OUT_DATA`, which can only make the condition true. -/
theorem holdIsLiftedOnlyByOutDataRead : Obligations.HoldIsLiftedOnlyByOutDataRead := by
  intro s t p hs hstep ht
  rw [blockEnabled_of_pending hs, blockEnabled_of_pending ht]
  obtain hk | ⟨hread, hpop⟩ := step_keeps_or_pops hstep (by simp [hs]) (by simp [ht])
  · have hiff := hk.readyAt_iff Config.outDepth p
    exact ⟨fun hheld hready => absurd (hiff.mp hready) (by simp [hheld]), hiff.mpr⟩
  · have ⟨_, _, hhead⟩ := hpop
    exact ⟨fun _ _ => ⟨hread, hhead⟩, hpop.readyAt_of_readyAt⟩

end Sys2Proof.Machine
end

section
/-! PROOFS. Everything one step can do to HEC's own items, said once: a reset edge, a completion, the effect of a word
written to `CMD`, or an access that changes nothing of them but the head of `OUTQ` (20_memory.md R62, 45_control.md
R145, R148). -/

namespace Sys2Proof.Machine

/-! ## A word written to `CMD` -/

/-- A word that decodes to an instruction is that instruction's word (30_encoding.md R82, R84). -/
theorem eq_encode_of_decode {w : Word} {i : Instr} (h : decode w = .ok i) : w = encode i := by
  have noOperand {i j : Instr} (h : withoutOperand w j = .ok i) : opndField w = 0#8 ∧ i = j := by
    unfold withoutOperand at h
    split at h
    · exact ⟨‹_›, (Except.ok.inj h).symm⟩
    · cases h
  unfold decode at h
  split at h
  · cases h
  · next hrsvd =>
    rw [word_of_fields (not_not.mp hrsvd)]
    split at h
    · next hop => obtain ⟨hz, rfl⟩ := noOperand h; rw [hop, hz]; rfl
    split at h
    · next hop => obtain ⟨hz, rfl⟩ := noOperand h; rw [hop, hz]; rfl
    split at h
    · next hop => cases h; rw [hop]; rfl
    split at h
    · next hop => obtain ⟨hz, rfl⟩ := noOperand h; rw [hop, hz]; rfl
    split at h
    · next hop => cases h; rw [hop]; rfl
    split at h
    · next hop => obtain ⟨hz, rfl⟩ := noOperand h; rw [hop, hz]; rfl
    · cases h

/-- The phase in which a multi-cycle command is accepted (45_control.md R146). -/
def Pending.startPhase : Pending → Phase
  | .build => .count
  | .encode _ | .flush => .coded

/-- What the write of a word to `CMD` can do (45_control.md R145). -/
inductive CommandEffect (w : Word) (s : State) : State → Prop where
  /-- FAULT ignores the word, or it is an accepted `NOP`. -/
  | ignored (h : s.phase = .fault ∨ w = encode .nop) : CommandEffect w s s
  | cleared (hw : w = clearWord) : CommandEffect w s (clear s)
  | faulted (code : ErrCode) (hcode : code ≠ .none) (hphase : s.phase ≠ .fault) :
      CommandEffect w s (raiseFault code w s)
  | counted (b : Byte) (hw : w = encode (.count b)) (hphase : s.phase = .count) (hpending : s.pending = none)
      (hlen : s.len ≠ lenMax) : CommandEffect w s (countByte b s)
  | accepted (p : Pending) (hw : w = p.word) (hphase : s.phase = p.startPhase) (hpending : s.pending = none)
      (hcode : ∀ b, p = .encode b → s.codeLen b ≠ 0) : CommandEffect w s { s with pending := some p }

/-- The common acceptance faults, ignores the word, or leaves the effect to the command's own steps. -/
theorem accept_effect {i : Instr} {own : State → State} {s : State}
    (hown : s.phase ≠ .fault → s.pending = none → legal i s.phase = true → CommandEffect (encode i) s (own s)) :
    CommandEffect (encode i) s (accept i own s) := by
  obtain ⟨hf, h⟩ | ⟨hf, -, h⟩ | ⟨hf, -, -, h⟩ | ⟨hf, hp, hl, h⟩ := accept_cases i own s <;> rw [h]
  · exact .ignored (.inl hf)
  · exact .faulted _ (by decide) hf
  · exact .faulted _ (by decide) hf
  · exact hown hf hp hl

theorem exec_effect {i : Instr} {s t : State} (h : exec i s = .next t) : CommandEffect (encode i) s t := by
  cases i with
  | nop =>
    cases h
    exact accept_effect fun _ _ _ => .ignored (.inr rfl)
  | clear =>
    cases h
    exact .cleared rfl
  | count b =>
    cases h
    refine accept_effect fun hf hp hl => ?_
    unfold countOwn
    split
    · exact .faulted _ (by decide) hf
    · next hlen => exact .counted b rfl (by simpa [legal] using hl) hp hlen
  | build =>
    cases h
    exact accept_effect fun _ hp hl => .accepted .build rfl (by simpa [legal, Pending.startPhase] using hl) hp nofun
  | encode b =>
    cases h
    refine accept_effect fun hf hp hl => ?_
    unfold encodeOwn
    split
    · exact .faulted _ (by decide) hf
    · next hcode =>
      refine .accepted (.encode b) rfl (by simpa [legal, Pending.startPhase] using hl) hp fun c hc => ?_
      cases hc
      exact hcode
  | flush =>
    cases h
    exact accept_effect fun _ hp hl => .accepted .flush rfl (by simpa [legal, Pending.startPhase] using hl) hp nofun

theorem onCmdWrite_effect {w : Word} {s t : State} (h : onCmdWrite w s = .next t) : CommandEffect w s t := by
  unfold onCmdWrite at h
  split at h
  · next i hi =>
    rw [eq_encode_of_decode hi]
    exact exec_effect h
  · cases h
    obtain ⟨hf, h⟩ | ⟨hf, -, h⟩ | ⟨hf, -, h⟩ := rejectIllFormed_cases w s <;> rw [h]
    · exact .ignored (.inl hf)
    · exact .faulted _ (by decide) hf
    · exact .faulted _ (by decide) hf

/-! ## Accesses that write no command -/

/-- The items of HEC that no access but a `CMD` write changes: all but `OUTQ`, `INT_STATUS`, `INT_EN` and `SEL`. -/
def State.items (s : State) : State :=
  { s.hec with outq := [], intStatus := 0#3, intEn := 0#3, sel := 0#9 }

/-- Every item of HEC but `OUTQ`, `INT_STATUS`, `INT_EN` and `SEL` is unchanged. -/
def SameItems (s t : State) : Prop := t.items = s.items

namespace SameItems

variable {s t u : State}

theorem refl (s : State) : SameItems s s := rfl
theorem trans (h : SameItems s t) (k : SameItems t u) : SameItems s u := Eq.trans k h

theorem phase (h : SameItems s t) : t.phase = s.phase := (congrArg State.phase h :)
theorem pending (h : SameItems s t) : t.pending = s.pending := (congrArg State.pending h :)
theorem freq (h : SameItems s t) : t.freq = s.freq := (congrArg State.freq h :)
theorem len (h : SameItems s t) : t.len = s.len := (congrArg State.len h :)
theorem nsym (h : SameItems s t) : t.nsym = s.nsym := (congrArg State.nsym h :)
theorem nodes (h : SameItems s t) : t.nodes = s.nodes := (congrArg State.nodes h :)
theorem root (h : SameItems s t) : t.root = s.root := (congrArg State.root h :)
theorem code (h : SameItems s t) : t.code = s.code := (congrArg State.code h :)
theorem acc (h : SameItems s t) : t.acc = s.acc := (congrArg State.acc h :)
theorem bitcnt (h : SameItems s t) : t.bitcnt = s.bitcnt := (congrArg State.bitcnt h :)
theorem outcnt (h : SameItems s t) : t.outcnt = s.outcnt := (congrArg State.outcnt h :)
theorem errCode (h : SameItems s t) : t.errCode = s.errCode := (congrArg State.errCode h :)

end SameItems

theorem readOutData_sameItems (s : State) : SameItems s (readOutData s).2 := by
  obtain ⟨-, h⟩ | ⟨x, q, -, h⟩ := readOutData_cases s <;> rw [h] <;> rfl

theorem readReg_sameItems (r : Reg) (s : State) : SameItems s (readReg r s).2 := by
  obtain ⟨-, h⟩ | ⟨-, -, -, h⟩ | ⟨-, -, h⟩ := readReg_cases r s <;> rw [h]
  · exact readOutData_sameItems s
  · rfl
  · rfl

theorem memRead_sameItems {off n : Nat} {v : Word} {s t : State} (h : memRead off n s = .next (v, t)) :
    SameItems s t := by
  obtain ⟨-, h'⟩ | ⟨-, -, h'⟩ | ⟨-, -, -, h'⟩ | ⟨r, -, -, -, h'⟩ := memRead_cases off n s <;> rw [h'] at h
  · cases h
  · cases h
  · cases h
    rfl
  · rw [← show (readReg r s).2 = t by rw [Host.Outcome.next.inj h]]
    exact readReg_sameItems r s

theorem keepByte_sameItems (s : State) (d : Word) : SameItems s (s.keepByte d) := by
  unfold State.keepByte
  split <;> rfl

theorem hostDrain_sameItems (rest : List HostOp) (s : State) : SameItems s (hostDrain rest s) := by
  refine (readOutData_sameItems s).trans ?_
  simp only [hostDrain, readReg_outData]
  split
  · exact keepByte_sameItems _ _
  · rfl

theorem hostWaitPop_sameItems (busy : Bool) (rest : List HostOp) (s : State) :
    SameItems s (hostWaitPop busy rest s) := by
  refine (readOutData_sameItems s).trans ?_
  simp only [hostWaitPop, readReg_outData]
  exact keepByte_sameItems _ _

theorem hostWait_sameItems (rest : List HostOp) (s : State) : SameItems s (hostWait rest s) := by
  simp only [hostWait, readReg_status]
  split <;> rfl

/-- A write is the write of a command word, or leaves the items and `OUTQ` as they are. -/
theorem memWrite_effect {off n : Nat} {v : Word} {s t : State} (h : memWrite off n v s = .next t) :
    (off = 0x008 ∧ n = 4 ∧ CommandEffect v s t) ∨ (SameItems s t ∧ KeepsReadyInputs s t) := by
  obtain ⟨-, h'⟩ | ⟨-, -, h'⟩ | ⟨-, -, -, h'⟩ | ⟨r, he, -, hreg, h'⟩ := memWrite_cases off n v s <;> rw [h'] at h
  · cases h
  · cases h
  · cases h
    exact .inr ⟨.refl s, .refl s⟩
  · cases r with
    | cmd =>
      simp only [expressible, Bool.and_eq_true, beq_iff_eq] at he
      exact .inl ⟨(offset_of_regAt hreg).symm, he.1, onCmdWrite_effect h⟩
    | _ =>
      cases h
      exact .inr ⟨rfl, rfl, rfl, rfl⟩

/-! ## The host's step and any step -/

/-- The state once the host's next access has been taken off its program. -/
def State.takeOp (s : State) : State := { s with hostProg := s.hostProg.tail }

/-- An access that writes no command: the items are unchanged, and at most the head of `OUTQ` goes, by a read of
`OUT_DATA` where `reads` says that there is one. -/
def QuietAccess (reads : Prop) (s t : State) : Prop :=
  SameItems s t ∧ (t.outq = s.outq ∨ (reads ∧ ∃ x, s.outq = x :: t.outq))

theorem QuietAccess.sameItems {reads : Prop} {s t : State} (h : QuietAccess reads s t) : SameItems s t := h.1

theorem QuietAccess.of_keeps {reads : Prop} {s t : State} (hi : SameItems s t) (hk : KeepsReadyInputs s t) :
    QuietAccess reads s t := by
  obtain ⟨-, -, hq⟩ := hk
  exact ⟨hi, .inl hq⟩

/-- A read of `OUT_DATA` that is followed by nothing but bookkeeping of the host. -/
theorem QuietAccess.of_readOutData {reads : Prop} {s t : State} (hr : reads) (hi : SameItems s t)
    (hk : KeepsReadyInputs (readOutData s).2 t) : QuietAccess reads s t := by
  refine ⟨hi, ?_⟩
  obtain hk' | hp := readOutData_keeps_or_pops s
  · obtain ⟨-, -, hq⟩ := hk'.trans hk
    exact .inl hq
  · obtain ⟨-, -, hq⟩ := hp.trans_keeps hk
    exact .inr ⟨hr, hq⟩

/-- The host's step writes a command word or is quiet. -/
theorem hostStep_effect {s t : State} (h : hostStep s = .next t) :
    (∃ w, s.hostProg.head?.bind HostOp.command = some w ∧ CommandEffect w s.takeOp t) ∨
    QuietAccess ((s.hostProg.head?.map HostOp.readsOutData).getD false = true) s t := by
  unfold hostStep at h
  split at h
  · cases h
    exact .inr (.of_keeps (.refl s) (.refl s))
  · next off n name rest hprog =>
    obtain ⟨v, u, hread, rfl⟩ := hostRead_next h
    refine .inr ⟨(memRead_sameItems hread).trans (s := { s with hostProg := rest }) rfl, ?_⟩
    obtain ⟨-, -, hq⟩ | ⟨rfl, rfl, -, -, hq⟩ := memRead_keeps_or_pops hread
    · exact .inl hq
    · exact .inr ⟨by rw [hprog]; rfl, hq⟩
  · next off n w rest hprog =>
    obtain ⟨rfl, rfl, hw⟩ | ⟨hi, hk⟩ := memWrite_effect h
    · refine .inl ⟨w, by rw [hprog]; rfl, ?_⟩
      rwa [State.takeOp, hprog]
    · exact .inr (.of_keeps hi hk)
  · next rest hprog =>
    cases h
    exact .inr (.of_readOutData (s := { s with hostProg := rest }) (by rw [hprog]; rfl)
      (hostDrain_sameItems rest _) (hostDrain_keeps rest _))
  · cases h
    exact .inr (.of_keeps (hostWait_sameItems _ _) (hostWait_keeps _ _))
  · next busy rest hprog =>
    cases h
    exact .inr (.of_readOutData (s := { s with hostProg := rest }) (by rw [hprog]; rfl)
      (hostWaitPop_sameItems busy rest _) (hostWaitPop_keeps busy rest _))

/-- What a step can do to HEC's own items. -/
inductive StepEffect (s : State) : State → Prop where
  | reset (hm : s.mover = .rst) : StepEffect s (resetHec s.takeTurn)
  | command {t : State} (w : Word) (hw : s.commandNow = some w) (ht : CommandEffect w s.takeTurn.takeOp t) :
      StepEffect s t
  | completed (p : Pending) (hc : s.completesNow = some p) (hp : s.pending = some p)
      (hready : readyAt Config.outDepth p s = true) : StepEffect s (complete p s.takeTurn)
  | quiet {t : State} (ht : QuietAccess (s.readsOutDataNow = true) s t) : StepEffect s t

theorem step_effect {s t : State} (h : step s = .next t) : StepEffect s t := by
  obtain ⟨hm, hstep⟩ | ⟨hm, hstep⟩ | ⟨hm, hstep⟩ := step_cases s <;> rw [hstep] at h
  · obtain ⟨w, hw, ht⟩ | ⟨hi, hq⟩ := hostStep_effect h
    · exact .command w (by simpa [State.commandNow, hm] using hw) ht
    · refine .quiet ⟨hi, hq.imp_right fun ⟨hr, hx⟩ => ⟨?_, hx⟩⟩
      simpa [State.readsOutDataNow, hm] using hr
  · cases h
    obtain ⟨-, hb⟩ | ⟨p, hp, he, hb⟩ := blockStep_cases s.takeTurn <;> rw [hb]
    · exact .quiet ⟨rfl, .inl rfl⟩
    · have hp : s.pending = some p := hp
      have he : s.blockEnabled = true := he
      exact .completed p (by simp [State.completesNow, hm, he, hp]) hp (blockEnabled_of_pending hp ▸ he)
  · cases h
    exact .reset hm

end Sys2Proof.Machine
end

section
/-! PROOFS. The counted byte values and the leaves made from them (40_frequency.md R92, 41_tree_builder.md R105,
R108). -/

namespace Sys2Proof.Machine

/-- Every byte value, in ascending order. -/
def allBytes : List Byte := (List.range 256).map (BitVec.ofNat 8)

/-- The byte values with a non-zero frequency, in ascending order. -/
def countedBytes (freq : Vector Word 256) : List Byte := allBytes.filter fun b => freqOf freq b != 0#32

@[simp] theorem allBytes_length : allBytes.length = 256 := by simp [allBytes]

theorem mem_allBytes (b : Byte) : b ∈ allBytes :=
  List.mem_map.mpr ⟨b.toNat, List.mem_range.mpr b.isLt, by simp⟩

theorem allBytes_nodup : allBytes.Nodup := by
  refine List.nodup_range.map_on fun a ha b hb h => ?_
  have h := congrArg BitVec.toNat h
  simp only [List.mem_range] at ha hb
  simpa [Nat.mod_eq_of_lt ha, Nat.mod_eq_of_lt hb] using h

/-- A frequency table lists the frequency of each byte value in ascending order. -/
theorem toList_eq_map_freqOf (freq : Vector Word 256) : freq.toList = allBytes.map (freqOf freq) := by
  refine List.ext_getElem (by simp) fun i hi _ => ?_
  have hi : i < 256 := by simpa using hi
  simp [allBytes, freqOf, byteIndex, Nat.mod_eq_of_lt hi]

theorem zipIdx_toList_eq_map (freq : Vector Word 256) :
    freq.toList.zipIdx = (List.range 256).map fun i => (freqOf freq (BitVec.ofNat 8 i), i) := by
  refine List.ext_getElem (by simp) fun i hi _ => ?_
  have hi : i < 256 := by simpa using hi
  simp [freqOf, byteIndex, Nat.mod_eq_of_lt hi]

/-- The leaves are those of the counted byte values, in ascending order, each with its frequency. -/
theorem leaves_eq_map_countedBytes (freq : Vector Word 256) :
    leaves freq = (countedBytes freq).map fun b => .leaf b (freqOf freq b) := by
  rw [leaves, zipIdx_toList_eq_map, countedBytes, allBytes, List.filterMap_map, List.filter_map, List.map_map,
    ← List.filterMap_eq_map, List.filterMap_filter]
  refine List.filterMap_congr fun i _ => ?_
  by_cases h : freqOf freq (BitVec.ofNat 8 i) = 0#32 <;> simp [h]

theorem mem_countedBytes {freq : Vector Word 256} {b : Byte} : b ∈ countedBytes freq ↔ freqOf freq b ≠ 0#32 := by
  simp [countedBytes, mem_allBytes]

theorem countedBytes_nodup (freq : Vector Word 256) : (countedBytes freq).Nodup := allBytes_nodup.filter _

/-- There are `N` counted byte values. -/
theorem countedBytes_length (freq : Vector Word 256) : (countedBytes freq).length = distinctBytes freq := by
  rw [distinctBytes, toList_eq_map_freqOf, List.filter_map, List.length_map, countedBytes]
  congr 1
  refine List.filter_congr fun b _ => ?_
  simp [bne, beq_eq_decide]

theorem countedBytes_length_le (freq : Vector Word 256) : (countedBytes freq).length ≤ 256 :=
  (List.length_filter_le _ _).trans_eq allBytes_length

end Sys2Proof.Machine
end

section
/-! PROOFS. The tree that `BuildTree` leaves in the arena, as a tree (41_tree_builder.md R106, R108, R110): the loop
keeps a forest, one tree for each queue element, whose leaves are together the counted byte values. -/

namespace Sys2Proof.Machine

/-- A code tree: byte values at the leaves, two children at every other node. -/
inductive CodeTree where
  | leaf (b : Byte)
  | node (l r : CodeTree)

namespace CodeTree

/-- The byte values at the leaves, from left to right. -/
def bytes : CodeTree → List Byte
  | leaf b => [b]
  | node l r => l.bytes ++ r.bytes

/-- The length of the longest path to a leaf. -/
def height : CodeTree → Nat
  | leaf _ => 0
  | node l r => max l.height r.height + 1

/-- A tree with `n` leaves has no path longer than `n - 1`. -/
theorem height_lt_bytes_length (t : CodeTree) : t.height < t.bytes.length := by
  induction t with
  | leaf b => simp [height, bytes]
  | node l r ihl ihr =>
    simp only [height, bytes, List.length_append]
    omega

end CodeTree

/-- The arena node `i` is the root of the tree `t`. -/
inductive Represents (nodes : List Node) : NodeId → CodeTree → Prop where
  | leaf {i : NodeId} {b : Byte} {w : Word} (h : nodes[i.toNat]? = some (.leaf b w)) : Represents nodes i (.leaf b)
  | node {i l r : NodeId} {w : Word} {tl tr : CodeTree} (h : nodes[i.toNat]? = some (.internal l r w))
      (hl : Represents nodes l tl) (hr : Represents nodes r tr) : Represents nodes i (.node tl tr)

/-- A new entry of the arena leaves the trees of the old ones as they are. -/
theorem Represents.append {nodes : List Node} {i : NodeId} {t : CodeTree} (h : Represents nodes i t)
    (new : List Node) : Represents (nodes ++ new) i t := by
  have entry {j : Nat} {n : Node} (hj : nodes[j]? = some n) : (nodes ++ new)[j]? = some n := by
    obtain ⟨hlt, -⟩ := List.getElem?_eq_some_iff.mp hj
    rw [List.getElem?_append_left hlt, hj]
  induction h with
  | leaf h => exact .leaf (entry h)
  | node h _ _ ihl ihr => exact .node (entry h) ihl ihr

/-- What the loop of `BuildTree` keeps: each queue element is the root of a tree, the trees' leaves are together
`bytes`, each turn trades two elements for one and adds one node, and the newest element is the newest node. -/
structure Forest (bytes : List Byte) (nodes : List Node) (q : List Elem) : Prop where
  trees : ∃ ts, List.Forall₂ (fun e t => Represents nodes e.id t) q ts ∧ (ts.flatMap CodeTree.bytes).Perm bytes
  size : nodes.length + q.length = 2 * bytes.length
  newest : q.getLast?.map Elem.id = some (BitVec.ofNat 9 (nodes.length - 1))

theorem Forest.queue_pos {bytes : List Byte} {nodes : List Node} {q : List Elem} (h : Forest bytes nodes q) :
    0 < q.length := by
  have := h.newest
  rw [List.length_pos_iff]
  rintro rfl
  simp at this

theorem popMin_perm {q q' : List Elem} {e : Elem} (h : popMin q = some (e, q')) : q.Perm (e :: q') := by
  cases q with
  | nil => simp at h
  | cons x q =>
    simp only [popMin_cons, Option.some.injEq, Prod.mk.injEq] at h
    obtain ⟨rfl, rfl⟩ := h
    exact List.perm_cons_erase (leastOf_mem x q)

/-- One turn of the loop. -/
theorem Forest.merge {bytes : List Byte} {nodes : List Node} {q q1 q2 : List Elem} {l r : Elem}
    (h : Forest bytes nodes q) (hb : bytes.length ≤ 256)
    (hl : popMin q = some (l, q1)) (hr : popMin q1 = some (r, q2)) :
    Forest bytes (nodes ++ [mergeNode l r]) (push q2 ⟨l.weight + r.weight, BitVec.ofNat 9 nodes.length⟩) := by
  have hlen1 := popMin_length hl
  have hlen2 := popMin_length hr
  have hsize := h.size
  have hperm : q.Perm (l :: r :: q2) := (popMin_perm hl).trans ((popMin_perm hr).cons l)
  obtain ⟨ts, hts, hbytes⟩ := h.trees
  obtain ⟨ts', hts', hperm'⟩ := List.perm_comp_forall₂ hperm.symm hts
  obtain _ | ⟨htl, _ | ⟨htr, hrest⟩⟩ := hts'
  next tl tr rest =>
  refine ⟨⟨rest ++ [.node tl tr], ?_, ?_⟩, by simp; omega, by simp [push]⟩
  · refine List.rel_append (hrest.imp fun _ _ ht => ht.append _) (.cons (.node (w := l.weight + r.weight) ?_
      (htl.append _) (htr.append _)) .nil)
    rw [BitVec.toNat_ofNat, Nat.mod_eq_of_lt (by omega)]
    simp [mergeNode]
  · refine List.Perm.trans ?_ ((hperm'.flatMap_right _).trans hbytes)
    simpa [CodeTree.bytes] using
      List.perm_append_comm (l₁ := rest.flatMap CodeTree.bytes) (l₂ := tl.bytes ++ tr.bytes)

/-- The loop ends with one element, the root of a tree of all the bytes. -/
theorem mergeLoop_forest {bytes : List Byte} (hb : bytes.length ≤ 256) (fuel : Nat) {nodes : List Node}
    {q : List Elem} (h : Forest bytes nodes q) (hfuel : q.length ≤ fuel + 1) :
    ∃ nodes' e, mergeLoop fuel nodes q = some (nodes', [e]) ∧ Forest bytes nodes' [e] := by
  have hpos := h.queue_pos
  have done {nodes : List Node} {q : List Elem} (h : Forest bytes nodes q) (h1 : q.length = 1) :
      ∃ nodes' e, some (nodes, q) = some (nodes', [e]) ∧ Forest bytes nodes' [e] := by
    obtain ⟨e, rfl⟩ := List.length_eq_one_iff.mp h1
    exact ⟨nodes, e, rfl, h⟩
  induction fuel generalizing nodes q with
  | zero => exact done h (by omega)
  | succ fuel ih =>
    rw [mergeLoop]
    split
    · next hlt =>
      obtain ⟨l, q1, hl⟩ := popMin_of_pos hpos
      have hlen1 := popMin_length hl
      obtain ⟨r, q2, hr⟩ := popMin_of_pos (q := q1) (by omega)
      have hlen2 := popMin_length hr
      simp only [hl, hr]
      exact ih (h.merge hb hl hr) (by simp; omega) (by simp)
    · exact done h (by omega)

/-- The queue of the leaves is a forest of one-leaf trees. -/
theorem forest_leafQueue {freq : Vector Word 256} (hne : countedBytes freq ≠ []) :
    Forest (countedBytes freq) (leaves freq) (leafQueue (leaves freq)) := by
  have hle := countedBytes_length_le freq
  have hlen : (leaves freq).length = (countedBytes freq).length := by simp [leaves_eq_map_countedBytes]
  have hpos := List.length_pos_iff.mpr hne
  refine ⟨⟨(countedBytes freq).map .leaf, ?_, ?_⟩, ?_, ?_⟩
  · refine List.forall₂_iff_get.mpr ⟨by simp [leafQueue, hlen], fun i hi _ => ?_⟩
    have hi : i < (countedBytes freq).length := by simpa [leafQueue, hlen] using hi
    simp only [leafQueue, List.get_eq_getElem, List.getElem_map, List.getElem_zipIdx, Nat.zero_add]
    refine .leaf (w := freqOf freq (countedBytes freq)[i]) ?_
    rw [BitVec.toNat_ofNat, Nat.mod_eq_of_lt (by omega)]
    simp [leaves_eq_map_countedBytes, hi]
  · simp [List.flatMap_map, CodeTree.bytes]
  · simp [leafQueue, hlen]
    omega
  · simp [leafQueue, List.getLast?_eq_getElem?, hlen, hpos]

/-- `BuildTree` of an empty table (41_tree_builder.md R109). -/
theorem buildTree_of_nothing_counted {freq : Vector Word 256} (h : countedBytes freq = []) :
    buildTree freq = some ⟨[], none⟩ := by
  simp [buildTree, leaves_eq_map_countedBytes, h]

/-- `BuildTree` of any other table gives one tree, whose root is the last node (41_tree_builder.md R108, R110). -/
theorem buildTree_of_counted {freq : Vector Word 256} (h : countedBytes freq ≠ []) :
    ∃ nodes e, buildTree freq = some ⟨nodes, some e.id⟩ ∧ Forest (countedBytes freq) nodes [e] := by
  have hleaves : leaves freq ≠ [] := by simpa [leaves_eq_map_countedBytes] using h
  obtain ⟨nodes, e, hloop, hforest⟩ :=
    mergeLoop_forest (countedBytes_length_le freq) (leaves freq).length (forest_leafQueue h) (by simp [leafQueue])
  exact ⟨nodes, e, by simp [buildTree, hleaves, hloop, leastOf], hforest⟩

end Sys2Proof.Machine
end

section
/-! PROOFS. The code table that `GenCodes` makes of a built tree, leaf by leaf (42_code_table.md R115 to R117). -/

namespace Sys2Proof.Machine

/-- The directions to each leaf, 0 for left and 1 for right, from left to right (42_code_table.md R115). -/
def CodeTree.paths : CodeTree → List (Byte × Bits)
  | leaf b => [(b, [])]
  | node l r => l.paths.map (Prod.map id (false :: ·)) ++ r.paths.map (Prod.map id (true :: ·))

/-- The code of each leaf: its path, or `[0]` where the tree is one leaf (42_code_table.md R116). -/
def CodeTree.codes : CodeTree → List (Byte × Bits)
  | leaf b => [(b, [false])]
  | node l r => (node l r).paths

/-- `CODE[b] <- pre ++ p` for each pair `(b, p)` of a list, in order. -/
def setCodes (pre : Bits) (cs : List (Byte × Bits)) (codes : Vector Bits 256) : Vector Bits 256 :=
  cs.foldl (fun codes c => setCode c.1 (pre ++ c.2) codes) codes

@[simp] theorem setCodes_append (pre : Bits) (cs ds : List (Byte × Bits)) (codes : Vector Bits 256) :
    setCodes pre (cs ++ ds) codes = setCodes pre ds (setCodes pre cs codes) :=
  List.foldl_append

@[simp] theorem setCodes_map_cons (pre : Bits) (d : Bool) (cs : List (Byte × Bits)) (codes : Vector Bits 256) :
    setCodes pre (cs.map (Prod.map id (d :: ·))) codes = setCodes (pre ++ [d]) cs codes := by
  simp [setCodes, List.foldl_map]

theorem codeOf_setCodes_of_notMem {b : Byte} {cs : List (Byte × Bits)} (pre : Bits) (codes : Vector Bits 256)
    (h : b ∉ cs.map Prod.fst) : codeOf (setCodes pre cs codes) b = codeOf codes b := by
  induction cs generalizing codes with
  | nil => rfl
  | cons c cs ih =>
    simp only [List.map_cons, List.mem_cons, not_or] at h
    obtain ⟨hc, hcs⟩ := h
    exact (ih _ hcs).trans (codeOf_setCode_other codes _ (Ne.symm hc))

/-- Where no byte value occurs twice, each has the code it is paired with. -/
theorem codeOf_setCodes_of_mem {b : Byte} {p : Bits} {cs : List (Byte × Bits)} (pre : Bits) (codes : Vector Bits 256)
    (hnodup : (cs.map Prod.fst).Nodup) (h : (b, p) ∈ cs) : codeOf (setCodes pre cs codes) b = pre ++ p := by
  induction cs generalizing codes with
  | nil => cases h
  | cons c cs ih =>
    obtain ⟨hnew, hnodup⟩ := List.nodup_cons.mp hnodup
    obtain rfl | h := List.mem_cons.mp h
    · exact (codeOf_setCodes_of_notMem pre _ hnew).trans (codeOf_setCode_same _ _ _)
    · exact ih _ hnodup h

namespace CodeTree

@[simp] theorem paths_map_fst (t : CodeTree) : t.paths.map Prod.fst = t.bytes := by
  induction t with
  | leaf b => rfl
  | node l r ihl ihr => simp [paths, bytes, ← ihl, ← ihr, Function.comp_def]

@[simp] theorem codes_map_fst (t : CodeTree) : t.codes.map Prod.fst = t.bytes := by
  cases t with
  | leaf b => rfl
  | node l r => exact paths_map_fst (.node l r)

theorem paths_length_le {t : CodeTree} {b : Byte} {p : Bits} (h : (b, p) ∈ t.paths) : p.length ≤ t.height := by
  induction t generalizing p with
  | leaf c => simp_all [paths]
  | node l r ihl ihr =>
    simp only [paths, List.mem_append, List.mem_map, Prod.exists, Prod.map_apply, id, Prod.mk.injEq] at h
    obtain ⟨_, q, hq, rfl, rfl⟩ | ⟨_, q, hq, rfl, rfl⟩ := h
    · have := ihl hq
      simp only [List.length_cons, height]
      omega
    · have := ihr hq
      simp only [List.length_cons, height]
      omega

/-- No code is empty. -/
theorem codes_ne_nil {t : CodeTree} {b : Byte} {p : Bits} (h : (b, p) ∈ t.codes) : p ≠ [] := by
  cases t with
  | leaf c =>
    rw [(Prod.mk.inj (List.mem_singleton.mp h)).2]
    simp
  | node l r =>
    simp only [codes, paths, List.mem_append, List.mem_map, Prod.exists, Prod.map_apply, Prod.mk.injEq] at h
    obtain ⟨_, q, -, -, rfl⟩ | ⟨_, q, -, -, rfl⟩ := h <;> simp

theorem codes_length_le {t : CodeTree} {b : Byte} {p : Bits} (h : (b, p) ∈ t.codes) :
    p.length ≤ max 1 (t.bytes.length - 1) := by
  cases t with
  | leaf c =>
    rw [(Prod.mk.inj (List.mem_singleton.mp h)).2]
    simp
  | node l r =>
    have := paths_length_le (t := .node l r) h
    have := height_lt_bytes_length (.node l r)
    omega

end CodeTree

/-- `Walk` from the root of a tree writes the path of each leaf behind what was walked before. -/
theorem walk_eq_setCodes {nodes : List Node} {n : NodeId} {t : CodeTree} (h : Represents nodes n t) {fuel : Nat}
    (hfuel : t.height < fuel) (pre : Bits) (codes : Vector Bits 256) :
    walk fuel nodes n pre codes = setCodes pre t.paths codes := by
  induction h generalizing fuel pre codes with
  | leaf h =>
    obtain ⟨fuel, rfl⟩ := Nat.exists_eq_add_one_of_ne_zero (Nat.ne_zero_of_lt hfuel)
    simp [walk, h, CodeTree.paths, setCodes]
  | node h _ _ ihl ihr =>
    obtain ⟨fuel, rfl⟩ := Nat.exists_eq_add_one_of_ne_zero (Nat.ne_zero_of_lt hfuel)
    simp only [CodeTree.height] at hfuel
    simp only [walk, h]
    rw [ihl (by omega), ihr (by omega)]
    simp [CodeTree.paths]

/-- `GenCodes` of a tree in the arena writes the code of each leaf. -/
theorem genCodes_eq_setCodes {nodes : List Node} {r : NodeId} {t : CodeTree} (h : Represents nodes r t)
    (hfuel : t.height < nodes.length) : genCodes ⟨nodes, some r⟩ = setCodes [] t.codes emptyCodes := by
  cases h with
  | leaf h => simp [genCodes, h, CodeTree.codes, setCodes]
  | node h hl hr =>
    simp only [genCodes, h]
    exact walk_eq_setCodes (.node h hl hr) hfuel [] emptyCodes

/-! ## What a completing `BUILD` leaves behind -/

/-- The tree built from a table with something counted: where it stands and what its leaves are (41_tree_builder.md
R110). -/
theorem buildTree_represents {freq : Vector Word 256} {tree : Tree} (h : buildTree freq = some tree)
    (hne : countedBytes freq ≠ []) : ∃ t, tree.root = some (BitVec.ofNat 9 (tree.nodes.length - 1)) ∧
      tree.nodes.length = 2 * distinctBytes freq - 1 ∧
      Represents tree.nodes (BitVec.ofNat 9 (tree.nodes.length - 1)) t ∧ t.bytes.Perm (countedBytes freq) := by
  obtain ⟨nodes, e, hbuild, hforest⟩ := buildTree_of_counted hne
  obtain rfl : tree = ⟨nodes, some e.id⟩ := Option.some.inj (h.symm.trans hbuild)
  have hid : e.id = BitVec.ofNat 9 (nodes.length - 1) := by simpa using hforest.newest
  have hsize := hforest.size
  obtain ⟨ts, hts, hbytes⟩ := hforest.trees
  obtain _ | ⟨ht, ⟨⟩⟩ := hts
  next t =>
  refine ⟨t, by rw [hid], ?_, by rwa [← hid], by simpa using hbytes⟩
  rw [← countedBytes_length]
  simp only [List.length_singleton] at hsize ⊢
  omega

/-- `BuildTree` always succeeds: no pop finds the queue empty (60_exceptions.md R166). -/
theorem buildTree_succeeds (freq : Vector Word 256) : ∃ tree, buildTree freq = some tree := by
  by_cases hne : countedBytes freq = []
  · exact ⟨_, buildTree_of_nothing_counted hne⟩
  · obtain ⟨nodes, e, hbuild, -⟩ := buildTree_of_counted hne
    exact ⟨_, hbuild⟩

theorem distinctBytes_le (freq : Vector Word 256) : distinctBytes freq ≤ 256 :=
  countedBytes_length freq ▸ countedBytes_length_le freq

/-- With something counted, the code table of a built tree is that of some tree whose leaves are the counted byte
values. -/
theorem genCodes_of_buildTree {freq : Vector Word 256} {tree : Tree} (h : buildTree freq = some tree)
    (hne : countedBytes freq ≠ []) :
    ∃ t : CodeTree, genCodes tree = setCodes [] t.codes emptyCodes ∧ t.bytes.Perm (countedBytes freq) := by
  obtain ⟨t, hroot, hsize, hrep, hbytes⟩ := buildTree_represents h hne
  obtain ⟨nodes, root⟩ := tree
  have hheight := t.height_lt_bytes_length
  rw [hbytes.length_eq, countedBytes_length] at hheight
  simp only at hroot hsize
  subst hroot
  exact ⟨t, genCodes_eq_setCodes hrep (by omega), hbytes⟩

theorem codeOf_genCodes_of_uncounted {freq : Vector Word 256} {tree : Tree} (h : buildTree freq = some tree) {b : Byte}
    (hb : freqOf freq b = 0#32) : codeOf (genCodes tree) b = [] := by
  by_cases hne : countedBytes freq = []
  · obtain rfl : tree = ⟨[], none⟩ := Option.some.inj (h.symm.trans (buildTree_of_nothing_counted hne))
    exact codeOf_emptyCodes b
  · obtain ⟨t, ht, hbytes⟩ := genCodes_of_buildTree h hne
    have hnot : b ∉ t.codes.map Prod.fst := by simp [hbytes.mem_iff, mem_countedBytes, hb]
    rw [ht, codeOf_setCodes_of_notMem [] _ hnot, codeOf_emptyCodes]

/-- A counted byte value gets a code that is not empty and, for `N` byte values, no longer than `N - 1` bits, or 1 bit
for `N = 1` (41_tree_builder.md R112, 42_code_table.md R120 item 3). -/
theorem codeOf_genCodes_of_counted {freq : Vector Word 256} {tree : Tree} (h : buildTree freq = some tree) {b : Byte}
    (hb : freqOf freq b ≠ 0#32) :
    codeOf (genCodes tree) b ≠ [] ∧ (codeOf (genCodes tree) b).length ≤ max 1 (distinctBytes freq - 1) := by
  have hmem : b ∈ countedBytes freq := mem_countedBytes.mpr hb
  obtain ⟨t, ht, hbytes⟩ := genCodes_of_buildTree h (List.ne_nil_of_mem hmem)
  have hnodup : (t.codes.map Prod.fst).Nodup := by
    rw [t.codes_map_fst]
    exact hbytes.nodup_iff.mpr (countedBytes_nodup freq)
  obtain ⟨⟨_, p⟩, hp, rfl⟩ := List.mem_map.mp (t.codes_map_fst ▸ hbytes.mem_iff.mpr hmem : b ∈ t.codes.map Prod.fst)
  rw [ht, codeOf_setCodes_of_mem [] _ hnodup hp, List.nil_append, ← countedBytes_length, ← hbytes.length_eq]
  exact ⟨CodeTree.codes_ne_nil hp, CodeTree.codes_length_le hp⟩

/-- Exactly the counted byte values get a code (42_code_table.md R117). -/
theorem codeOf_genCodes_ne_nil_iff {freq : Vector Word 256} {tree : Tree} (h : buildTree freq = some tree) (b : Byte) :
    codeOf (genCodes tree) b ≠ [] ↔ freqOf freq b ≠ 0#32 :=
  ⟨mt (codeOf_genCodes_of_uncounted h), fun hb => (codeOf_genCodes_of_counted h hb).1⟩

/-- No code is longer than `MAX_CODE_LEN` (41_tree_builder.md R112). -/
theorem codeOf_genCodes_length_le {freq : Vector Word 256} {tree : Tree} (h : buildTree freq = some tree) (b : Byte) :
    (codeOf (genCodes tree) b).length ≤ Config.maxCodeLen := by
  by_cases hb : freqOf freq b = 0#32
  · simp [codeOf_genCodes_of_uncounted h hb]
  · obtain ⟨-, hle⟩ := codeOf_genCodes_of_counted h hb
    have := distinctBytes_le freq
    simp only [Config.maxCodeLen]
    omega

/-- The arena of a built tree holds at most `NODE_CAP` nodes (10_state.md R27). -/
theorem buildTree_nodes_length_le {freq : Vector Word 256} {tree : Tree} (h : buildTree freq = some tree) :
    tree.nodes.length ≤ Config.nodeCap := by
  by_cases hne : countedBytes freq = []
  · obtain rfl : tree = ⟨[], none⟩ := Option.some.inj (h.symm.trans (buildTree_of_nothing_counted hne))
    simp
  · obtain ⟨-, -, hsize, -⟩ := buildTree_represents h hne
    have := distinctBytes_le freq
    simp only [Config.nodeCap]
    omega

/-- A completing `BUILD` always finds its tree. -/
theorem complete_build (s : State) : ∃ tree, buildTree s.freq = some tree ∧ complete .build s = buildDone tree s := by
  obtain ⟨tree, h⟩ := buildTree_succeeds s.freq
  exact ⟨tree, h, by simp [complete, completeBuild, h]⟩

end Sys2Proof.Machine
end

section
/-! PROOFS. The invariants of 10_state.md R54 and the sizes of the state items, at reset and across every step. -/

namespace Sys2Proof.Machine

/-! ## At reset -/

theorem freqTotal_reset : freqTotal State.reset.freq = 0 := by
  rw [freqTotal, State.reset, Vector.toList_replicate, List.map_replicate, List.sum_replicate]
  rfl

theorem distinctBytes_reset : distinctBytes State.reset.freq = 0 := by
  rw [distinctBytes, State.reset, Vector.toList_replicate, List.filter_replicate_of_neg (by simp)]
  rfl

theorem codeLen_reset (b : Byte) : State.reset.codeLen b = 0 := by
  simp [State.codeLen, State.codeAt, codeOf, State.reset]

theorem bounded_reset : State.reset.Bounded where
  acc := by simp [State.reset]
  outq := by simp [State.reset]
  nodes := by simp [State.reset, State.nnodes]
  code b := by simp [codeLen_reset]
  errCode := by simp [State.reset]
  faultIdle _ := rfl

theorem sequenced_reset : State.reset.Sequenced where
  totals _ := by
    rw [freqTotal_reset, distinctBytes_reset]
    exact ⟨rfl, rfl⟩
  counting _ := ⟨rfl, rfl, codeLen_reset, rfl, rfl, rfl, rfl⟩
  builtEmpty := nofun
  builtTree := nofun
  builtCodes := nofun
  finished := nofun
  pendingBuild := nofun
  pendingPack := nofun

theorem streamModel_reset : StreamModel ⟨[], [], []⟩ State.reset where
  counting _ := ⟨rfl, rfl⟩
  coded := nofun
  done := nofun
  counters _ := ⟨rfl, rfl⟩
  fifo := rfl

/-- Settles O59: with every table and queue empty, each item of the three invariants is immediate. -/
theorem resetMeetsTheInvariants : Obligations.ResetMeetsTheInvariants :=
  ⟨sequenced_reset, bounded_reset, streamModel_reset⟩

/-- `CLEAR` and a reset edge give the items their reset values (45_control.md R150, 70_reset_and_hazards.md R187). -/
theorem clear_sameItems_reset (s : State) : SameItems State.reset (clear s) := rfl

theorem resetHec_sameItems_reset (s : State) : SameItems State.reset (resetHec s) := rfl

theorem Pending.startPhase_ne_fault (p : Pending) : p.startPhase ≠ .fault := by
  cases p <;> nofun

theorem Pending.startPhase_ne_done (p : Pending) : p.startPhase ≠ .done := by
  cases p <;> nofun

/-- `ENCODE` and `FLUSH` are accepted in CODED. -/
theorem Pending.startPhase_of_ne_build {p : Pending} (h : p ≠ .build) : p.startPhase = .coded := by
  cases p with
  | build => exact absurd rfl h
  | encode _ | flush => rfl

@[simp] theorem complete_encode (b : Byte) (s : State) : complete (.encode b) s = completeEncode b s := rfl

@[simp] theorem complete_flush (s : State) : complete .flush s = completeFlush s := rfl

/-! ## The sizes -/

theorem SameItems.codeLen {s t : State} (h : SameItems s t) (b : Byte) : t.codeLen b = s.codeLen b := by
  simp [State.codeLen, State.codeAt, h.code]

theorem SameItems.freqAt {s t : State} (h : SameItems s t) (b : Byte) : t.freqAt b = s.freqAt b := by
  simp [State.freqAt, h.freq]

theorem SameItems.nnodes {s t : State} (h : SameItems s t) : t.nnodes = s.nnodes := by
  simp [State.nnodes, h.nodes]

namespace State.Bounded

variable {s t : State}

theorem of_sameItems (h : s.Bounded) (hi : SameItems s t) (hq : t.outq.length ≤ s.outq.length) : t.Bounded where
  acc := hi.acc ▸ h.acc
  outq := hq.trans h.outq
  nodes := hi.nnodes ▸ h.nodes
  code b := hi.codeLen b ▸ h.code b
  errCode := by rw [hi.errCode, hi.phase, h.errCode]
  faultIdle hf := hi.pending.trans (h.faultIdle (hi.phase ▸ hf))

theorem of_commandEffect {w : Word} (h : s.Bounded) (ht : CommandEffect w s t) : t.Bounded := by
  cases ht with
  | ignored _ => exact h
  | cleared _ => exact bounded_reset.of_sameItems (clear_sameItems_reset s) (Nat.zero_le _)
  | faulted code hcode _ =>
    exact {
      acc := h.acc
      outq := h.outq
      nodes := h.nodes
      code := h.code
      errCode := by simp [hcode]
      faultIdle := fun _ => rfl }
  | counted b _ _ _ _ =>
    exact {
      acc := h.acc
      outq := h.outq
      nodes := h.nodes
      code := h.code
      errCode := h.errCode
      faultIdle := h.faultIdle }
  | accepted p _ hphase _ _ =>
    have hne : s.phase ≠ .fault := hphase ▸ p.startPhase_ne_fault
    exact {
      acc := h.acc
      outq := h.outq
      nodes := h.nodes
      code := h.code
      errCode := h.errCode
      faultIdle := fun hf => absurd hf hne }

/-- A command that completes is not pending in FAULT. -/
theorem errCode_of_pending {p : Pending} (h : s.Bounded) (hp : s.pending = some p) : s.errCode = .none :=
  h.errCode.mpr fun hf => by simp [h.faultIdle hf] at hp

theorem complete {p : Pending} (h : s.Bounded) (hp : s.pending = some p)
    (hready : readyAt Config.outDepth p s = true) : (complete p s).Bounded := by
  have herr := h.errCode_of_pending hp
  have hphase := h.errCode.mp herr
  cases p with
  | build =>
    obtain ⟨tree, htree, hc⟩ := complete_build s
    rw [hc]
    exact {
      acc := h.acc
      outq := h.outq
      nodes := buildTree_nodes_length_le htree
      code := codeOf_genCodes_length_le htree
      errCode := by simp [herr]
      faultIdle := nofun }
  | encode b =>
    have hroom : s.outq.length + (s.acc.length + (s.codeAt b).length) / 8 ≤ Config.outDepth :=
      of_decide_eq_true hready
    exact {
      acc := by simp; omega
      outq := by simpa using hroom
      nodes := by simpa [nnodes] using h.nodes
      code := by simpa [codeLen, codeAt] using h.code
      errCode := by simp [herr, hphase]
      faultIdle := fun _ => complete_pending _ _ }
  | flush =>
    have hroom : s.acc = [] ∨ s.outq.length < Config.outDepth := by simpa [readyAt, flushReadyAt] using hready
    exact {
      acc := by simp
      outq := by
        rw [complete_flush, completeFlush_outq]
        split
        · exact h.outq
        · next hacc => simpa using hroom.resolve_left hacc
      nodes := by simpa [nnodes] using h.nodes
      code := by simpa [codeLen, codeAt] using h.code
      errCode := by simp [herr]
      faultIdle := fun _ => complete_pending _ _ }

end State.Bounded

/-- Nothing of HEC changes while the turn and the host's operation are taken off. -/
theorem takeTurn_sameItems (s : State) : SameItems s s.takeTurn := rfl

theorem takeOp_sameItems (s : State) : SameItems s s.takeTurn.takeOp := rfl

theorem QuietAccess.outq_length_le {reads : Prop} {s t : State} (h : QuietAccess reads s t) :
    t.outq.length ≤ s.outq.length := by
  obtain ⟨-, hq | ⟨-, x, hq⟩⟩ := h <;> simp [hq]

/-- Settles O57: a step is a reset, a command's effect, a completion with room for its bytes, or a quiet access; each
keeps the sizes. -/
theorem everyStepKeepsBounds : Obligations.EveryStepKeepsBounds := by
  intro s t h hstep
  cases step_effect hstep with
  | reset _ => exact bounded_reset.of_sameItems (resetHec_sameItems_reset _) (Nat.zero_le _)
  | command w _ ht => exact (h.of_sameItems (takeOp_sameItems s) le_rfl).of_commandEffect ht
  | completed p _ hp hready => exact (h.of_sameItems (takeTurn_sameItems s) le_rfl).complete hp hready
  | quiet ht => exact h.of_sameItems ht.sameItems ht.outq_length_le

end Sys2Proof.Machine
end

section
/-! PROOFS. Every step keeps the invariants of 10_state.md R54: the frequency table after a count, and then the
effects of a step one by one. -/

namespace Sys2Proof.Machine

/-! ## The frequency table after one entry has changed -/

/-- Changing an entry of a frequency table changes the total by the difference. -/
theorem freqTotal_set (freq : Vector Word 256) (b : Byte) (v : Word) :
    freqTotal (freq.set (byteIndex b) v) + (freqOf freq b).toNat = freqTotal freq + v.toNat := by
  have hi : (byteIndex b).val < freq.toList.length := by simp
  have hsplit := List.sum_take_add_sum_drop (freq.toList.map BitVec.toNat) (byteIndex b).val
  rw [← List.map_drop, List.drop_eq_getElem_cons hi] at hsplit
  have hget : freq.toList[(byteIndex b).val] = freqOf freq b := by simp [freqOf]
  rw [freqTotal, Vector.toList_set, List.map_set, List.sum_set]
  simp only [hget, List.map_cons, List.sum_cons, List.length_map, hi, if_true, ← List.map_drop] at hsplit ⊢
  rw [freqTotal]
  omega

theorem distinctBytes_eq_countP (freq : Vector Word 256) :
    distinctBytes freq = freq.toList.countP fun w => decide (w ≠ 0#32) :=
  List.countP_eq_length_filter.symm

/-- Counting one occurrence adds one to the number of counted byte values where the byte is new. -/
theorem distinctBytes_set (freq : Vector Word 256) (b : Byte) {v : Word} (hv : v ≠ 0#32) :
    distinctBytes (freq.set (byteIndex b) v) = distinctBytes freq + if freqOf freq b = 0#32 then 1 else 0 := by
  have hi : (byteIndex b).val < freq.toList.length := by simp
  have hget : freq.toList[(byteIndex b).val] = freqOf freq b := by simp [freqOf]
  rw [distinctBytes_eq_countP, Vector.toList_set, List.countP_set hi, hget, ← distinctBytes_eq_countP]
  by_cases hb : freqOf freq b = 0#32
  · simp [hb, hv]
  · have hpos : 0 < distinctBytes freq := countedBytes_length freq ▸ List.length_pos_of_mem (mem_countedBytes.mpr hb)
    simp [hb, hv]
    omega

theorem freqOf_toNat_le_freqTotal (freq : Vector Word 256) (b : Byte) : (freqOf freq b).toNat ≤ freqTotal freq := by
  rw [freqTotal, toList_eq_map_freqOf, List.map_map]
  exact List.le_sum_of_mem (List.mem_map_of_mem (f := BitVec.toNat ∘ freqOf freq) (mem_allBytes b))

/-! ## The effects of a step -/

namespace State.Sequenced

variable {s t : State}

theorem of_sameItems (h : s.Sequenced) (hi : SameItems s t) (hq : s.outq = [] → t.outq = []) : t.Sequenced where
  totals := by
    rw [hi.phase, hi.freq, hi.len, hi.nsym]
    exact h.totals
  counting hc := by
    obtain ⟨hnodes, hroot, hcodes, hacc, houtq, hbitcnt, houtcnt⟩ := h.counting (hi.phase ▸ hc)
    exact ⟨hi.nnodes.trans hnodes, hi.root.trans hroot, fun b => (hi.codeLen b).trans (hcodes b), hi.acc.trans hacc,
      hq houtq, hi.bitcnt.trans hbitcnt, hi.outcnt.trans houtcnt⟩
  builtEmpty := by
    rw [hi.phase, hi.nsym, hi.nnodes, hi.root]
    exact h.builtEmpty
  builtTree := by
    rw [hi.phase, hi.nsym, hi.nnodes, hi.root]
    exact h.builtTree
  builtCodes hb b := by
    rw [hi.codeLen, hi.freqAt]
    exact h.builtCodes (hi.phase ▸ hb) b
  finished := by
    rw [hi.phase, hi.acc, hi.pending]
    exact h.finished
  pendingBuild := by
    rw [hi.phase, hi.pending]
    exact h.pendingBuild
  pendingPack := by
    rw [hi.phase, hi.pending]
    exact h.pendingPack

/-- In FAULT the invariants say only that nothing is pending. -/
theorem of_fault (hf : s.phase = .fault) (hp : s.pending = none) : s.Sequenced where
  totals hn := absurd hf hn
  counting hc := by simp [hf] at hc
  builtEmpty hb := by simp [hf] at hb
  builtTree hb := by simp [hf] at hb
  builtCodes hb := by simp [hf] at hb
  finished hd := by simp [hf] at hd
  pendingBuild hb := by simp [hp] at hb
  pendingPack p hb := by simp [hp] at hb

/-- A command that is pending was accepted in the phase it is still in. -/
theorem phase_of_pending (h : s.Sequenced) {p : Pending} (hp : s.pending = some p) : s.phase = p.startPhase := by
  cases p with
  | build => exact h.pendingBuild hp
  | encode b => exact h.pendingPack _ hp nofun
  | flush => exact h.pendingPack _ hp nofun

/-- Counting a byte below the maximum of `LEN`: neither `FREQ[b]` nor `NSYM` wraps, so both sums stay right. -/
theorem totals_countByte (h : s.Sequenced) (b : Byte) (hphase : s.phase = .count) (hlen : s.len ≠ lenMax) :
    freqTotal (countByte b s).freq = (countByte b s).len.toNat ∧
      (countByte b s).nsym.toNat = distinctBytes (countByte b s).freq := by
  obtain ⟨htotal, hnsym⟩ := h.totals (by simp [hphase])
  have hmax : s.len.toNat < 2 ^ 32 - 1 := by
    have := s.len.isLt
    have : s.len.toNat ≠ 2 ^ 32 - 1 := fun e => hlen (BitVec.eq_of_toNat_eq (by simpa [lenMax] using e))
    omega
  have hle : (s.freqAt b).toNat ≤ freqTotal s.freq := freqOf_toNat_le_freqTotal s.freq b
  have hfreq : (s.freqAt b + 1#32).toNat = (s.freqAt b).toNat + 1 := by
    rw [BitVec.toNat_add, BitVec.toNat_ofNat]
    omega
  have hset : freqTotal (s.freq.set (byteIndex b) (s.freqAt b + 1#32)) + (s.freqAt b).toNat =
      freqTotal s.freq + (s.freqAt b + 1#32).toNat := freqTotal_set s.freq b _
  have hdistinct : distinctBytes (s.freq.set (byteIndex b) (s.freqAt b + 1#32)) =
      distinctBytes s.freq + if s.freqAt b = 0#32 then 1 else 0 :=
    distinctBytes_set s.freq b fun e => by simp [e] at hfreq
  have hbound := distinctBytes_le s.freq
  rw [countByte_freq, countByte_len, countByte_nsym, hdistinct, ← hnsym]
  constructor
  · rw [BitVec.toNat_add, BitVec.toNat_ofNat]
    omega
  · by_cases hb : s.freqAt b = 0#32
    · rw [if_pos hb, if_pos hb, BitVec.toNat_add, BitVec.toNat_ofNat]
      omega
    · rw [if_neg hb, if_neg hb, Nat.add_zero]

theorem of_commandEffect {w : Word} (h : s.Sequenced) (ht : CommandEffect w s t) : t.Sequenced := by
  cases ht with
  | ignored _ => exact h
  | cleared _ => exact sequenced_reset.of_sameItems (clear_sameItems_reset s) fun _ => rfl
  | faulted code _ _ => exact of_fault rfl rfl
  | counted b _ hphase hpending hlen =>
    exact {
      totals := fun _ => h.totals_countByte b hphase hlen
      counting := h.counting
      builtEmpty := fun hb => by simp [hphase] at hb
      builtTree := fun hb => by simp [hphase] at hb
      builtCodes := fun hb => by simp [hphase] at hb
      finished := h.finished
      pendingBuild := h.pendingBuild
      pendingPack := h.pendingPack }
  | accepted p _ hphase hpending _ =>
    exact {
      totals := h.totals
      counting := h.counting
      builtEmpty := h.builtEmpty
      builtTree := h.builtTree
      builtCodes := h.builtCodes
      finished := fun hd => absurd (hphase.symm.trans hd) p.startPhase_ne_done
      pendingBuild := fun hb => by
        cases hb
        exact hphase
      pendingPack := fun q hb hne => by
        obtain rfl : p = q := by simpa using hb
        exact hphase.trans (Pending.startPhase_of_ne_build hne) }

/-- A completing `BUILD` leaves the tree and the codes of the table counted. -/
theorem buildDone (h : s.Sequenced) (hphase : s.phase = .count) {tree : Tree} (htree : buildTree s.freq = some tree) :
    (buildDone tree s).Sequenced := by
  obtain ⟨htotal, hnsym⟩ := h.totals (by simp [hphase])
  have hcounted : s.nsym = 0#9 ↔ countedBytes s.freq = [] := by
    rw [← List.length_eq_zero_iff, countedBytes_length, ← hnsym]
    exact BitVec.toNat_inj (y := 0#9) |>.symm
  exact {
    totals := fun _ => ⟨htotal, hnsym⟩
    counting := nofun
    builtEmpty := fun _ hz => by
      obtain rfl : tree = ⟨[], none⟩ :=
        Option.some.inj (htree.symm.trans (buildTree_of_nothing_counted (hcounted.mp hz)))
      exact ⟨rfl, rfl⟩
    builtTree := fun _ hz => by
      obtain ⟨_, hroot, hsize, -⟩ := buildTree_represents htree (mt hcounted.mpr hz)
      exact ⟨by rw [buildDone_nsym, hnsym]; exact hsize, hroot⟩
    builtCodes := fun _ b => by
      exact (not_congr List.length_eq_zero_iff).trans (codeOf_genCodes_ne_nil_iff htree b)
    finished := nofun
    pendingBuild := nofun
    pendingPack := nofun }

/-- What packs bits in CODED keeps the table, the tree and the codes, and leaves nothing pending. -/
theorem of_coded (h : s.Sequenced) (hcoded : s.phase = .coded) (hphase : t.phase = .coded ∨ t.phase = .done)
    (hfreq : t.freq = s.freq) (hlen : t.len = s.len) (hnsym : t.nsym = s.nsym) (hnodes : t.nodes = s.nodes)
    (hroot : t.root = s.root) (hcode : t.code = s.code) (hpending : t.pending = none)
    (hdone : t.phase = .done → t.acc = []) : t.Sequenced where
  totals _ := by
    rw [hfreq, hlen, hnsym]
    exact h.totals (by simp [hcoded])
  counting hc := by simp [hc] at hphase
  builtEmpty _ := by
    rw [hnsym, nnodes, hnodes, hroot]
    exact h.builtEmpty (.inl hcoded)
  builtTree _ := by
    rw [hnsym, nnodes, hnodes, hroot]
    exact h.builtTree (.inl hcoded)
  builtCodes _ b := by
    rw [codeLen, codeAt, hcode, freqAt, hfreq]
    exact h.builtCodes (.inl hcoded) b
  finished hd := ⟨hdone hd, hpending⟩
  pendingBuild hb := by simp [hpending] at hb
  pendingPack p hb := by simp [hpending] at hb

theorem complete {p : Pending} (h : s.Sequenced) (hp : s.pending = some p) : (complete p s).Sequenced := by
  have hphase := h.phase_of_pending hp
  cases p with
  | build =>
    obtain ⟨tree, htree, hc⟩ := complete_build s
    rw [hc]
    exact h.buildDone hphase htree
  | encode b =>
    have hcoded : s.phase = .coded := hphase
    apply h.of_coded hcoded <;> simp [hcoded]
  | flush => apply h.of_coded hphase <;> simp

end State.Sequenced

/-- Settles O56: a step is a reset, a command's effect, the completion of a command in the phase it was accepted in,
or a quiet access; each keeps the invariants. -/
theorem everyStepKeepsSequencing : Obligations.EveryStepKeepsSequencing := by
  intro s t h hstep
  cases step_effect hstep with
  | reset _ => exact sequenced_reset.of_sameItems (resetHec_sameItems_reset _) fun _ => rfl
  | command w _ ht => exact (h.of_sameItems (takeOp_sameItems s) id).of_commandEffect ht
  | completed p _ hp _ => exact (h.of_sameItems (takeTurn_sameItems s) id).complete hp
  | quiet ht =>
    exact h.of_sameItems ht.sameItems fun hq => List.length_eq_zero_iff.mp (by simpa [hq] using ht.outq_length_le)

end Sys2Proof.Machine
end

section
/-! PROOFS. Which step changes which item: the phase (10_state.md R22), the tables and `BITCNT` (R24 to R29, R32),
and the output FIFO (R31). -/

namespace Sys2Proof.Machine

theorem clearsNow_of_reset {s : State} (h : s.mover = .rst) : s.clearsNow = true := by
  simp [State.clearsNow, h]

theorem clearsNow_of_clearWord {s : State} (h : s.commandNow = some clearWord) : s.clearsNow = true := by
  simp [State.clearsNow, h]

/-- Settles O21: of the effects of a step, only `CLEAR`, a reset, a fault, and the completions of `BUILD` and `FLUSH`
write `PHASE`, and the two were accepted in the phase that they leave. -/
theorem phaseTransitions : Obligations.PhaseTransitions := by
  refine ⟨rfl, rfl, rfl, rfl, rfl, fun _ => rfl, fun s t h hstep hne => ?_⟩
  cases step_effect hstep with
  | reset hm => exact .inr (.inr (.inr ⟨rfl, clearsNow_of_reset hm⟩))
  | command w hw ht =>
    cases ht with
    | cleared hclear => exact .inr (.inr (.inr ⟨rfl, clearsNow_of_clearWord (hclear ▸ hw)⟩))
    | faulted code hcode _ => exact .inr (.inr (.inl ⟨rfl, hcode⟩))
    | ignored _ | counted _ _ _ _ _ | accepted _ _ _ _ _ => exact absurd rfl hne
  | completed p hc hp _ =>
    have hphase := h.phase_of_pending hp
    cases p with
    | build =>
      obtain ⟨tree, -, hbuild⟩ := complete_build s.takeTurn
      exact .inl ⟨hphase, by rw [hbuild]; rfl, hc⟩
    | encode b => exact absurd (by simp) hne
    | flush => exact .inr (.inl ⟨hphase, by simp, hc⟩)
  | quiet ht => exact absurd ht.sameItems.phase hne

/-- Settles O51: only a counting `COUNT` writes the frequency table, only a completing `ENCODE` writes `BITCNT`, and
only a completing `BUILD` writes the tree and the codes. -/
theorem tablesHaveOneWriter : Obligations.TablesHaveOneWriter := by
  intro s t hstep hclear
  cases step_effect hstep with
  | reset hm => simp [clearsNow_of_reset hm] at hclear
  | command w hw ht =>
    cases ht with
    | cleared hcw => simp [clearsNow_of_clearWord (hcw ▸ hw)] at hclear
    | counted b hb hphase _ _ =>
      exact ⟨fun _ => ⟨hphase, b, hb ▸ hw⟩, by simp [State.takeOp], by simp [State.takeOp]⟩
    | ignored _ | faulted _ _ _ | accepted _ _ _ _ _ => simp [State.takeOp]
  | completed p hc _ _ =>
    cases p with
    | build =>
      obtain ⟨tree, -, hbuild⟩ := complete_build s.takeTurn
      simp [hbuild, hc]
    | encode b => simp [hc]
    | flush => simp
  | quiet ht =>
    have hi := ht.sameItems
    simp [hi.freq, hi.len, hi.nsym, hi.bitcnt, hi.nodes, hi.root, hi.code]

/-- Settles O52: `OUTQ` takes bytes from a completing `ENCODE` or `FLUSH`, at its tail, and otherwise changes only by
a read of `OUT_DATA`. -/
theorem outputQueueIsFifo : Obligations.OutputQueueIsFifo := by
  intro s t hstep hclear
  cases step_effect hstep with
  | reset hm => simp [clearsNow_of_reset hm] at hclear
  | command w hw ht =>
    cases ht with
    | cleared hcw => simp [clearsNow_of_clearWord (hcw ▸ hw)] at hclear
    | ignored _ | counted _ _ _ _ _ | faulted _ _ _ | accepted _ _ _ _ _ => exact .inl rfl
  | completed p hc _ _ =>
    cases p with
    | build =>
      obtain ⟨tree, -, hbuild⟩ := complete_build s.takeTurn
      exact .inl (by rw [hbuild]; rfl)
    | encode b => exact .inr (.inl ⟨wholeBytes (s.acc ++ s.codeAt b), completeEncode_outq b _, .inr ⟨b, hc⟩⟩)
    | flush =>
      rw [complete_flush, completeFlush_outq]
      split
      · exact .inl rfl
      · exact .inr (.inl ⟨[pack8 s.acc], rfl, .inl hc⟩)
  | quiet ht => exact ht.2.imp_right fun ⟨hr, x, hx⟩ => .inr ⟨x, hx, hr⟩

end Sys2Proof.Machine
end

section
/-! PROOFS. What each register shows, field by field (10_state.md R37 to R52), and the writes of the writable ones. -/

namespace Sys2Proof.Machine

/-! ## Reads and writes -/

/-- A register that is exact in every phase. -/
theorem memRead_exact {r : Reg} (s : State) (ho : r ≠ .outData) (hr : r.openInFault = false) :
    memRead r.offset 4 s = .next (s.view r, s) := by
  simp [memRead_reg, readReg, ho, hr]

/-- Outside FAULT every register but `OUT_DATA` is exact (60_exceptions.md R164). -/
theorem memRead_outside_fault {s : State} (r : Reg) (ho : r ≠ .outData) (hf : s.phase ≠ .fault) :
    memRead r.offset 4 s = .next (s.view r, s) := by
  simp [memRead_reg, readReg, ho, hf]

/-- Settles O40: each of the three registers is found at its offset, and its write is one field's. -/
theorem writableRegistersTakeWrites : Obligations.WritableRegistersTakeWrites := fun s v =>
  ⟨memWrite_reg .intStatus v s, memWrite_reg .intEn v s, memWrite_reg .sel v s⟩

/-! ## Fields side by side -/

/-- Zero bits in front of a field only make it wider. -/
theorem zero_append_eq_setWidth {m n : Nat} (x : BitVec n) : 0#m ++ x = x.setWidth (m + n) := by
  rw [← BitVec.setWidth_eq (0#m ++ x), BitVec.setWidth_append_eq_shiftLeft_setWidth_or]
  simp

/-- `NODE_RD` of a leaf (10_state.md R52). -/
theorem nodeWord_leaf (b : Byte) (w : Word) : nodeWord (some (.leaf b w)) = 0x80000000#32 ||| b.setWidth 32 := by
  have h := BitVec.setWidth_append_eq_shiftLeft_setWidth_or (w'' := 32) (b := 1#1 ++ 0#1 ++ 0#22) (b' := b)
  rwa [BitVec.setWidth_eq] at h

/-- `NODE_RD` of an internal node (10_state.md R52). -/
theorem nodeWord_internal (l r : NodeId) (w : Word) :
    nodeWord (some (.internal l r w)) = 0xC0000000#32 ||| (r.setWidth 32 <<< 17) ||| (l.setWidth 32 <<< 8) := by
  have h := BitVec.setWidth_append_append_append_eq_shiftLeft_setWidth_or (w'''' := 32)
    (b := 1#1 ++ 1#1 ++ 0#4) (b' := r) (b'' := l) (b''' := 0#8)
  rw [BitVec.setWidth_eq, BitVec.setWidth_zero, BitVec.or_zero] at h
  exact h

/-- `ROOT` where it shows a root (10_state.md R46). -/
theorem rootWord_of_shown {s : State} {r : NodeId} (h : s.shownRoot = some r) :
    s.rootWord = 0x80000000#32 ||| r.setWidth 32 := by
  have hw := BitVec.setWidth_append_eq_shiftLeft_setWidth_or (w'' := 32) (b := 1#1 ++ 0#22) (b' := r)
  rw [BitVec.setWidth_eq] at hw
  rw [State.rootWord, h]
  exact hw

theorem rootWord_of_hidden {s : State} (h : s.shownRoot = none) : s.rootWord = 0#32 := by
  rw [State.rootWord, h]

/-- `PARAM` for a depth that fits its field (10_state.md R37). -/
theorem paramWordAt_eq_add {depth : Nat} (h : depth ≤ 255) :
    paramWordAt depth = 0x01FFFF00#32 + BitVec.ofNat 32 depth := by
  apply BitVec.eq_of_toNat_eq
  change BitVec.toNat (w := 24 + 8) (0x01FFFF#24 ++ BitVec.ofNat 8 depth) = _
  rw [BitVec.toNat_append, ← Nat.shiftLeft_add_eq_or_of_lt (BitVec.isLt _)]
  simp
  omega

/-- Settles O39: these registers are exact in every phase, and each shows its item as it is or behind zero bits. -/
theorem plainRegistersShowTheirItems : Obligations.PlainRegistersShowTheirItems := by
  obtain ⟨hmin, hmax⟩ := outDepth_bounds
  refine ⟨fun s => ⟨memRead_exact (r := .id) s nofun rfl, memRead_exact (r := .cmd) s nofun rfl,
    memRead_exact (r := .errCmd) s nofun rfl, ?_, memRead_exact (r := .len) s nofun rfl,
    memRead_exact (r := .bitcntLo) s nofun rfl, memRead_exact (r := .bitcntHi) s nofun rfl,
    memRead_exact (r := .outcnt) s nofun rfl, ?_, ?_, ?_, ?_⟩, hmin, hmax, rfl⟩
  · rw [← zero_append_eq_setWidth (m := 23)]
    exact memRead_exact (r := .nsym) s nofun rfl
  · rw [← zero_append_eq_setWidth (m := 29)]
    exact memRead_exact (r := .intStatus) s nofun rfl
  · rw [← zero_append_eq_setWidth (m := 29)]
    exact memRead_exact (r := .intEn) s nofun rfl
  · rw [← zero_append_eq_setWidth (m := 23)]
    exact memRead_exact (r := .sel) s nofun rfl
  · rw [← paramWordAt_eq_add hmax]
    exact memRead_exact (r := .param) s nofun rfl

/-- Settles O38: outside FAULT the readbacks show the selected entry, field beside field, and `ROOT` the root where
there is one to show. -/
theorem tableReadbacks : Obligations.TableReadbacks := by
  intro s
  refine ⟨memRead_exact (r := .freqRd) s nofun rfl, fun hf => ?_⟩
  have hnode : memRead 0x04C 4 s = .next (nodeWord s.nodes[s.sel.toNat]?, s) :=
    memRead_outside_fault .nodeRd nofun hf
  have hweight : memRead 0x050 4 s = .next (nodeWeightWord s.nodes[s.sel.toNat]?, s) :=
    memRead_outside_fault .nodeWeightRd nofun hf
  have hroot : memRead 0x024 4 s = .next (s.rootWord, s) := memRead_outside_fault .root nofun hf
  rw [hnode, hweight, hroot]
  refine ⟨fun (hlen : s.codeLen s.selByte ≤ 255) => ⟨_, memRead_outside_fault .codeLenRd nofun hf, ?_⟩,
    fun b w hn => ?_, fun l r w hn => ?_, fun hn => ?_, fun r hr hphase => ?_, fun hno => ?_⟩
  · change BitVec.toNat (w := 24 + 8) (0#24 ++ BitVec.ofNat 8 (s.codeLen s.selByte)) = s.codeLen s.selByte
    rw [BitVec.toNat_append]
    simpa using Nat.lt_succ_of_le hlen
  · rw [hn, nodeWord_leaf]
    exact ⟨rfl, rfl⟩
  · rw [hn, nodeWord_internal]
    exact ⟨rfl, rfl⟩
  · rw [List.getElem?_eq_none hn]
    exact ⟨rfl, rfl⟩
  · rw [rootWord_of_shown (by rw [State.shownRoot, if_pos hphase, hr])]
  · rw [rootWord_of_hidden]
    obtain hno | hno := hno <;> simp [State.shownRoot, hno]

end Sys2Proof.Machine
end

section
/-! PROOFS. The fields of `STATUS` and `PACK` (10_state.md R39, R48). -/

namespace Sys2Proof.Machine

/-! ## `STATUS` -/

/-- `STATUS` with the widths of its fields in sight, from bit 31 down (10_state.md R39). -/
theorem statusWord_extractLsb' (s : State) (start len : Nat) :
    s.statusWord.extractLsb' start len = BitVec.extractLsb' (n := 8 + 8 + 4 + 4 + 4 + 2 + 1 + 1) start len
      (0#8 ++ BitVec.ofNat 8 s.outq.length ++ 0#4 ++ s.errCode.value ++ 0#4 ++ s.phase.value ++
        BitVec.ofBool s.err ++ BitVec.ofBool s.busy) := rfl

theorem statusWord_phase (s : State) : s.statusWord.extractLsb' 2 2 = s.phase.value := by
  rw [statusWord_extractLsb']
  simp (disch := decide) only [BitVec.extractLsb'_append_eq_of_le, BitVec.extractLsb'_append_eq_of_add_le]
  exact BitVec.extractLsb'_eq_self

theorem statusWord_errCode (s : State) : s.statusWord.extractLsb' 8 4 = s.errCode.value := by
  rw [statusWord_extractLsb']
  simp (disch := decide) only [BitVec.extractLsb'_append_eq_of_le, BitVec.extractLsb'_append_eq_of_add_le]
  exact BitVec.extractLsb'_eq_self

theorem statusWord_outLevel (s : State) : s.statusWord.extractLsb' 16 8 = BitVec.ofNat 8 s.outq.length := by
  rw [statusWord_extractLsb']
  simp (disch := decide) only [BitVec.extractLsb'_append_eq_of_le, BitVec.extractLsb'_append_eq_of_add_le]
  exact BitVec.extractLsb'_eq_self

/-- The fields between them read 0. -/
theorem statusWord_reserved (s : State) : s.statusWord.extractLsb' 4 4 = 0#4 ∧ s.statusWord.extractLsb' 12 4 = 0#4 ∧
    s.statusWord.extractLsb' 24 8 = 0#8 := by
  simp only [statusWord_extractLsb']
  simp (disch := decide) only [BitVec.extractLsb'_append_eq_of_le, BitVec.extractLsb'_append_eq_of_add_le]
  exact ⟨rfl, rfl, rfl⟩

theorem statusWord_busy (s : State) : s.statusWord.getLsbD 0 = s.busy := by
  change BitVec.getLsbD (w := 8 + 8 + 4 + 4 + 4 + 2 + 1 + 1) (_ ++ BitVec.ofBool s.busy) 0 = _
  rw [BitVec.getLsbD_append]
  simp

theorem statusWord_err (s : State) : s.statusWord.getLsbD 1 = s.err := by
  change BitVec.getLsbD (w := 8 + 8 + 4 + 4 + 4 + 2 + 1 + 1) (_ ++ BitVec.ofBool s.err ++ BitVec.ofBool s.busy) 1 = _
  rw [BitVec.getLsbD_append, BitVec.getLsbD_append]
  simp

/-- Settles O36: each field of `STATUS` is cut out of the word, and `OUT_LEVEL` loses nothing below 256. -/
theorem statusFields : Obligations.StatusFields := by
  refine ⟨fun s hlen => ?_, rfl, rfl, rfl, rfl, rfl, rfl, rfl, rfl⟩
  obtain ⟨hlow, hmid, hhigh⟩ := statusWord_reserved s
  refine ⟨memRead_exact (r := .status) s nofun rfl, ?_, ?_, statusWord_phase s, hlow, statusWord_errCode s, hmid, ?_,
    hhigh⟩
  · rw [statusWord_busy, State.busy, Option.isSome_iff_ne_none]
  · rw [statusWord_err, State.err, beq_iff_eq]
  · rw [statusWord_outLevel, BitVec.toNat_ofNat]
    omega

/-! ## `PACK` -/

/-- Bit `j` of the number of a sequence is the bit `j` places before its last (42_code_table.md R118). -/
theorem bitsToNat_testBit (s : Bits) {j : Nat} (hj : j < s.length) :
    (bitsToNat s).testBit j = s.getD (s.length - 1 - j) false := by
  induction s using List.reverseRecOn generalizing j with
  | nil => simp at hj
  | append_singleton s b ih =>
    rw [bitsToNat_append_one]
    cases j with
    | zero => cases b <;> simp [Nat.testBit_zero, Nat.add_mod]
    | succ j =>
      have hj : j < s.length := by simpa using hj
      have hdiv : (2 * bitsToNat s + b.toNat) / 2 = bitsToNat s := by
        have := b.toNat_lt
        omega
      rw [Nat.testBit_succ, hdiv, ih hj, List.length_append, List.length_singleton,
        List.getD_append _ _ _ _ (by omega)]
      congr 1
      omega

/-- The first bits of a sequence stand highest in its padded number. -/
theorem ofNat_padTo_getLsbD {k : Nat} {s : Bits} (h : s.length ≤ k) {j : Nat} (hj : j < k) :
    (BitVec.ofNat k (bitsToNat (padTo k s))).getLsbD j = s.getD (k - 1 - j) false := by
  rw [BitVec.getLsbD_ofNat, bitsToNat_testBit _ (by rwa [padTo_length h]), padTo_length h, padTo_getD]
  simp [hj]

/-- `PACK` with the widths of its fields in sight, from bit 31 down (10_state.md R48). -/
theorem packWord_extractLsb' (s : State) (start len : Nat) :
    s.packWord.extractLsb' start len = BitVec.extractLsb' (n := 17 + 7 + 5 + 3) start len
      (0#17 ++ BitVec.ofNat 7 (bitsToNat (padTo 7 s.acc)) ++ 0#5 ++ BitVec.ofNat 3 s.acc.length) := rfl

theorem packWord_accLen (s : State) : s.packWord.extractLsb' 0 3 = BitVec.ofNat 3 s.acc.length := by
  rw [packWord_extractLsb']
  exact BitVec.extractLsb'_append_eq_right

theorem packWord_accBits (s : State) :
    s.packWord.extractLsb' 8 7 = BitVec.ofNat 7 (bitsToNat (padTo 7 s.acc)) := by
  rw [packWord_extractLsb']
  simp (disch := decide) only [BitVec.extractLsb'_append_eq_of_le, BitVec.extractLsb'_append_eq_of_add_le]
  exact BitVec.extractLsb'_eq_self

theorem packWord_reserved (s : State) : s.packWord.extractLsb' 3 5 = 0#5 ∧ s.packWord.extractLsb' 15 17 = 0#17 := by
  simp only [packWord_extractLsb']
  simp (disch := decide) only [BitVec.extractLsb'_append_eq_of_le, BitVec.extractLsb'_append_eq_of_add_le]
  exact ⟨rfl, rfl⟩

/-- Bit `14 - i` of `PACK` is bit `i` of `ACC`. -/
theorem packWord_acc {s : State} (h : s.acc.length ≤ 7) {i : Nat} (hi : i < 7) :
    s.packWord.getLsbD (14 - i) = s.acc.getD i false := by
  have hbit := congrArg (BitVec.getLsbD · (6 - i)) (packWord_accBits s)
  simp only [BitVec.getLsbD_extractLsb'] at hbit
  rw [ofNat_padTo_getLsbD h (by omega), decide_eq_true (by omega), Bool.true_and, show 8 + (6 - i) = 14 - i by omega,
    show 7 - 1 - (6 - i) = i by omega] at hbit
  exact hbit

/-- Bits [14:7] of `PACK` are the byte that `FLUSH` would emit: 7 bits of `ACC` and a 0. -/
theorem packWord_flushByte {s : State} (h : s.acc.length ≤ 7) : s.packWord.extractLsb' 7 8 = pack8 s.acc := by
  apply BitVec.eq_of_getLsbD_eq
  intro j hj
  rw [BitVec.getLsbD_extractLsb', pack8, ofNat_padTo_getLsbD (by omega) hj, decide_eq_true hj, Bool.true_and]
  cases j with
  | zero =>
    have hbit := congrArg (BitVec.getLsbD · 4) (packWord_reserved s).1
    rw [List.getD_eq_default _ _ h]
    simpa [BitVec.getLsbD_extractLsb'] using hbit
  | succ j =>
    rw [← packWord_acc h (i := 8 - 1 - (j + 1)) (by omega)]
    congr 1
    omega

/-- Settles O37: the fields of `PACK` are cut out of the word, and the bits of `ACC` stand in it first bit highest,
as in the byte that `FLUSH` makes of them. -/
theorem packRegisterFields : Obligations.PackRegisterFields := by
  refine ⟨fun s h => ?_, rfl⟩
  obtain ⟨hlow, hhigh⟩ := packWord_reserved s
  refine ⟨memRead_exact (r := .pack) s nofun rfl, ?_, hlow, fun i hi => packWord_acc h hi, hhigh,
    packWord_flushByte h⟩
  rw [packWord_accLen, BitVec.toNat_ofNat]
  omega

end Sys2Proof.Machine
end

section
/-! PROOFS. The bytes of a bit stream, bit by bit (00_scope.md R8, 20_memory.md R68, 43_bit_packer.md R126). -/

namespace Sys2Proof.Machine

theorem chunk_length_le (s : Bits) (j : Nat) : (chunk s j).length ≤ 8 := List.length_take_le _ _

/-- Bit `k` of chunk `j` is bit `8j + k` of the stream, and both read 0 past the stream's end. -/
theorem chunk_getD (s : Bits) (j : Nat) {k : Nat} (hk : k < 8) :
    (chunk s j).getD k false = s.getD (8 * j + k) false := by
  simp [chunk, List.getElem?_take_of_lt hk]

/-- Bit `k` of chunk `j`, counted in stream order, is bit `7 - k` of its byte (00_scope.md R8). -/
theorem pack8_chunk_getLsbD (s : Bits) (j : Nat) {k : Nat} (hk : k < 8) :
    (pack8 (chunk s j)).getLsbD (7 - k) = s.getD (8 * j + k) false := by
  rw [pack8, ofNat_padTo_getLsbD (chunk_length_le s j) (by omega), show 8 - 1 - (7 - k) = k by omega, chunk_getD s j hk]

/-- The bits that fill no whole chunk are the chunk after the whole ones. -/
theorem leftover_eq_chunk (s : Bits) : leftover s = chunk s (s.length / 8) := by
  have hlt : (leftover s).length ≤ 8 := by
    rw [leftover_length]
    omega
  exact (List.take_of_length_le hlt).symm

/-- The packed output is one byte for each chunk, the short last one among them (43_bit_packer.md R126). -/
theorem packedOutput_eq_map_chunk (s : Bits) :
    packedOutput s = (List.range ((s.length + 7) / 8)).map fun j => pack8 (chunk s j) := by
  unfold packedOutput wholeBytes
  split
  · next hnone =>
    have hmod : s.length % 8 = 0 := by rw [← leftover_length, hnone, List.length_nil]
    rw [List.append_nil, show (s.length + 7) / 8 = s.length / 8 by omega]
  · next hsome =>
    have hmod : 0 < s.length % 8 := by
      rw [← leftover_length]
      exact List.length_pos_of_ne_nil hsome
    rw [leftover_eq_chunk, show (s.length + 7) / 8 = s.length / 8 + 1 by omega, List.range_succ, List.map_append,
      List.map_singleton]

/-- Settles O34: byte `i / 8` of the output is chunk `i / 8` packed, and packing puts bit `k` of a chunk at position
`7 - k`. -/
theorem streamBitsLandMsbFirst : Obligations.StreamBitsLandMsbFirst := by
  intro s
  rw [packedOutput_eq_map_chunk]
  refine ⟨by simp, fun i hi => ⟨pack8 (chunk s (i / 8)), ?_, ?_⟩⟩
  · rw [List.getElem?_map, List.getElem?_range (by omega), Option.map_some]
  · rw [pack8_chunk_getLsbD s _ (Nat.mod_lt i (by omega)), Nat.div_add_mod]

end Sys2Proof.Machine
end

section
/-! PROOFS. What one bus access answers and leaves unchanged (20_memory.md R60 to R67), and the step of the host that
makes it (R62, R72). -/

namespace Sys2Proof.Machine

/-! ## Accesses that stop (20_memory.md R60, R66) -/

theorem expressible_iff {off n : Nat} : expressible off n = true ↔ n = 4 ∧ off % 4 = 0 := by
  simp [expressible]

theorem memRead_inexpressible {off n : Nat} (s : State) (h : expressible off n = false) :
    memRead off n s = .refused (.unsupportedAccess off n) := if_pos h

theorem memWrite_inexpressible {off n : Nat} (v : Word) (s : State) (h : expressible off n = false) :
    memWrite off n v s = .refused (.unsupportedAccess off n) := if_pos h

theorem memRead_outside_window {off n : Nat} (s : State) (he : expressible off n = true)
    (hw : Config.windowSize ≤ off) : memRead off n s = .fault (.outsideWindow off) := by
  simp [memRead, he, hw]

theorem memWrite_outside_window {off n : Nat} (v : Word) (s : State) (he : expressible off n = true)
    (hw : Config.windowSize ≤ off) : memWrite off n v s = .fault (.outsideWindow off) := by
  simp [memWrite, he, hw]

/-- Settles O42: width and alignment are tested first, and then the window. -/
theorem inexpressibleAccessesStop : Obligations.InexpressibleAccessesStop := by
  refine fun off n v s => ⟨fun h => ?_, fun hn hal hw => ?_⟩
  · have he : expressible off n = false := by
      rw [← Bool.not_eq_true, expressible_iff]
      omega
    exact ⟨memRead_inexpressible s he, memWrite_inexpressible v s he⟩
  · have he : expressible off n = true := expressible_iff.mpr ⟨hn, hal⟩
    exact ⟨memRead_outside_window s he hw, memWrite_outside_window v s he hw⟩

/-! ## Accesses without an effect (20_memory.md R64, R65) -/

/-- No register stands at a reserved offset. -/
theorem regAt_reserved {off : Nat}
    (h : off = 0x03C ∨ (0x054 ≤ off ∧ off ≤ 0x05C) ∨ (0x080 ≤ off ∧ off ≤ 0xFFC)) : regAt off = none := by
  cases hr : regAt off with
  | none => rfl
  | some r =>
    have hoff := offset_of_regAt hr
    cases r <;> simp only [Reg.offset] at hoff <;> omega

theorem memRead_reserved {off n : Nat} (s : State) (he : expressible off n = true) (hw : off < Config.windowSize)
    (hr : regAt off = none) : memRead off n s = .next (0#32, s) := by
  simp [memRead, he, Nat.not_le.mpr hw, hr]

theorem memWrite_reserved {off n : Nat} (v : Word) (s : State) (he : expressible off n = true)
    (hw : off < Config.windowSize) (hr : regAt off = none) : memWrite off n v s = .next s := by
  simp [memWrite, he, Nat.not_le.mpr hw, hr]

/-- A register that is none of the four writable ones ignores writes. -/
theorem writeReg_readOnly {r : Reg} (v : Word) (s : State) (hcmd : r ≠ .cmd) (hstatus : r ≠ .intStatus)
    (hen : r ≠ .intEn) (hsel : r ≠ .sel) : writeReg r v s = .next s := by
  cases r with
  | cmd => exact absurd rfl hcmd
  | intStatus => exact absurd rfl hstatus
  | intEn => exact absurd rfl hen
  | sel => exact absurd rfl hsel
  | _ => rfl

/-- Settles O41: the map has no register at a reserved offset, only four registers take writes, and `CMD` shows 0. -/
theorem reservedAndReadOnlyAreInert : Obligations.ReservedAndReadOnlyAreInert := by
  refine ⟨fun off v s hal hoff => ?_, fun r v s hcmd hstatus hen hsel => ?_, fun s => ?_⟩
  · have he : expressible off 4 = true := expressible_iff.mpr ⟨rfl, hal⟩
    have hw : off < Config.windowSize := by
      rw [Config.windowSize]
      omega
    have hr := regAt_reserved hoff
    exact ⟨memRead_reserved s he hw hr, memWrite_reserved v s he hw hr⟩
  · rw [memWrite_reg, writeReg_readOnly v s hcmd hstatus hen hsel]
  · exact memRead_exact (r := .cmd) s nofun rfl

/-! ## What a read leaves unchanged (20_memory.md R67) -/

/-- A read of a register changes at most `OUTQ` and the draw counter. -/
theorem readReg_frame (r : Reg) (s : State) : { (readReg r s).2 with outq := s.outq, draws := s.draws } = s := by
  obtain ⟨-, h⟩ | ⟨-, -, -, h⟩ | ⟨-, -, h⟩ := readReg_cases r s
  · obtain ⟨-, h'⟩ | ⟨x, q, -, h'⟩ := readOutData_cases s <;> rw [h, h']
  · rw [h]
  · rw [h]

/-- So does a read of any offset. -/
theorem memRead_frame {off n : Nat} {v : Word} {s t : State} (h : memRead off n s = .next (v, t)) :
    { t with outq := s.outq, draws := s.draws } = s := by
  obtain ⟨-, h'⟩ | ⟨-, -, h'⟩ | ⟨-, -, -, h'⟩ | ⟨r, -, -, -, h'⟩ := memRead_cases off n s <;> rw [h'] at h
  · cases h
  · cases h
  · cases h
    rfl
  · rw [← show (readReg r s).2 = t by rw [Host.Outcome.next.inj h]]
    exact readReg_frame r s

/-- Settles O43: a read of `OUT_DATA` may pop, a read that R164 leaves open draws, and every other read is a view of the
state it leaves as it is. -/
theorem readsChangeOnlyTheOutputQueue : Obligations.ReadsChangeOnlyTheOutputQueue := by
  intro r s t v h
  have hread : readReg r s = (v, t) := by
    rw [memRead_reg] at h
    exact Host.Outcome.next.inj h
  refine ⟨memRead_frame h, fun hr => ?_, fun hr hopen => ?_⟩
  · obtain ⟨-, -, hq⟩ := readReg_keeps_of_ne_outData hr s
    rwa [hread] at hq
  · obtain ⟨ho, -⟩ | ⟨-, hf, ho, -⟩ | ⟨-, -, hview⟩ := readReg_cases r s
    · exact absurd ho hr
    · exact absurd ⟨hf, ho⟩ hopen
    · have ht : t = s := (Prod.ext_iff.mp (hread.symm.trans hview)).2
      subst ht
      exact ⟨rfl, h⟩

/-! ## The host's accesses (20_memory.md R62, R72) -/

theorem step_memWrite {s : State} {off n : Nat} {v : Word} {rest : List HostOp} (hm : s.mover = .host)
    (hp : s.hostProg = .memWrite off n v :: rest) :
    step s = memWrite off n v { s with turns := s.turns.tail, hostProg := rest } := by
  simp [step_of_host hm, hostStep, State.takeTurn, hp]

theorem step_memRead {s : State} {off n : Nat} {name : String} {rest : List HostOp} (hm : s.mover = .host)
    (hp : s.hostProg = .memRead off n name :: rest) :
    step s = hostRead off n name { s with turns := s.turns.tail, hostProg := rest } := by
  simp [step_of_host hm, hostStep, State.takeTurn, hp]

/-- A read that answers appends its value to the values kept before it. -/
theorem hostRead_of_next {off n : Nat} {v : Word} {s t : State} (name : String) (h : memRead off n s = .next (v, t)) :
    hostRead off n name s = .next { t with reads := s.reads ++ [(name, v)] } := by
  have hreads : t.reads = s.reads := (congrArg State.reads (memRead_frame h) :)
  simp [hostRead, h, State.keepRead, hreads]

theorem hostRead_of_fault {off n : Nat} {f : Fault} {s : State} (name : String) (h : memRead off n s = .fault f) :
    hostRead off n name s = .fault f := by
  simp [hostRead, h]

theorem hostRead_of_refused {off n : Nat} {r : Refusal} {s : State} (name : String)
    (h : memRead off n s = .refused r) : hostRead off n name s = .refused r := by
  simp [hostRead, h]

theorem onCmdWrite_of_ok {w : Word} {i : Instr} (s : State) (h : decode w = .ok i) : onCmdWrite w s = exec i s := by
  simp [onCmdWrite, h]

theorem onCmdWrite_of_error {w : Word} {e : IllFormed} (s : State) (h : decode w = .error e) :
    onCmdWrite w s = .next (rejectIllFormed w s) := by
  simp [onCmdWrite, h]

theorem decode_of_decodeTableWord {nbits w : Nat} {i : Instr} (h : decodeTableWord nbits w = some i) :
    decode (BitVec.ofNat 32 (w % 2 ^ nbits)) = .ok i := by
  unfold decodeTableWord at h
  split at h
  · next hi => rw [hi, Option.some.inj h]
  · cases h

/-- The step after `withFetchWord` takes the loaded turn and access off again and writes the word to `CMD`. -/
theorem step_withFetchWord (s : State) (nbits w : Nat) :
    step (s.withFetchWord nbits w) = onCmdWrite (BitVec.ofNat 32 (w % 2 ^ nbits)) s :=
  (step_memWrite rfl rfl).trans (memWrite_cmd _ s)

/-- Settles O5: a host's step is its access, and a word written to `CMD` runs what it decodes to. -/
theorem stepRunsDecodedCommand : Obligations.StepRunsDecodedCommand := by
  refine ⟨fun s w rest hm hp => ?_, fun s off n v rest hm hp => step_memWrite hm hp,
    fun s off n name rest hm hp => ?_, fun s nbits w i h => ?_⟩
  · rw [step_memWrite hm hp, memWrite_cmd]
    exact ⟨fun i hi => onCmdWrite_of_ok _ hi, fun e he => onCmdWrite_of_error _ he⟩
  · rw [step_memRead hm hp]
    exact ⟨fun v t h => hostRead_of_next name h, fun f h => hostRead_of_fault name h,
      fun r h => hostRead_of_refused name h⟩
  · rw [step_withFetchWord, onCmdWrite_of_ok s (decode_of_decodeTableWord h)]

end Sys2Proof.Machine
end

section
/-! PROOFS. The decoder and the encoder are inverse to each other, and the opcode map, the decoder and the three fields
agree on which words are well-formed (30_encoding.md R80 to R84). -/

namespace Sys2Proof

/-! ## Decoding an instruction's word -/

theorem decode_encode (i : Instr) : decode (encode i) = .ok i := by
  cases i <;>
    simp [encode, decode, withoutOperand, rsvdField_commandWord, opcodeField_commandWord, opndField_commandWord]

theorem encode_injective {i j : Instr} (h : encode i = encode j) : i = j := by
  have hi := decode_encode i
  rw [h, decode_encode] at hi
  exact (Except.ok.inj hi).symm

/-- Settles O1: the decoder reads an instruction only from that instruction's word, and reads it back from that word. -/
theorem decodeInvertsEncodeBothWays : Obligations.DecodeInvertsEncodeBothWays := by
  refine fun w i => ⟨Machine.eq_encode_of_decode, fun h => ?_⟩
  rw [h, decode_encode]

/-! ## The rows of the opcode map -/

/-- The mask of a row with an operand keeps `OPCODE` and `RSVD`, so under it a word shows all but its operand. -/
theorem eq_commandWord_of_masked {w : Word} {opcode : Byte} (h : w &&& 0xFFFFFF00#32 = commandWord opcode 0#8) :
    w = commandWord opcode (opndField w) := by
  have hrsvd : rsvdField w = 0#16 := by
    have h := congrArg rsvdField h
    rw [rsvdField_commandWord, rsvdField, BitVec.extractLsb'_and] at h
    exact (BitVec.and_allOnes (x := rsvdField w)).symm.trans h
  have hopcode : opcodeField w = opcode := by
    have h := congrArg opcodeField h
    rw [opcodeField_commandWord, opcodeField, BitVec.extractLsb'_and] at h
    exact (BitVec.and_allOnes (x := opcodeField w)).symm.trans h
  rw [← hopcode]
  exact word_of_fields hrsvd

/-- The encoder's words match their own row, which is one of the map's. -/
theorem encode_matches_row (i : Instr) : i.row ∈ opcodeMap ∧ i.row.matchesWord (encode i) = true := by
  have h : Laws.OpcodeMap.Statement i := by
    cases i with
    | nop => exact Laws.OpcodeMap.nop
    | clear => exact Laws.OpcodeMap.clear
    | count b => exact Laws.OpcodeMap.count b
    | build => exact Laws.OpcodeMap.build
    | encode b => exact Laws.OpcodeMap.encode b
    | flush => exact Laws.OpcodeMap.flush
  obtain ⟨hmatch, hmem, -⟩ := h
  exact ⟨hmem, hmatch⟩

/-- A row of the map matches only words of its own instruction (30_encoding.md R82). -/
theorem exists_encode_of_matchesWord {r : OpcodeRow} {w : Word} (hr : r ∈ opcodeMap) (h : r.matchesWord w = true) :
    ∃ i : Instr, w = encode i ∧ i.row = r := by
  have hw : w &&& r.mask = r.pattern := beq_iff_eq.mp h
  have full {p : Word} (hp : w &&& 0xFFFFFFFF#32 = p) : w = p := (BitVec.and_allOnes (x := w)).symm.trans hp
  simp only [opcodeMap, List.mem_cons, List.not_mem_nil, or_false] at hr
  obtain rfl | rfl | rfl | rfl | rfl | rfl := hr
  · exact ⟨.nop, full hw, rfl⟩
  · exact ⟨.clear, full hw, rfl⟩
  · exact ⟨.count (opndField w), eq_commandWord_of_masked hw, rfl⟩
  · exact ⟨.build, full hw, rfl⟩
  · exact ⟨.encode (opndField w), eq_commandWord_of_masked hw, rfl⟩
  · exact ⟨.flush, full hw, rfl⟩

/-- A word matches at most one row. -/
theorem matchesWord_unique {r r' : OpcodeRow} {w : Word} (hr : r ∈ opcodeMap) (hr' : r' ∈ opcodeMap)
    (h : r.matchesWord w = true) (h' : r'.matchesWord w = true) : r' = r := by
  obtain ⟨i, hi, rfl⟩ := exists_encode_of_matchesWord hr h
  obtain ⟨j, hj, rfl⟩ := exists_encode_of_matchesWord hr' h'
  rw [encode_injective (hi.symm.trans hj)]

theorem wordWellFormed_iff_matchesWord {w : Word} :
    wordWellFormed w = true ↔ ∃ r ∈ opcodeMap, r.matchesWord w = true := List.any_eq_true

/-- The well-formed words are the encoder's words. -/
theorem wordWellFormed_iff_encode {w : Word} : wordWellFormed w = true ↔ ∃ i, w = encode i := by
  rw [wordWellFormed_iff_matchesWord]
  constructor
  · rintro ⟨r, hr, h⟩
    obtain ⟨i, hi, -⟩ := exists_encode_of_matchesWord hr h
    exact ⟨i, hi⟩
  · rintro ⟨i, rfl⟩
    exact ⟨i.row, encode_matches_row i⟩

/-- Settles O2: a row matches only its own instruction's words, and an instruction has one row. -/
theorem wellFormedWordMatchesOneRow : Obligations.WellFormedWordMatchesOneRow := by
  refine fun w => ⟨⟨fun h => ?_, fun ⟨r, hr, hmatch, _⟩ => wordWellFormed_iff_matchesWord.mpr ⟨r, hr, hmatch⟩⟩,
    ⟨fun h => ?_, fun ⟨i, _, hrow⟩ => wordWellFormed_iff_matchesWord.mpr ⟨i.row, hrow⟩⟩⟩
  · obtain ⟨r, hr, hmatch⟩ := wordWellFormed_iff_matchesWord.mp h
    exact ⟨r, hr, hmatch, fun r' hr' hmatch' => matchesWord_unique hr hr' hmatch hmatch'⟩
  · obtain ⟨i, rfl⟩ := wordWellFormed_iff_encode.mp h
    exact ⟨i, decode_encode i, encode_matches_row i⟩

/-! ## Ill-formed words (30_encoding.md R83) -/

/-- The three cases of 30_encoding.md R83, by the fields of the word. -/
def IllFormedFields (w : Word) : Prop :=
  0x06 ≤ (opcodeField w).toNat ∨ rsvdField w ≠ 0#16 ∨
    (opcodeField w ∈ [0x00#8, 0x01#8, 0x03#8, 0x05#8] ∧ opndField w ≠ 0#8)

theorem not_illFormedFields_encode (i : Instr) : ¬ IllFormedFields (encode i) := by
  cases i <;>
    simp [IllFormedFields, encode, rsvdField_commandWord, opcodeField_commandWord, opndField_commandWord]

theorem exists_encode_of_not_illFormedFields {w : Word} (h : ¬ IllFormedFields w) : ∃ i, w = encode i := by
  simp only [IllFormedFields, not_or, not_and, not_not, not_le] at h
  obtain ⟨hopcode, hrsvd, hopnd⟩ := h
  have hw := word_of_fields hrsvd
  have opcodes : ∀ op : Byte, op.toNat < 0x06 →
      op = 0x00#8 ∨ op = 0x01#8 ∨ op = 0x02#8 ∨ op = 0x03#8 ∨ op = 0x04#8 ∨ op = 0x05#8 := by decide
  obtain hop | hop | hop | hop | hop | hop := opcodes _ hopcode <;> rw [hop] at hw hopnd
  · exact ⟨.nop, by rw [hw, hopnd (by decide)]; rfl⟩
  · exact ⟨.clear, by rw [hw, hopnd (by decide)]; rfl⟩
  · exact ⟨.count (opndField w), hw⟩
  · exact ⟨.build, by rw [hw, hopnd (by decide)]; rfl⟩
  · exact ⟨.encode (opndField w), hw⟩
  · exact ⟨.flush, by rw [hw, hopnd (by decide)]; rfl⟩

theorem wordWellFormed_eq_false_iff {w : Word} : wordWellFormed w = false ↔ IllFormedFields w := by
  rw [← Bool.not_eq_true, wordWellFormed_iff_encode, not_iff_comm]
  constructor
  · exact exists_encode_of_not_illFormedFields
  · rintro ⟨i, rfl⟩
    exact not_illFormedFields_encode i

theorem decode_of_illFormed {w : Word} (h : wordWellFormed w = false) : ∃ e, decode w = .error e := by
  cases hd : decode w with
  | error e => exact ⟨e, rfl⟩
  | ok i =>
    have hwf := wordWellFormed_iff_encode.mpr ⟨i, Machine.eq_encode_of_decode hd⟩
    exact absurd hwf (by simp [h])

/-- The write of an ill-formed word decodes to nothing, so it is the rejection of 45_control.md R145. -/
theorem onCmdWrite_of_illFormed {w : Word} (s : Machine.State) (h : wordWellFormed w = false) :
    Machine.onCmdWrite w s = .next (Machine.rejectIllFormed w s) := by
  obtain ⟨e, he⟩ := decode_of_illFormed h
  exact Machine.onCmdWrite_of_error s he

/-- Settles O3: the fields decide which words are ill-formed, and their write tests FAULT, then `BUSY`. -/
theorem illFormedWordIsIllegalCommand : Obligations.IllFormedWordIsIllegalCommand := by
  refine ⟨fun w => wordWellFormed_eq_false_iff, fun w s hw => ?_, by decide⟩
  rw [onCmdWrite_of_illFormed s hw]
  refine ⟨fun hf => ?_, fun hf hp => ?_, fun hf hp => ?_⟩
  · rw [Machine.rejectIllFormed, if_pos hf]
  · rw [Machine.rejectIllFormed, if_neg hf, if_pos hp]
  · rw [Machine.rejectIllFormed, if_neg hf, if_neg (not_not.mpr hp)]

/-- Settles O4: six of the words are instructions' words, and the fields of the other three are tested in turn. -/
theorem spelledWordsDecode : Obligations.SpelledWordsDecode :=
  ⟨decode_encode .nop, decode_encode .clear, decode_encode (.count 0x41#8), decode_encode .build,
    decode_encode (.encode 0xFF#8), decode_encode .flush, by decide, by decide, by decide⟩

end Sys2Proof
end

section
/-! PROOFS. The loops of `WAIT` and `DRAIN`, access by access, and the expansion of `COMPRESS` (30_encoding.md R87). -/

namespace Sys2Proof.Machine

/-! ## The byte that a loop takes from `OUT_DATA` -/

/-- Bit 8 of `OUT_DATA` is VALID: whether a byte was there (10_state.md R41). -/
theorem readOutData_valid (s : State) : (readOutData s).1.getLsbD 8 = true ↔ s.outq ≠ [] := by
  obtain ⟨hq, h⟩ | ⟨x, q, hq, h⟩ := readOutData_cases s <;> rw [h, hq]
  · simp
  · change BitVec.getLsbD (w := 23 + 1 + 8) (0#23 ++ 1#1 ++ x) 8 = true ↔ _
    rw [BitVec.getLsbD_append, BitVec.getLsbD_append]
    simp

/-- The low byte of a valid `OUT_DATA` is the FIFO's head. -/
theorem outData_byte (x : Byte) : BitVec.extractLsb' (n := 32) 0 8 (0#23 ++ 1#1 ++ x) = x := by
  change BitVec.extractLsb' (n := 23 + 1 + 8) 0 8 (0#23 ++ 1#1 ++ x) = x
  rw [BitVec.extractLsb'_append_eq_of_add_le (by decide)]
  exact BitVec.extractLsb'_eq_self

/-- The read of `OUT_DATA` with the byte kept moves the head of `OUTQ`, if there is one, to `OUTBUF`. -/
theorem keepByte_readOutData (s : State) : (readOutData s).2.keepByte (readOutData s).1 =
    { s with outq := s.outq.tail, outbuf := s.outbuf ++ s.outq.take 1 } := by
  have hvalid := readOutData_valid s
  obtain ⟨hq, h⟩ | ⟨x, q, hq, h⟩ := readOutData_cases s <;> rw [h, hq] at hvalid <;> rw [h, hq]
  · rw [State.keepByte, if_neg (by simp), List.tail_nil, List.take_nil, List.append_nil, ← hq]
  · rw [State.keepByte, if_pos (hvalid.mpr (List.cons_ne_nil x q)), outData_byte]
    rfl

/-! ## One pass of each loop -/

/-- A FIFO that fits the field `OUT_LEVEL` shows 0 there only when it is empty (10_state.md R39). -/
theorem statusWord_outLevel_eq_zero {s : State} (h : s.outq.length ≤ 255) :
    s.statusWord.extractLsb' 16 8 = 0#8 ↔ s.outq = [] := by
  rw [statusWord_outLevel, ← BitVec.toNat_inj, BitVec.toNat_ofNat, Nat.mod_eq_of_lt (by omega), BitVec.toNat_ofNat,
    Nat.zero_mod, List.length_eq_zero_iff]

theorem hostWait_eq {s : State} (rest : List HostOp) (h : s.outq.length ≤ 255) : hostWait rest s =
    { s with hostProg := if s.outq ≠ [] then .waitPop s.busy :: rest else waitAgain s.busy rest } := by
  simp only [hostWait, readReg_status, ne_eq, statusWord_outLevel_eq_zero h, statusWord_busy]
  split <;> rfl

theorem hostWaitPop_eq (busy : Bool) (rest : List HostOp) (s : State) : hostWaitPop busy rest s =
    { s with
      hostProg := waitAgain busy rest
      outq := s.outq.tail
      outbuf := s.outbuf ++ s.outq.take 1 } := by
  simp only [hostWaitPop, readReg_outData, keepByte_readOutData]

/-- `DRAIN` goes on while it takes bytes; its last read finds nothing. -/
theorem hostDrain_eq {s : State} {rest : List HostOp} (h : s.hostProg = rest) : hostDrain rest s =
    { s with
      hostProg := if s.outq ≠ [] then .drain :: rest else rest
      outq := s.outq.tail
      outbuf := s.outbuf ++ s.outq.take 1 } := by
  simp only [hostDrain, readReg_outData, keepByte_readOutData, readOutData_valid]
  split
  · rfl
  · next hq =>
    have hq := not_not.mp hq
    have hread : readOutData s = (0#32, s) := by simp [readOutData, fifoPop_empty hq]
    rw [hread, hq, ← h, List.tail_nil, List.take_nil, List.append_nil, ← hq]

theorem step_wait {s : State} {rest : List HostOp} (hm : s.mover = .host) (hp : s.hostProg = .wait :: rest) :
    step s = .next (hostWait rest { s with turns := s.turns.tail, hostProg := rest }) := by
  simp [step_of_host hm, hostStep, State.takeTurn, hp]

theorem step_waitPop {s : State} {busy : Bool} {rest : List HostOp} (hm : s.mover = .host)
    (hp : s.hostProg = .waitPop busy :: rest) :
    step s = .next (hostWaitPop busy rest { s with turns := s.turns.tail, hostProg := rest }) := by
  simp [step_of_host hm, hostStep, State.takeTurn, hp]

theorem step_drain {s : State} {rest : List HostOp} (hm : s.mover = .host) (hp : s.hostProg = .drain :: rest) :
    step s = .next (hostDrain rest { s with turns := s.turns.tail, hostProg := rest }) := by
  simp [step_of_host hm, hostStep, State.takeTurn, hp]

/-! ## `COMPRESS` -/

/-- A command word is its opcode's word with the operand in the low byte (30_encoding.md R80). -/
theorem commandWord_eq_or (opcode opnd : Byte) :
    commandWord opcode opnd = commandWord opcode 0#8 ||| opnd.setWidth 32 := by
  have shifted (b : Byte) : commandWord opcode b = ((opcode ++ 0#16).setWidth 32 <<< 8) ||| b.setWidth 32 := by
    have h := BitVec.setWidth_append_eq_shiftLeft_setWidth_or (w'' := 32) (b := opcode ++ 0#16) (b' := b)
    rwa [BitVec.setWidth_eq] at h
  rw [shifted opnd, shifted 0#8, BitVec.setWidth_zero, BitVec.or_zero]

theorem encode_count_eq_or (b : Byte) : encode (.count b) = 0x02000000#32 ||| b.setWidth 32 :=
  commandWord_eq_or 0x02#8 b

theorem encode_encode_eq_or (b : Byte) : encode (.encode b) = 0x04000000#32 ||| b.setWidth 32 :=
  commandWord_eq_or 0x04#8 b

/-- Settles O54: the first access of `WAIT` decides by the fields of `STATUS`, and each read of `OUT_DATA` moves the
FIFO's head to `OUTBUF`; `COMPRESS` is its accesses, with each operand in its word's low byte. -/
theorem pseudoInstructionsRunTheirLoops : Obligations.PseudoInstructionsRunTheirLoops := by
  refine ⟨fun s rest hm hp hlen => ?_, fun s rest busy hm hp => ?_, fun s rest hm hp => ?_, fun xs => ?_⟩
  · exact (step_wait hm hp).trans (congrArg Host.Outcome.next (hostWait_eq rest hlen))
  · exact (step_waitPop hm hp).trans (congrArg Host.Outcome.next (hostWaitPop_eq busy rest _))
  · exact (step_drain hm hp).trans (congrArg Host.Outcome.next (hostDrain_eq rfl))
  · simp only [← encode_count_eq_or, ← encode_encode_eq_or]
    rfl

end Sys2Proof.Machine
end

section
/-! PROOFS. `COUNT b` (40_frequency.md R91): what it counts, why no counter wraps, and the frame of every command but
`CLEAR`. -/

namespace Sys2Proof.Machine

/-! ## A `COUNT` that counts -/

/-- In COUNT with nothing pending, `COUNT b` below the maximum length counts (40_frequency.md R91, 45_control.md R147). -/
theorem exec_count_of_lt_max (b : Byte) {s : State} (hphase : s.phase = .count) (hpending : s.pending = none)
    (hlen : s.len ≠ lenMax) : exec (.count b) s = .next (countByte b s) := by
  have haccept : accept (.count b) (countOwn b) s = countOwn b s :=
    accept_legal _ (by simp [hphase]) hpending (by simp [hphase, legal])
  have hown : countOwn b s = countByte b s := if_neg hlen
  exact congrArg Host.Outcome.next (haccept.trans hown)

/-- Settles O10: an accepted `COUNT b` is `countByte b`, which writes the entry of `b`, `LEN` and `NSYM` alone. -/
theorem countCountsOneByte : Obligations.CountCountsOneByte := fun b s hphase hpending hlen =>
  ⟨countByte b s, exec_count_of_lt_max b hphase hpending hlen, freqAt_countByte_same s b,
    fun _ hc => freqAt_countByte_other s hc.symm, rfl, rfl, rfl⟩

theorem len_toNat_lt_of_ne_lenMax {s : State} (h : s.len ≠ lenMax) : s.len.toNat + 1 < 2 ^ 32 := by
  have hne : s.len.toNat ≠ 2 ^ 32 - 1 := fun e => h (BitVec.eq_of_toNat_eq e)
  have := s.len.isLt
  omega

/-- Settles O11: `FREQ[b]` is at most the total, which is `LEN`, and `NSYM` is the number of distinct bytes, before the
count and after it. -/
theorem countNeverWraps : Obligations.CountNeverWraps := by
  intro b s t h hphase hpending hlen ht
  obtain rfl : countByte b s = t := Host.Outcome.next.inj ((exec_count_of_lt_max b hphase hpending hlen).symm.trans ht)
  obtain ⟨htotal, hnsym⟩ := h.totals (by simp [hphase])
  obtain ⟨-, hnsym'⟩ := h.totals_countByte b hphase hlen
  have hroom := len_toNat_lt_of_ne_lenMax hlen
  have hfreq : (s.freqAt b).toNat ≤ s.len.toNat := htotal ▸ freqOf_toNat_le_freqTotal s.freq b
  have hdistinct := distinctBytes_le s.freq
  refine ⟨?_, ?_, ?_, hnsym'.trans_le (distinctBytes_le _)⟩
  · rw [freqAt_countByte_same]
    exact BitVec.toNat_add_of_lt (show (s.freqAt b).toNat + 1 < 2 ^ 32 by omega)
  · exact BitVec.toNat_add_of_lt hroom
  · rw [countByte_nsym]
    split
    · exact BitVec.toNat_add_of_lt (show s.nsym.toNat + 1 < 2 ^ 9 by omega)
    · rfl

/-! ## The frame of the commands -/

/-- A command that becomes pending is neither `NOP` nor a `COUNT`. -/
theorem encode_ne_pending_word {i : Instr} (hi : i = .nop ∨ ∃ b, i = .count b) (p : Pending) : encode i ≠ p.word := by
  intro h
  cases p with
  | build => simp [encode_injective (j := .build) h] at hi
  | encode b => simp [encode_injective (j := .encode b) h] at hi
  | flush => simp [encode_injective (j := .flush) h] at hi

/-- Settles O15: a command is ignored, faults, counts a byte or becomes pending, and each of these writes only its own
items. -/
theorem commandsLeaveTheRestUnchanged : Obligations.CommandsLeaveTheRestUnchanged := by
  intro i s t hclear hexec
  cases exec_effect hexec with
  | cleared hw => exact absurd (encode_injective (j := .clear) hw) hclear
  | ignored _ | faulted _ _ _ => simp
  | counted b hw hphase _ _ =>
    have hcount : i = .count b := encode_injective hw
    simp [hcount, hphase]
  | accepted p hw _ _ _ =>
    have hother : ¬ (i = .nop ∨ ∃ b, i = .count b) := fun hi => encode_ne_pending_word hi p hw
    simp [hother]

end Sys2Proof.Machine
end

section
/-! PROOFS. The queue's key order and `pop_min` (41_tree_builder.md R100 to R104). -/

namespace Sys2Proof.Machine

/-! ## The key order -/

namespace Elem

/-- The key order as numbers: the weight, and among equal weights the id (41_tree_builder.md R100). -/
theorem before_iff {a b : Elem} : a.before b = true ↔
    a.weight.toNat < b.weight.toNat ∨ (a.weight = b.weight ∧ a.id.toNat < b.id.toNat) := by
  simp [before, BitVec.lt_def]

theorem before_irrefl (a : Elem) : a.before a = false := by simp [before]

theorem before_trans {a b c : Elem} (hab : a.before b = true) (hbc : b.before c = true) : a.before c = true := by
  rw [before_iff, ← BitVec.toNat_inj] at *
  omega

/-- Of two different elements one is before the other: they differ in the weight or in the id. -/
theorem before_of_ne {a b : Elem} (h : a ≠ b) : a.before b = true ∨ b.before a = true := by
  have hne : ¬ (a.weight.toNat = b.weight.toNat ∧ a.id.toNat = b.id.toNat) := by
    rintro ⟨hw, hi⟩
    obtain ⟨wa, ia⟩ := a
    obtain ⟨wb, ib⟩ := b
    simp_all [BitVec.toNat_inj]
  rw [before_iff, before_iff, ← BitVec.toNat_inj, ← BitVec.toNat_inj]
  omega

/-- Of two elements, one is the earlier one or comes after it. -/
theorem eq_or_earlier_before {x y e : Elem} (hx : x = e ∨ x = y) :
    x = (if y.before e then y else e) ∨ (if y.before e then y else e).before x = true := by
  obtain rfl | rfl := hx <;> split
  · next h => exact .inr h
  · exact .inl rfl
  · exact .inl rfl
  · next h => exact (eq_or_ne x e).imp_right fun hne => (before_of_ne hne).resolve_left h

theorem eq_or_before_trans {a b c : Elem} (hab : b = a ∨ a.before b = true) (hbc : c = b ∨ b.before c = true) :
    c = a ∨ a.before c = true := by
  obtain rfl | hab := hab
  · exact hbc
  · obtain rfl | hbc := hbc
    · exact .inr hab
    · exact .inr (before_trans hab hbc)

end Elem

/-- Settles O23: two elements with different ids are different. -/
theorem keyOrderIsStrictTotal : Obligations.KeyOrderIsStrictTotal :=
  ⟨fun _ _ => Elem.before_iff, Elem.before_irrefl, fun _ _ _ => Elem.before_trans,
    fun _ _ h => Elem.before_of_ne (mt (congrArg Elem.id) h)⟩

/-! ## The least element -/

/-- Every element of the queue is `leastOf`'s answer or after it: along the queue, the candidate gives way only to an
element before it. -/
theorem eq_or_leastOf_before {e x : Elem} {q : List Elem} (hx : x ∈ e :: q) :
    x = leastOf e q ∨ (leastOf e q).before x = true := by
  induction q generalizing e x with
  | nil => exact .inl (List.mem_singleton.mp hx)
  | cons y q ih =>
    rw [leastOf]
    obtain hx | hx : (x = e ∨ x = y) ∨ x ∈ q := by simpa [or_assoc] using hx
    · exact Elem.eq_or_before_trans (ih List.mem_cons_self) (Elem.eq_or_earlier_before hx)
    · exact ih (List.mem_cons_of_mem _ hx)

theorem popMin_least {q q' : List Elem} {e x : Elem} (h : popMin q = some (e, q')) (hx : x ∈ q) :
    x = e ∨ e.before x = true := by
  cases q with
  | nil => simp at h
  | cons y q =>
    simp only [popMin_cons, Option.some.injEq, Prod.mk.injEq] at h
    obtain ⟨rfl, rfl⟩ := h
    exact eq_or_leastOf_before hx

theorem popMin_eq_none_iff {q : List Elem} : popMin q = none ↔ q = [] := by
  cases q <;> simp

/-- Settles O24: the queue without its least element is the old one but for the order. -/
theorem popMinTakesTheLeast : Obligations.PopMinTakesTheLeast :=
  ⟨fun _ _ _ h => ⟨(popMin_perm h).mem_iff.mpr List.mem_cons_self, fun _ => popMin_least h, popMin_perm h⟩,
    fun _ => popMin_eq_none_iff⟩

end Sys2Proof.Machine
end

section
/-! PROOFS. The acceptance of `BUILD`, and what the completions of `BUILD`, `ENCODE` and `FLUSH` write and leave
unchanged (41_tree_builder.md R107, 43_bit_packer.md R127, R128, 45_control.md R148). -/

namespace Sys2Proof.Machine

/-- In COUNT with nothing pending, `BUILD` becomes pending (41_tree_builder.md R107, 45_control.md R147). -/
theorem exec_build_of_count {s : State} (hphase : s.phase = .count) (hpending : s.pending = none) :
    exec .build s = .next { s with pending := some .build } :=
  congrArg Host.Outcome.next (accept_legal _ (by simp [hphase]) hpending (by simp [hphase, legal]))

/-- A turn of the block completes a pending command that is ready (45_control.md R148). -/
theorem step_block_of_ready {p : Pending} {s : State} {ts : List Turn} (hturns : s.turns = .block :: ts)
    (hp : s.pending = some p) (hready : readyAt Config.outDepth p s = true) :
    step s = .next (complete p s.takeTurn) := by
  have hm : s.mover = .block := by simp [State.mover, hturns]
  have hr : readyAt Config.outDepth p s.takeTurn = true := hready
  rw [step_of_block hm]
  simp [blockStep, blockStepAt, hp, hr]

/-- Settles O12: the completing `BUILD` always finds its tree, and writes it. -/
theorem buildIsAcceptedThenCompletes : Obligations.BuildIsAcceptedThenCompletes := by
  intro s ts hphase hpending
  obtain ⟨tree, htree, hc⟩ := complete_build { s with pending := some .build, turns := ts }
  refine ⟨exec_build_of_count hphase hpending, tree, htree, ?_⟩
  exact (step_block_of_ready rfl rfl rfl).trans (congrArg Host.Outcome.next hc)

/-- Settles O16: `BUILD` ends in `buildDone`; for `ENCODE` and `FLUSH`, by the laws of each item. -/
theorem completionsLeaveTheRestUnchanged : Obligations.CompletionsLeaveTheRestUnchanged := by
  intro s
  refine ⟨?_, fun b => ?_, ?_⟩
  · obtain ⟨tree, -, hc⟩ := complete_build s
    rw [hc]
    rfl
  · simp [complete_encode]
  · simp [complete_flush]

end Sys2Proof.Machine
end

section
/-! PROOFS. `BuildTree` answers a tree for every table, and the codes of its leaves have a bounded length
(41_tree_builder.md R109, R112, 42_code_table.md R117). -/

namespace Sys2Proof.Machine

/-- Settles O26: no tree exactly where no byte value is counted. -/
theorem buildNeverFindsEmptyQueue : Obligations.BuildNeverFindsEmptyQueue := by
  intro freq
  have hcounted : (∀ b, freqOf freq b = 0#32) ↔ countedBytes freq = [] := by
    simp [List.eq_nil_iff_forall_not_mem, mem_countedBytes]
  by_cases hne : countedBytes freq = []
  · exact ⟨_, buildTree_of_nothing_counted hne, by simp [hcounted, hne], fun _ => rfl⟩
  · obtain ⟨nodes, e, hbuild, -⟩ := buildTree_of_counted hne
    exact ⟨_, hbuild, by simp [hcounted, hne], nofun⟩

/-- Settles O30: a byte value that is not counted has the empty code, and a counted one a path of the tree. -/
theorem codesExistForCountedBytesAndFit : Obligations.CodesExistForCountedBytesAndFit := by
  intro freq tree b h
  refine ⟨(not_congr List.length_eq_zero_iff).trans (codeOf_genCodes_ne_nil_iff h b), ?_, codeOf_genCodes_length_le h b⟩
  by_cases hb : freqOf freq b = 0#32
  · simp [codeOf_genCodes_of_uncounted h hb]
  · exact (codeOf_genCodes_of_counted h hb).2

end Sys2Proof.Machine
end

section
/-! PROOFS. How an invariant of the loop of `BuildTree` reaches the built tree (41_tree_builder.md R108), and the first
such invariant: the arena holds the leaves, then internal nodes alone (R105). -/

namespace Sys2Proof.Machine

/-! ## An invariant of the loop holds of the built tree -/

theorem countedBytes_eq_nil_or_of_buildTree {freq : Vector Word 256} {tree : Tree} (h : buildTree freq = some tree) :
    (countedBytes freq = [] ∧ tree = ⟨[], none⟩) ∨ countedBytes freq ≠ [] := by
  by_cases hne : countedBytes freq = []
  · exact .inl ⟨hne, Option.some.inj (h.symm.trans (buildTree_of_nothing_counted hne))⟩
  · exact .inr hne

/-- What a turn of the loop takes from the queue `q`: the least element and the least of the others, leaving `rest`. -/
structure PopsTwoLeast (q : List Elem) (l r : Elem) (rest : List Elem) : Prop where
  perm : q.Perm (l :: r :: rest)
  first : ∀ x ∈ q, x ≠ l → l.before x = true
  second : ∀ x ∈ q, x ≠ l → x ≠ r → r.before x = true

theorem popsTwoLeast_of_popMin {q q1 q2 : List Elem} {l r : Elem} (hl : popMin q = some (l, q1))
    (hr : popMin q1 = some (r, q2)) : PopsTwoLeast q l r q2 where
  perm := (popMin_perm hl).trans ((popMin_perm hr).cons l)
  first _ hx hxl := (popMin_least hl hx).resolve_left hxl
  second x hx hxl hxr :=
    have hx1 : x ∈ q1 := (List.mem_cons.mp ((popMin_perm hl).mem_iff.mp hx)).resolve_left hxl
    (popMin_least hr hx1).resolve_left hxr

/-- The element that a turn of the loop pushes for the node it appends to `nodes` (41_tree_builder.md R106). -/
def mergedElem (nodes : List Node) (l r : Elem) : Elem := ⟨l.weight + r.weight, BitVec.ofNat 9 nodes.length⟩

/-- Whatever a turn of the loop keeps of the arena and the queue holds when the loop ends. -/
theorem mergeLoop_keeps {P : List Node → List Elem → Prop}
    (hturn : ∀ {nodes q q1 q2 l r}, P nodes q → popMin q = some (l, q1) → popMin q1 = some (r, q2) →
      P (nodes ++ [mergeNode l r]) (push q2 (mergedElem nodes l r)))
    {fuel : Nat} {nodes nodes' : List Node} {q q' : List Elem} (hstart : P nodes q)
    (hloop : mergeLoop fuel nodes q = some (nodes', q')) : P nodes' q' := by
  have done {nodes : List Node} {q : List Elem} (hP : P nodes q) (h : some (nodes, q) = some (nodes', q')) :
      P nodes' q' := by
    obtain ⟨rfl, rfl⟩ := Prod.mk.inj (Option.some.inj h)
    exact hP
  induction fuel generalizing nodes q with
  | zero => exact done hstart hloop
  | succ fuel ih =>
    rw [mergeLoop] at hloop
    split at hloop
    · split at hloop
      · cases hloop
      · next l q1 hl =>
        split at hloop
        · cases hloop
        · next r q2 hr => exact ih (hturn hstart hl hr) hloop
    · exact done hstart hloop

/-- A turn of the loop finds room in the arena for one more node. -/
theorem Forest.nodes_length_lt {bytes : List Byte} {nodes : List Node} {q rest : List Elem} {l r : Elem}
    (h : Forest bytes nodes q) (hb : bytes.length ≤ 256) (hp : PopsTwoLeast q l r rest) : nodes.length < 512 := by
  have hsize := h.size
  have hlen := hp.perm.length_eq
  simp only [List.length_cons] at hlen
  omega

/-- What the leaves have and every turn of the loop keeps is true of the built tree's arena, with the root's element
alone in the queue (41_tree_builder.md R108). -/
theorem buildTree_keeps {P : List Node → List Elem → Prop} {freq : Vector Word 256} {tree : Tree}
    (h : buildTree freq = some tree) (hne : countedBytes freq ≠ [])
    (hleaves : P (leaves freq) (leafQueue (leaves freq)))
    (hturn : ∀ {nodes q l r rest}, nodes.length < 512 → P nodes q → PopsTwoLeast q l r rest →
      P (nodes ++ [mergeNode l r]) (push rest (mergedElem nodes l r))) :
    ∃ e, tree.root = some e.id ∧ P tree.nodes [e] := by
  have hle := countedBytes_length_le freq
  have hforest := forest_leafQueue hne
  have hsome : leaves freq ≠ [] := by simpa [leaves_eq_map_countedBytes] using hne
  obtain ⟨nodes, e, hloop, -⟩ := mergeLoop_forest hle (leaves freq).length hforest (by simp [leafQueue])
  obtain rfl : ⟨nodes, some e.id⟩ = tree := by simpa [buildTree, hsome, hloop, leastOf] using h
  obtain ⟨-, hP⟩ := mergeLoop_keeps (P := fun nodes q => Forest (countedBytes freq) nodes q ∧ P nodes q)
    (fun ⟨hforest, hP⟩ hl hr =>
      have hp := popsTwoLeast_of_popMin hl hr
      ⟨hforest.merge hle hl hr, hturn (hforest.nodes_length_lt hle hp) hP hp⟩)
    ⟨hforest, hleaves⟩ hloop
  exact ⟨e, rfl, hP⟩

/-! ## The leaves first, then the merged nodes -/

/-- The arena holds the leaves, and then internal nodes alone (41_tree_builder.md R105, R110). -/
def LeavesThenInternal (leafNodes nodes : List Node) : Prop :=
  ∃ merged, nodes = leafNodes ++ merged ∧ ∀ n ∈ merged, ∃ l r w, n = .internal l r w

theorem LeavesThenInternal.snoc {leafNodes nodes : List Node} (h : LeavesThenInternal leafNodes nodes) (l r : Elem) :
    LeavesThenInternal leafNodes (nodes ++ [mergeNode l r]) := by
  obtain ⟨merged, rfl, hmerged⟩ := h
  refine ⟨merged ++ [mergeNode l r], List.append_assoc _ _ _, fun n hn => ?_⟩
  obtain hn | hn := List.mem_append.mp hn
  · exact hmerged n hn
  · exact ⟨l.id, r.id, l.weight + r.weight, List.mem_singleton.mp hn⟩

theorem LeavesThenInternal.internal {leafNodes nodes : List Node} (h : LeavesThenInternal leafNodes nodes) {i : Nat}
    (hi : leafNodes.length ≤ i) (hlt : i < nodes.length) : ∃ l r w, nodes[i]? = some (.internal l r w) := by
  obtain ⟨merged, rfl, hmerged⟩ := h
  rw [List.length_append] at hlt
  have hlt : i - leafNodes.length < merged.length := by omega
  obtain ⟨l, r, w, hn⟩ := hmerged _ (List.getElem_mem hlt)
  exact ⟨l, r, w, by rw [List.getElem?_append_right hi, List.getElem?_eq_getElem hlt, hn]⟩

theorem LeavesThenInternal.leaf {leafNodes nodes : List Node} (h : LeavesThenInternal leafNodes nodes) {i : Nat}
    (hi : i < leafNodes.length) : nodes[i]? = leafNodes[i]? := by
  obtain ⟨merged, rfl, -⟩ := h
  exact List.getElem?_append_left hi

theorem leavesThenInternal_of_buildTree {freq : Vector Word 256} {tree : Tree} (h : buildTree freq = some tree) :
    LeavesThenInternal (leaves freq) tree.nodes := by
  have hstart : LeavesThenInternal (leaves freq) (leaves freq) := ⟨[], by simp, by simp⟩
  obtain ⟨hnil, rfl⟩ | hne := countedBytes_eq_nil_or_of_buildTree h
  · simpa [leaves_eq_map_countedBytes, hnil] using hstart
  · obtain ⟨-, -, htree⟩ := buildTree_keeps (P := fun nodes _ => LeavesThenInternal (leaves freq) nodes) h hne
      hstart (fun _ hP _ => hP.snoc _ _)
    exact htree

/-- Settles O25: the leaves are those of the counted byte values, and the loop only appends to them. -/
theorem leavesComeFirstInByteOrder : Obligations.LeavesComeFirstInByteOrder := by
  intro freq
  refine ⟨?_, fun n hn => ?_, fun tree h => ?_⟩
  · rw [leaves_eq_map_countedBytes, List.map_map]
    exact List.map_id _
  · rw [leaves_eq_map_countedBytes] at hn
    obtain ⟨b, -, rfl⟩ := List.mem_map.mp hn
    exact ⟨b, rfl⟩
  · obtain ⟨merged, hnodes, -⟩ := leavesThenInternal_of_buildTree h
    rw [hnodes, List.take_left]

end Sys2Proof.Machine
end

section
/-! PROOFS. The queue of the loop holds the nodes that are no child yet, so each internal node merges the two least of
them, and the built tree has the shape of 41_tree_builder.md R110 (R106, R108). -/

namespace Sys2Proof.Machine

/-! ## Free nodes and children -/

namespace Tree

/-- The element of a node that is in the queue while node `i` is made (41_tree_builder.md R108). -/
def FreeElem (t : Tree) (i : Nat) (e : Elem) : Prop := ∃ j, t.freeBelow i j ∧ t.elemAt j = some e

/-- Node `i`, where it is internal, merges the two least elements of the queue it was made from
(41_tree_builder.md R106, R108). -/
def MergesLeast (t : Tree) (i : Nat) : Prop :=
  ∀ (l r : NodeId) (w : Word), t.nodes[i]? = some (.internal l r w) →
    ∃ el er, t.elemAt l.toNat = some el ∧ t.elemAt r.toNat = some er ∧ w = el.weight + er.weight ∧
      l ≠ r ∧ t.freeBelow i l.toNat ∧ t.freeBelow i r.toNat ∧
      (∀ j e, t.freeBelow i j → t.elemAt j = some e → j ≠ l.toNat → el.before e = true) ∧
      (∀ j e, t.freeBelow i j → t.elemAt j = some e → j ≠ l.toNat → j ≠ r.toNat → er.before e = true)

/-! A new entry of the arena changes nothing about the nodes below it. -/

section
variable {nodes : List Node} {root : Option NodeId} (n : Node)

theorem hasChild_snoc {i : Nat} (j : Nat) (hi : i < nodes.length) :
    (Tree.mk (nodes ++ [n]) root).hasChild i j ↔ (Tree.mk nodes root).hasChild i j := by
  simp [hasChild, List.getElem?_append_left hi]

theorem freeBelow_snoc {i : Nat} (j : Nat) (hi : i ≤ nodes.length) :
    (Tree.mk (nodes ++ [n]) root).freeBelow i j ↔ (Tree.mk nodes root).freeBelow i j :=
  and_congr_right fun _ => forall₂_congr fun _ hi' => not_congr (hasChild_snoc n j (Nat.lt_of_lt_of_le hi' hi))

theorem elemAt_snoc {j : Nat} (hj : j < nodes.length) :
    (Tree.mk (nodes ++ [n]) root).elemAt j = (Tree.mk nodes root).elemAt j := by
  simp [elemAt, List.getElem?_append_left hj]

end

theorem elemAt_eq_some {t : Tree} {j : Nat} {e : Elem} (h : t.elemAt j = some e) :
    ∃ n, t.nodes[j]? = some n ∧ n.weight = e.weight ∧ e.id = BitVec.ofNat 9 j := by
  simp only [elemAt, Option.map_eq_some_iff] at h
  obtain ⟨n, hn, rfl⟩ := h
  exact ⟨n, hn, rfl, rfl⟩

/-- The id of an element is the index of its node, as long as indices fit in an id (41_tree_builder.md R105). -/
theorem id_of_elemAt {t : Tree} {j : Nat} {e : Elem} (h : t.elemAt j = some e) (hj : j < 512) : e.id.toNat = j := by
  obtain ⟨-, -, -, hid⟩ := elemAt_eq_some h
  rw [hid, BitVec.toNat_ofNat, Nat.mod_eq_of_lt hj]

/-- A child was in the queue when its parent was made. -/
theorem freeBelow_of_hasChild {t : Tree} {i j : Nat} (h : t.MergesLeast i) (hc : t.hasChild i j) : t.freeBelow i j := by
  obtain ⟨l, r, w, hn, hj⟩ := hc
  obtain ⟨-, -, -, -, -, -, hl, hr, -⟩ := h l r w hn
  obtain rfl | rfl := hj
  · exact hl
  · exact hr

theorem MergesLeast.snoc {nodes : List Node} {root : Option NodeId} {i : Nat} (h : (Tree.mk nodes root).MergesLeast i)
    (n : Node) (hi : i < nodes.length) : (Tree.mk (nodes ++ [n]) root).MergesLeast i := by
  intro l r w hget
  have below {j : Nat} : (Tree.mk (nodes ++ [n]) root).freeBelow i j ↔ (Tree.mk nodes root).freeBelow i j :=
    freeBelow_snoc n j hi.le
  have entry {j : Nat} (hj : (Tree.mk nodes root).freeBelow i j) :
      (Tree.mk (nodes ++ [n]) root).elemAt j = (Tree.mk nodes root).elemAt j := elemAt_snoc n (hj.1.trans hi)
  obtain ⟨el, er, hel, her, hw, hne, hl, hr, hleast, hnext⟩ := h l r w (List.getElem?_append_left hi ▸ hget)
  exact ⟨el, er, (entry hl).trans hel, (entry hr).trans her, hw, hne, below.mpr hl, below.mpr hr,
    fun j e hj he => hleast j e (below.mp hj) (entry (below.mp hj) ▸ he),
    fun j e hj he => hnext j e (below.mp hj) (entry (below.mp hj) ▸ he)⟩

theorem hasChild_mergeNode {nodes : List Node} {root : Option NodeId} {l r : Elem} {j : Nat} :
    (Tree.mk (nodes ++ [mergeNode l r]) root).hasChild nodes.length j ↔ l.id.toNat = j ∨ r.id.toNat = j := by
  simp [hasChild, mergeNode]

theorem elemAt_mergeNode (nodes : List Node) (root : Option NodeId) (l r : Elem) :
    (Tree.mk (nodes ++ [mergeNode l r]) root).elemAt nodes.length = some (mergedElem nodes l r) := by
  simp [elemAt, mergeNode, mergedElem, Node.weight]

/-- A free node is no child after a turn unless the turn popped it. -/
theorem freeBelow_mergeNode {nodes : List Node} {root : Option NodeId} {l r : Elem} {j : Nat} (hl : l.id.toNat ≠ j)
    (hr : r.id.toNat ≠ j) (hj : (Tree.mk nodes root).freeBelow nodes.length j) :
    (Tree.mk (nodes ++ [mergeNode l r]) root).freeBelow (nodes.length + 1) j := by
  obtain ⟨hlt, hno⟩ := (freeBelow_snoc (mergeNode l r) j le_rfl).mpr hj
  refine ⟨by omega, fun i hi hc => ?_⟩
  obtain hi | rfl := Nat.lt_succ_iff_lt_or_eq.mp hi
  · exact hno i hi hc
  · exact (hasChild_mergeNode.mp hc).elim hl hr

end Tree

/-! ## What the loop keeps -/

/-- What the loop keeps: the queue holds the elements of the nodes that are no child yet, each once, and every internal
node merges the two least of its turn. -/
structure QueueHoldsFree (nodes : List Node) (q : List Elem) : Prop where
  queue : ∀ e, e ∈ q ↔ (Tree.mk nodes none).FreeElem nodes.length e
  nodup : q.Nodup
  merges : ∀ i, (Tree.mk nodes none).MergesLeast i

/-- Before the first turn every leaf is in the queue, and none is a child. -/
theorem queueHoldsFree_leaves (freq : Vector Word 256) : QueueHoldsFree (leaves freq) (leafQueue (leaves freq)) := by
  have hlen : (leaves freq).length ≤ 256 := by simpa [leaves_eq_map_countedBytes] using countedBytes_length_le freq
  have hleaf (i : Nat) (l r : NodeId) (w : Word) : (leaves freq)[i]? ≠ some (.internal l r w) := by
    simp [leaves_eq_map_countedBytes]
  have hfree (j : Nat) : (Tree.mk (leaves freq) none).freeBelow (leaves freq).length j ↔ j < (leaves freq).length :=
    and_iff_left fun i _ ⟨l, r, w, h, _⟩ => hleaf i l r w h
  refine ⟨fun e => ?_, ?_, fun i l r w h => absurd h (hleaf i l r w)⟩
  · simp only [leafQueue, List.mem_map, Prod.exists, List.mem_zipIdx_iff_getElem?, Tree.FreeElem, hfree, Tree.elemAt,
      Option.map_eq_some_iff]
    constructor
    · rintro ⟨n, i, hn, rfl⟩
      exact ⟨i, (List.getElem?_eq_some_iff.mp hn).1, n, hn, rfl⟩
    · rintro ⟨i, -, n, hn, rfl⟩
      exact ⟨n, i, hn, rfl⟩
  · refine List.pairwise_iff_getElem.mpr fun i j hi hj hij heq => ?_
    have hid := congrArg (fun e => e.id.toNat) heq
    simp only [leafQueue, List.length_map, List.length_zipIdx] at hi hj
    simp only [leafQueue, List.getElem_map, List.getElem_zipIdx, BitVec.toNat_ofNat] at hid
    omega

namespace QueueHoldsFree
section
variable {nodes : List Node} {q rest : List Elem} {l r : Elem} (h : QueueHoldsFree nodes q)
  (hsize : nodes.length < 512)
include h hsize

/-- An element of the queue, by its id. -/
theorem free_of_mem {e : Elem} (he : e ∈ q) :
    (Tree.mk nodes none).freeBelow nodes.length e.id.toNat ∧ (Tree.mk nodes none).elemAt e.id.toNat = some e := by
  obtain ⟨j, ⟨hlt, hno⟩, hat⟩ := (h.queue e).mp he
  rw [Tree.id_of_elemAt hat (by omega)]
  exact ⟨⟨hlt, hno⟩, hat⟩

theorem eq_of_id_eq {e e' : Elem} (he : e ∈ q) (he' : e' ∈ q) (hid : e.id.toNat = e'.id.toNat) : e = e' := by
  obtain ⟨-, hat⟩ := h.free_of_mem hsize he
  obtain ⟨-, hat'⟩ := h.free_of_mem hsize he'
  exact Option.some.inj (hat.symm.trans (hid ▸ hat'))

/-- A free node's element is in the queue, also where one more entry has come into the arena. -/
theorem mem_of_free (n : Node) {j : Nat} {e : Elem} (hj : (Tree.mk (nodes ++ [n]) none).freeBelow nodes.length j)
    (he : (Tree.mk (nodes ++ [n]) none).elemAt j = some e) : e ∈ q ∧ e.id.toNat = j := by
  have hlt : j < nodes.length := hj.1
  rw [Tree.elemAt_snoc n hlt] at he
  exact ⟨(h.queue e).mpr ⟨j, (Tree.freeBelow_snoc n j le_rfl).mp hj, he⟩, Tree.id_of_elemAt he (by omega)⟩

variable (hp : PopsTwoLeast q l r rest)
include hp

/-- The two popped elements have different ids, and no id of the rest. -/
theorem popped_id_ne : l.id ≠ r.id ∧ ∀ e ∈ rest, l.id.toNat ≠ e.id.toNat ∧ r.id.toNat ≠ e.id.toNat := by
  have hmem {x : Elem} (hx : x ∈ l :: r :: rest) : x ∈ q := hp.perm.mem_iff.mpr hx
  have hid {x y : Elem} (hx : x ∈ l :: r :: rest) (hy : y ∈ l :: r :: rest) (hne : x ≠ y) : x.id.toNat ≠ y.id.toNat :=
    mt (h.eq_of_id_eq hsize (hmem hx) (hmem hy)) hne
  obtain ⟨⟨hlr, hlrest⟩, hrrest, -⟩ : (l ≠ r ∧ l ∉ rest) ∧ r ∉ rest ∧ rest.Nodup := by
    simpa using hp.perm.nodup h.nodup
  refine ⟨ne_of_apply_ne BitVec.toNat (hid (by simp) (by simp) hlr), fun e he => ⟨?_, ?_⟩⟩
  · exact hid (by simp) (by simp [he]) (ne_of_mem_of_not_mem he hlrest).symm
  · exact hid (by simp) (by simp [he]) (ne_of_mem_of_not_mem he hrrest).symm

/-- The node of a turn merges the two least elements of the queue. -/
theorem mergesLeast_new : (Tree.mk (nodes ++ [mergeNode l r]) none).MergesLeast nodes.length := by
  intro l' r' w hget
  obtain ⟨rfl, rfl, rfl⟩ : l.id = l' ∧ r.id = r' ∧ l.weight + r.weight = w := by simpa [mergeNode] using hget
  obtain ⟨hlfree, hlat⟩ := h.free_of_mem hsize (hp.perm.mem_iff.mpr (by simp) : l ∈ q)
  obtain ⟨hrfree, hrat⟩ := h.free_of_mem hsize (hp.perm.mem_iff.mpr (by simp) : r ∈ q)
  obtain ⟨hid, -⟩ := h.popped_id_ne hsize hp
  refine ⟨l, r, (Tree.elemAt_snoc _ hlfree.1).trans hlat, (Tree.elemAt_snoc _ hrfree.1).trans hrat, rfl, hid,
    (Tree.freeBelow_snoc _ _ le_rfl).mpr hlfree, (Tree.freeBelow_snoc _ _ le_rfl).mpr hrfree,
    fun j e hj he hjl => ?_, fun j e hj he hjl hjr => ?_⟩
  · obtain ⟨hmem, rfl⟩ := h.mem_of_free hsize _ hj he
    exact hp.first e hmem (ne_of_apply_ne (·.id.toNat) hjl)
  · obtain ⟨hmem, rfl⟩ := h.mem_of_free hsize _ hj he
    exact hp.second e hmem (ne_of_apply_ne (·.id.toNat) hjl) (ne_of_apply_ne (·.id.toNat) hjr)

/-- After a turn every internal node has merged the two least elements of its turn. -/
theorem merges_after (i : Nat) : (Tree.mk (nodes ++ [mergeNode l r]) none).MergesLeast i := by
  obtain hi | rfl | hi := lt_trichotomy i nodes.length
  · exact (h.merges i).snoc _ hi
  · exact h.mergesLeast_new hsize hp
  · intro l' r' w hget
    obtain ⟨hlt, -⟩ := List.getElem?_eq_some_iff.mp hget
    simp only [List.length_append, List.length_singleton] at hlt
    omega

/-- The elements that a turn does not pop stay those of free nodes. -/
theorem free_after_of_mem_rest {e : Elem} (he : e ∈ rest) :
    (Tree.mk (nodes ++ [mergeNode l r]) none).FreeElem (nodes.length + 1) e := by
  obtain ⟨-, hid⟩ := h.popped_id_ne hsize hp
  obtain ⟨hl, hr⟩ := hid e he
  obtain ⟨hfree, hat⟩ := h.free_of_mem hsize (hp.perm.mem_iff.mpr (by simp [he]) : e ∈ q)
  exact ⟨e.id.toNat, Tree.freeBelow_mergeNode hl hr hfree, (Tree.elemAt_snoc _ hfree.1).trans hat⟩

/-- No node has the new one for a child: children stand below their parents. -/
theorem free_after_new :
    (Tree.mk (nodes ++ [mergeNode l r]) none).FreeElem (nodes.length + 1) (mergedElem nodes l r) := by
  refine ⟨nodes.length, ⟨Nat.lt_succ_self _, fun i hi hc => ?_⟩, Tree.elemAt_mergeNode nodes none l r⟩
  obtain ⟨hlt, -⟩ := Tree.freeBelow_of_hasChild (h.merges_after hsize hp i) hc
  omega

/-- The nodes that are free after a turn are the new one and those free before that it has not popped. -/
theorem mem_rest_or_eq_of_free_after {e : Elem}
    (he : (Tree.mk (nodes ++ [mergeNode l r]) none).FreeElem (nodes.length + 1) e) :
    e ∈ rest ∨ e = mergedElem nodes l r := by
  obtain ⟨j, ⟨hj, hno⟩, hat⟩ := he
  obtain hj | rfl := Nat.lt_succ_iff_lt_or_eq.mp hj
  · obtain ⟨he, rfl⟩ := h.mem_of_free hsize _ ⟨hj, fun i hi => hno i (by omega)⟩ hat
    have hnot := mt Tree.hasChild_mergeNode.mpr (hno _ (Nat.lt_succ_self _))
    obtain rfl | rfl | he : e = l ∨ e = r ∨ e ∈ rest := by simpa using hp.perm.mem_iff.mp he
    · exact absurd (.inl rfl) hnot
    · exact absurd (.inr rfl) hnot
    · exact .inl he
  · exact .inr (Option.some.inj (hat.symm.trans (Tree.elemAt_mergeNode nodes none l r)))

/-- A turn trades the two popped elements for the new node's. -/
theorem merge : QueueHoldsFree (nodes ++ [mergeNode l r]) (push rest (mergedElem nodes l r)) := by
  have hid : (mergedElem nodes l r).id.toNat = nodes.length :=
    Tree.id_of_elemAt (Tree.elemAt_mergeNode nodes none l r) hsize
  refine ⟨fun e => ?_, ?_, h.merges_after hsize hp⟩
  · rw [push, List.mem_append, List.mem_singleton, List.length_append, List.length_singleton]
    refine ⟨?_, h.mem_rest_or_eq_of_free_after hsize hp⟩
    rintro (he | rfl)
    · exact h.free_after_of_mem_rest hsize hp he
    · exact h.free_after_new hsize hp
  · have hnodup : rest.Nodup := (hp.perm.nodup h.nodup).of_cons.of_cons
    refine hnodup.append (List.nodup_singleton _) (List.disjoint_singleton.mpr fun he => ?_)
    have hmem : mergedElem nodes l r ∈ q := hp.perm.mem_iff.mpr (by simp [he])
    obtain ⟨⟨hlt, -⟩, -⟩ := h.free_of_mem hsize hmem
    omega

end
end QueueHoldsFree

/-! ## The built tree -/

/-- The arena of a built tree, with the root's element as the whole queue. -/
theorem queueHoldsFree_of_buildTree {freq : Vector Word 256} {tree : Tree} (h : buildTree freq = some tree)
    (hne : countedBytes freq ≠ []) : ∃ e, tree.root = some e.id ∧ QueueHoldsFree tree.nodes [e] :=
  buildTree_keeps h hne (queueHoldsFree_leaves freq) fun hsize hqueue hp => hqueue.merge hsize hp

theorem mergesLeast_of_buildTree {freq : Vector Word 256} {tree : Tree} (h : buildTree freq = some tree) (i : Nat) :
    tree.MergesLeast i := by
  obtain ⟨-, rfl⟩ | hne := countedBytes_eq_nil_or_of_buildTree h
  · intro l r w hget
    simp at hget
  · obtain ⟨e, -, hqueue⟩ := queueHoldsFree_of_buildTree h hne
    exact hqueue.merges i

/-- Settles O60: every turn of the loop keeps that the internal nodes so far have merged the two least elements of
their turns. -/
theorem mergesTakeTheTwoLeast : Obligations.MergesTakeTheTwoLeast := fun _ _ h => mergesLeast_of_buildTree h

/-- Every node but the root is a child (41_tree_builder.md R110): a node that is none would be in the queue, where the
root is alone. -/
theorem exists_parent {freq : Vector Word 256} {tree : Tree} (h : buildTree freq = some tree)
    (hne : countedBytes freq ≠ []) {j : Nat} (hj : j < tree.nodes.length - 1) : ∃ i, tree.hasChild i j := by
  obtain ⟨e, hroot, hqueue⟩ := queueHoldsFree_of_buildTree h hne
  obtain ⟨-, hlast, -⟩ := buildTree_represents h hne
  have hid : e.id = BitVec.ofNat 9 (tree.nodes.length - 1) := Option.some.inj (hroot.symm.trans hlast)
  have hsize : tree.nodes.length ≤ 511 := buildTree_nodes_length_le h
  by_contra hno
  have hlt : j < tree.nodes.length := by omega
  have hfree : (Tree.mk tree.nodes none).FreeElem tree.nodes.length ⟨tree.nodes[j].weight, BitVec.ofNat 9 j⟩ :=
    ⟨j, ⟨hlt, fun i _ hc => hno ⟨i, hc⟩⟩, by simp [Tree.elemAt, hlt]⟩
  have hjid : BitVec.ofNat 9 j = e.id := congrArg Elem.id (List.mem_singleton.mp ((hqueue.queue _).mpr hfree))
  have := congrArg BitVec.toNat (hjid.trans hid)
  simp only [BitVec.toNat_ofNat] at this
  omega

/-- No node is a child twice: after its first parent it is no longer in the queue. -/
theorem parent_unique {tree : Tree} (h : ∀ i, tree.MergesLeast i) {i i' j : Nat} (hi : tree.hasChild i j)
    (hi' : tree.hasChild i' j) : i' = i := by
  have not_lt {a b : Nat} (ha : tree.hasChild a j) (hb : tree.hasChild b j) : ¬ a < b := fun hab =>
    (Tree.freeBelow_of_hasChild (h b) hb).2 a hab ha
  have := not_lt hi hi'
  have := not_lt hi' hi
  omega

/-- Settles O27: the arena is the leaves and then the merged nodes, and each node but the root has left the queue
exactly once. -/
theorem builtTreeShape : Obligations.BuiltTreeShape := by
  intro freq tree h hpos
  have hne : countedBytes freq ≠ [] := by
    rw [← countedBytes_length] at hpos
    exact List.length_pos_iff.mp hpos
  obtain ⟨-, hroot, hsize, -⟩ := buildTree_represents h hne
  have harena := leavesThenInternal_of_buildTree h
  have hleaves : (leaves freq).length = distinctBytes freq := by
    rw [leaves_eq_map_countedBytes, List.length_map, countedBytes_length]
  have hmerges := mergesLeast_of_buildTree h
  refine ⟨hsize, by rw [hroot, hsize, Nat.sub_sub], fun i hi => ?_, fun i hi hlt => ?_, fun j hj => ?_⟩
  · have hi' : i < (countedBytes freq).length := countedBytes_length freq ▸ hi
    exact ⟨(countedBytes freq)[i], freqOf freq (countedBytes freq)[i],
      (harena.leaf (hleaves ▸ hi)).trans (by simp [leaves_eq_map_countedBytes, hi'])⟩
  · obtain ⟨l, r, w, hget⟩ := harena.internal (hleaves ▸ hi) (hsize ▸ hlt)
    obtain ⟨-, -, -, -, -, hlr, hl, hr, -⟩ := hmerges i l r w hget
    exact ⟨l, r, w, hget, hl.1, hr.1, hlr⟩
  · obtain ⟨i, hi⟩ := exists_parent h hne (j := j) (by omega)
    exact ⟨i, hi, fun i' hi' => parent_unique hmerges hi hi'⟩

end Sys2Proof.Machine
end

section
/-! PROOFS. The weights as numbers: those in the queue always add up to the number of bytes counted, so no sum of two of
them overflows (41_tree_builder.md R111). -/

namespace Sys2Proof.Machine

/-- What the loop keeps of the weights, as numbers: those of the queue add up to `total`, and each internal node's is
the sum of its children's (41_tree_builder.md R111). -/
structure WeightsAddUp (total : Nat) (nodes : List Node) (q : List Elem) : Prop where
  queue : (q.map (·.weight.toNat)).sum = total
  sums : ∀ (i : Nat) (l r : NodeId) (w : Word), nodes[i]? = some (.internal l r w) →
    ∃ nl nr, nodes[l.toNat]? = some nl ∧ nodes[r.toNat]? = some nr ∧ w.toNat = nl.weight.toNat + nr.weight.toNat

/-- The byte values that are not counted add nothing to the total. -/
theorem sum_countedBytes (freq : Vector Word 256) :
    ((countedBytes freq).map fun b => (freqOf freq b).toNat).sum = freqTotal freq := by
  rw [freqTotal, toList_eq_map_freqOf, List.map_map, countedBytes]
  induction allBytes with
  | nil => rfl
  | cons b bs ih => by_cases hb : freqOf freq b = 0#32 <;> simp [hb, ih]

theorem weightsAddUp_leaves (freq : Vector Word 256) :
    WeightsAddUp (freqTotal freq) (leaves freq) (leafQueue (leaves freq)) := by
  refine ⟨?_, fun i l r w h => by simp [leaves_eq_map_countedBytes] at h⟩
  have hqueue : (leafQueue (leaves freq)).map (·.weight.toNat) = (leaves freq).map (·.weight.toNat) :=
    List.ext_getElem (by simp [leafQueue]) (by simp [leafQueue])
  rw [hqueue, leaves_eq_map_countedBytes, List.map_map]
  exact sum_countedBytes freq

theorem WeightsAddUp.merge {total : Nat} {nodes : List Node} {q rest : List Elem} {l r : Elem}
    (h : WeightsAddUp total nodes q) (htotal : total < 2 ^ 32) (hqueue : QueueHoldsFree nodes q)
    (hsize : nodes.length < 512) (hp : PopsTwoLeast q l r rest) :
    WeightsAddUp total (nodes ++ [mergeNode l r]) (push rest (mergedElem nodes l r)) := by
  have hsum := (hp.perm.map (·.weight.toNat)).sum_eq.symm.trans h.queue
  simp only [List.map_cons, List.sum_cons] at hsum
  have hadd : (l.weight + r.weight).toNat = l.weight.toNat + r.weight.toNat := BitVec.toNat_add_of_lt (by omega)
  refine ⟨?_, fun i l' r' w hget => ?_⟩
  · rw [push, List.map_append, List.sum_append, List.map_singleton, List.sum_singleton, mergedElem, hadd]
    omega
  · obtain ⟨hi, -⟩ := List.getElem?_eq_some_iff.mp hget
    have entry {j : Nat} {n : Node} (hj : nodes[j]? = some n) : (nodes ++ [mergeNode l r])[j]? = some n := by
      rw [List.getElem?_append_left (List.getElem?_eq_some_iff.mp hj).1, hj]
    obtain hi | rfl := Nat.lt_succ_iff_lt_or_eq.mp (List.length_append ▸ hi)
    · obtain ⟨nl, nr, hnl, hnr, hw⟩ := h.sums i l' r' w (List.getElem?_append_left hi ▸ hget)
      exact ⟨nl, nr, entry hnl, entry hnr, hw⟩
    · obtain ⟨rfl, rfl, rfl⟩ : l.id = l' ∧ r.id = r' ∧ l.weight + r.weight = w := by simpa [mergeNode] using hget
      obtain ⟨-, hlat⟩ := hqueue.free_of_mem hsize (hp.perm.mem_iff.mpr (by simp) : l ∈ q)
      obtain ⟨-, hrat⟩ := hqueue.free_of_mem hsize (hp.perm.mem_iff.mpr (by simp) : r ∈ q)
      obtain ⟨nl, hnl, hwl, -⟩ := Tree.elemAt_eq_some hlat
      obtain ⟨nr, hnr, hwr, -⟩ := Tree.elemAt_eq_some hrat
      exact ⟨nl, nr, entry hnl, entry hnr, by rw [hadd, hwl, hwr]⟩

/-- Settles O28: the weights in the queue always add up to the number of bytes counted, so no sum overflows, and at the
end the root is alone in the queue. -/
theorem weightsNeverOverflow : Obligations.WeightsNeverOverflow := by
  intro freq tree htotal h
  obtain ⟨-, rfl⟩ | hne := countedBytes_eq_nil_or_of_buildTree h
  · simp
  · obtain ⟨e, hroot, hqueue, hweights⟩ :=
      buildTree_keeps (P := fun nodes q => QueueHoldsFree nodes q ∧ WeightsAddUp (freqTotal freq) nodes q) h hne
        ⟨queueHoldsFree_leaves freq, weightsAddUp_leaves freq⟩
        (fun hsize ⟨hqueue, hweights⟩ hp =>
          ⟨hqueue.merge hsize hp, hweights.merge htotal hqueue hsize hp⟩)
    have hsize : tree.nodes.length < 512 := Nat.lt_succ_of_le (buildTree_nodes_length_le h)
    obtain ⟨-, hat⟩ := hqueue.free_of_mem hsize (List.mem_singleton.mpr rfl)
    obtain ⟨n, hn, hw, -⟩ := Tree.elemAt_eq_some hat
    refine ⟨hweights.sums, fun r hr => ?_⟩
    obtain rfl : e.id = r := Option.some.inj (hroot.symm.trans hr)
    exact ⟨n, hn, by simpa [hw] using hweights.queue⟩

end Sys2Proof.Machine
end

section
/-! PROOFS. The code table of a built tree: each code is the path to its leaf, no code begins with another and, for
two or more byte values, the code is complete (42_code_table.md R115, R116, R120). -/

namespace Sys2Proof.Machine

/-! ## The paths of a code tree -/

namespace CodeTree

/-- A path from a node goes left and on from there, or right. -/
theorem mem_paths_node {l r : CodeTree} {b : Byte} {p : Bits} : (b, p) ∈ (node l r).paths ↔
    (∃ q, (b, q) ∈ l.paths ∧ false :: q = p) ∨ ∃ q, (b, q) ∈ r.paths ∧ true :: q = p := by
  simp [paths]

/-- A path to a leaf ends there, so the path to another leaf cannot begin with it. -/
theorem fst_eq_of_paths_isPrefix {t : CodeTree} {a c : Byte} {p q : Bits} (hp : (a, p) ∈ t.paths)
    (hq : (c, q) ∈ t.paths) (hpq : p <+: q) : a = c := by
  induction t generalizing p q with
  | leaf b => exact (Prod.mk.inj (List.mem_singleton.mp hp)).1.trans (Prod.mk.inj (List.mem_singleton.mp hq)).1.symm
  | node l r ihl ihr =>
    rw [mem_paths_node] at hp hq
    obtain ⟨p, hp, rfl⟩ | ⟨p, hp, rfl⟩ := hp <;> obtain ⟨q, hq, rfl⟩ | ⟨q, hq, rfl⟩ := hq
    · exact ihl hp hq (by simpa using hpq)
    · simp at hpq
    · simp at hpq
    · exact ihr hp hq (by simpa using hpq)

theorem fst_eq_of_codes_isPrefix {t : CodeTree} {a c : Byte} {p q : Bits} (hp : (a, p) ∈ t.codes)
    (hq : (c, q) ∈ t.codes) (hpq : p <+: q) : a = c := by
  cases t with
  | leaf b => exact (Prod.mk.inj (List.mem_singleton.mp hp)).1.trans (Prod.mk.inj (List.mem_singleton.mp hq)).1.symm
  | node l r => exact fst_eq_of_paths_isPrefix (t := .node l r) hp hq hpq

/-- Kraft's sum is 1, here times `2^k`: each of two subtrees contributes half. -/
theorem sum_two_pow_paths (t : CodeTree) {k : Nat} (hk : t.height ≤ k) :
    (t.paths.map fun c => 2 ^ (k - c.2.length)).sum = 2 ^ k := by
  induction t generalizing k with
  | leaf b => simp [paths]
  | node l r ihl ihr =>
    simp only [height] at hk
    obtain ⟨k, rfl⟩ := Nat.exists_eq_add_one_of_ne_zero (show k ≠ 0 by omega)
    have hl := ihl (k := k) (by omega)
    have hr := ihr (k := k) (by omega)
    simp [paths, Function.comp_def, hl, hr, pow_succ, mul_two]

/-- A tree of two or more leaves is no leaf, so its codes are its paths. -/
theorem codes_eq_paths {t : CodeTree} (h : 2 ≤ t.bytes.length) : t.codes = t.paths := by
  cases t with
  | leaf b => simp [bytes] at h
  | node l r => rfl

theorem codes_of_one_leaf {t : CodeTree} (h : t.bytes.length = 1) : ∃ b, t.codes = [(b, [false])] := by
  cases t with
  | leaf b => exact ⟨b, rfl⟩
  | node l r =>
    have := l.height_lt_bytes_length
    have := r.height_lt_bytes_length
    simp only [bytes, List.length_append] at h
    omega

end CodeTree

/-! ## The code tree of a built tree -/

/-- `t` is the code tree that `BuildTree` leaves in the arena, and `GenCodes` gives each of its leaves that leaf's
code (42_code_table.md R115, R116). -/
structure HasCodeTree (freq : Vector Word 256) (tree : Tree) (t : CodeTree) : Prop where
  root : ∃ r, tree.root = some r ∧ Represents tree.nodes r t
  bytes : t.bytes.Perm (countedBytes freq)
  codes : ∀ c ∈ t.codes, codeOf (genCodes tree) c.1 = c.2

theorem exists_hasCodeTree {freq : Vector Word 256} {tree : Tree} (h : buildTree freq = some tree)
    (hne : countedBytes freq ≠ []) : ∃ t, HasCodeTree freq tree t := by
  obtain ⟨t, hroot, hsize, hrep, hbytes⟩ := buildTree_represents h hne
  have hheight := t.height_lt_bytes_length
  rw [hbytes.length_eq, countedBytes_length] at hheight
  have hnodup : (t.codes.map Prod.fst).Nodup := by
    rw [t.codes_map_fst]
    exact hbytes.nodup_iff.mpr (countedBytes_nodup freq)
  have hgen := genCodes_eq_setCodes hrep (by omega)
  rw [← hroot] at hgen
  exact ⟨t, ⟨_, hroot, hrep⟩, hbytes, fun c hc => hgen ▸ codeOf_setCodes_of_mem [] emptyCodes hnodup hc⟩

namespace HasCodeTree
section
variable {freq : Vector Word 256} {tree : Tree} {t : CodeTree} (ht : HasCodeTree freq tree t)
include ht

theorem bytes_length : t.bytes.length = distinctBytes freq := ht.bytes.length_eq.trans (countedBytes_length freq)

theorem mem_codes {b : Byte} (hb : freqOf freq b ≠ 0#32) : (b, codeOf (genCodes tree) b) ∈ t.codes := by
  have hmem : b ∈ t.codes.map Prod.fst := t.codes_map_fst ▸ ht.bytes.mem_iff.mpr (mem_countedBytes.mpr hb)
  obtain ⟨c, hc, rfl⟩ := List.mem_map.mp hmem
  rwa [ht.codes c hc]

/-- A sum over the codes of the counted byte values is one over the codes of the tree. -/
theorem sum_codes (f : Bits → Nat) :
    ((countedBytes freq).map fun b => f (codeOf (genCodes tree) b)).sum = (t.codes.map fun c => f c.2).sum := by
  rw [← (ht.bytes.map _).sum_eq, ← t.codes_map_fst, List.map_map]
  exact congrArg List.sum (List.map_congr_left fun c hc => congrArg f (ht.codes c hc))

end
end HasCodeTree

theorem exists_hasCodeTree_of_counted {freq : Vector Word 256} {tree : Tree} (h : buildTree freq = some tree) {b : Byte}
    (hb : freqOf freq b ≠ 0#32) : ∃ t, HasCodeTree freq tree t :=
  exists_hasCodeTree h (List.ne_nil_of_mem (mem_countedBytes.mpr hb))

/-! ## The path to a leaf (R115, R116) -/

/-- The path to a leaf, followed in the arena, leads to that leaf. -/
theorem Represents.descend_of_mem_paths {nodes : List Node} {n : NodeId} {t : CodeTree} (h : Represents nodes n t)
    {b : Byte} {p : Bits} (hp : (b, p) ∈ t.paths) : ∃ w, descend nodes n p = some (.leaf b w) := by
  induction h generalizing p with
  | leaf h =>
    obtain ⟨rfl, rfl⟩ := Prod.mk.inj (List.mem_singleton.mp hp)
    exact ⟨_, h⟩
  | node h _ _ ihl ihr =>
    obtain ⟨q, hq, rfl⟩ | ⟨q, hq, rfl⟩ := CodeTree.mem_paths_node.mp hp
    · simpa [descend, h] using ihl hq
    · simpa [descend, h] using ihr hq

theorem mem_of_descend {nodes : List Node} {i : NodeId} {n : Node} {p : Bits} (h : descend nodes i p = some n) :
    n ∈ nodes := by
  induction p generalizing i with
  | nil => exact List.mem_of_getElem? h
  | cons d p ih =>
    rw [descend] at h
    split at h
    · exact ih h
    · cases h
    · cases h

/-- Each leaf of the arena has its byte value's frequency as weight (41_tree_builder.md R105). -/
theorem weight_eq_freqOf_of_leaf_mem {freq : Vector Word 256} {tree : Tree} (h : buildTree freq = some tree) {b : Byte}
    {w : Word} (hmem : .leaf b w ∈ tree.nodes) : w = freqOf freq b := by
  obtain ⟨merged, hnodes, hmerged⟩ := leavesThenInternal_of_buildTree h
  obtain hleaf | hinternal := List.mem_append.mp (hnodes ▸ hmem)
  · rw [leaves_eq_map_countedBytes] at hleaf
    obtain ⟨_, -, ⟨rfl, rfl⟩⟩ := List.mem_map.mp hleaf
    rfl
  · obtain ⟨_, _, _, ⟨⟩⟩ := hmerged _ hinternal

/-- Settles O29: a code is a path of the code tree, which the arena represents, or `[0]` where that tree is one leaf. -/
theorem codesAreTreePaths : Obligations.CodesAreTreePaths := by
  intro freq tree b h hb
  obtain ⟨t, ht⟩ := exists_hasCodeTree_of_counted h hb
  have hcode := ht.mem_codes hb
  refine ⟨fun hn => ?_, fun hn => ?_⟩
  · obtain ⟨r, hroot, hrep⟩ := ht.root
    rw [CodeTree.codes_eq_paths (ht.bytes_length ▸ hn)] at hcode
    obtain ⟨w, hw⟩ := hrep.descend_of_mem_paths hcode
    obtain rfl := weight_eq_freqOf_of_leaf_mem h (mem_of_descend hw)
    exact ⟨r, hroot, hw⟩
  · obtain ⟨c, hcodes⟩ := CodeTree.codes_of_one_leaf (ht.bytes_length.trans hn)
    rw [hcodes] at hcode
    exact (Prod.mk.inj (List.mem_singleton.mp hcode)).2

/-! ## No code begins with another (R120) -/

/-- Settles O31: two codes are those of two leaves of one tree. -/
theorem codesArePrefixFree : Obligations.CodesArePrefixFree := by
  intro freq tree a c h hac ha hc hbegins
  obtain ⟨t, ht⟩ := exists_hasCodeTree_of_counted h ha
  exact hac (CodeTree.fst_eq_of_codes_isPrefix (ht.mem_codes ha) (ht.mem_codes hc) hbegins)

/-! ## Kraft's sum (R120) -/

/-- A sum over the byte values that have a code is one over the counted byte values. -/
theorem sum_allBytes_eq_sum_countedBytes {freq : Vector Word 256} {tree : Tree} (h : buildTree freq = some tree)
    (f : Nat → Nat) :
    (allBytes.map fun b =>
      if (codeOf (genCodes tree) b).length = 0 then 0 else f (codeOf (genCodes tree) b).length).sum =
    ((countedBytes freq).map fun b => f (codeOf (genCodes tree) b).length).sum := by
  rw [countedBytes]
  induction allBytes with
  | nil => rfl
  | cons b bs ih =>
    by_cases hb : freqOf freq b = 0#32
    · simp [hb, codeOf_genCodes_of_uncounted h hb, ← ih]
    · simp [hb, (codeOf_genCodes_ne_nil_iff h b).mpr hb, ← ih]

/-- Settles O32: only the counted byte values contribute, each the share of its leaf in Kraft's sum over the tree. -/
theorem codesAreComplete : Obligations.CodesAreComplete := by
  intro freq tree h hn
  have hne : countedBytes freq ≠ [] := List.ne_nil_of_length_pos (by rw [countedBytes_length]; omega)
  obtain ⟨t, ht⟩ := exists_hasCodeTree h hne
  have hheight := t.height_lt_bytes_length
  have hle := distinctBytes_le freq
  rw [ht.bytes_length] at hheight
  calc _ = ((countedBytes freq).map fun b => 2 ^ (255 - (codeOf (genCodes tree) b).length)).sum := by
        rw [← sum_allBytes_eq_sum_countedBytes h fun n => 2 ^ (255 - n), allBytes, List.map_map]
        rfl
    _ = (t.codes.map fun c => 2 ^ (255 - c.2.length)).sum := ht.sum_codes fun p => 2 ^ (255 - p.length)
    _ = 2 ^ 255 := by
        rw [CodeTree.codes_eq_paths (ht.bytes_length ▸ hn)]
        exact t.sum_two_pow_paths (by omega)

end Sys2Proof.Machine
end

section
/-! PROOFS. A code as a number and its readback in eight registers (42_code_table.md R118, 10_state.md R51). -/

namespace Sys2Proof.Machine

/-- A code of at most 256 bits is held without loss. -/
theorem codeval_toNat {code : Bits} (h : code.length ≤ 256) : (codeval code).toNat = bitsToNat code := by
  have hlt := (bitsToNat_lt code).trans_le (Nat.pow_le_pow_right Nat.two_pos h)
  rw [codeval, BitVec.toNat_ofNat, Nat.mod_eq_of_lt hlt]

theorem memRead_codeValRd (k : Fin 8) {s : State} (h : s.phase ≠ .fault) :
    memRead (0x060 + 4 * k.val) 4 s = .next ((codeval (s.codeAt s.selByte)).extractLsb' (32 * k.val) 32, s) := by
  refine (memRead_reg (.codeValRd k) s).trans ?_
  simp [readReg, h, State.view]

/-- Settles O35: the 256-bit number holds the code without loss, and register `k` shows its `k`-th word. -/
theorem codeValueReadsLeftToRight : Obligations.CodeValueReadsLeftToRight := by
  intro s k hphase hlen
  have hval := codeval_toNat (code := s.codeAt s.selByte) (Nat.le_succ_of_le hlen)
  rw [bitsToNat_eq_sum] at hval
  refine ⟨hval, _, memRead_codeValRd k hphase, ?_⟩
  rw [BitVec.extractLsb'_toNat, hval, Nat.shiftRight_eq_div_pow]

end Sys2Proof.Machine
end

section
/-! PROOFS. Packing bits into bytes and reading the bytes back are inverse to each other (00_scope.md R8,
43_bit_packer.md R125, R126). -/

namespace Sys2Proof.Machine

/-! ## One byte -/

theorem pack8_getLsbD {s : Bits} (h : s.length ≤ 8) {j : Nat} (hj : j < 8) :
    (pack8 s).getLsbD j = s.getD (7 - j) false :=
  ofNat_padTo_getLsbD h hj

theorem byteBits_getD (x : Byte) {i : Nat} (hi : i < 8) : (byteBits x).getD i false = x.getLsbD (7 - i) := by
  simp [byteBits, hi]

theorem pack8_byteBits (x : Byte) : pack8 (byteBits x) = x := by
  refine BitVec.eq_of_getLsbD_eq fun j hj => ?_
  rw [pack8_getLsbD (byteBits_length x).le hj, byteBits_getD x (by omega), show 7 - (7 - j) = j by omega]

theorem byteBits_pack8 {s : Bits} (h : s.length = 8) : byteBits (pack8 s) = s := by
  refine List.ext_getElem (by simp [h]) fun i hi hi' => ?_
  have hi : i < 8 := h ▸ hi'
  rw [← List.getD_eq_getElem _ false, ← List.getD_eq_getElem _ false, byteBits_getD _ hi,
    pack8_getLsbD h.le (by omega), show 7 - (7 - i) = i by omega]

/-! ## A stream -/

/-- A stream of less than 8 bits fills no chunk. -/
theorem wholeBytes_of_short {s : Bits} (h : s.length < 8) : wholeBytes s = [] := by
  rw [← List.length_eq_zero_iff, wholeBytes_length, Nat.div_eq_of_lt h]

theorem leftover_of_short {s : Bits} (h : s.length < 8) : leftover s = s := by
  rw [leftover, Nat.div_eq_of_lt h, Nat.mul_zero, List.drop_zero]

/-- The first 8 bits of a stream are its first byte (43_bit_packer.md R126). -/
theorem wholeBytes_append {u : Bits} (hu : u.length = 8) (s : Bits) :
    wholeBytes (u ++ s) = pack8 u :: wholeBytes s := by
  have hfirst : chunk (u ++ s) 0 = u := by rw [chunk, Nat.mul_zero, List.drop_zero, List.take_left' hu]
  have hlater (j : Nat) : chunk (u ++ s) (j + 1) = chunk s j := by
    rw [chunk, Nat.mul_add, Nat.mul_one, Nat.add_comm, ← List.drop_drop, List.drop_left' hu, chunk]
  rw [wholeBytes, List.length_append, hu, Nat.add_div_left _ (by decide), List.range_succ_eq_map, List.map_cons,
    List.map_map, hfirst, wholeBytes]
  simp only [Function.comp_def, Nat.succ_eq_add_one, hlater]

theorem leftover_append {u : Bits} (hu : u.length = 8) (s : Bits) : leftover (u ++ s) = leftover s := by
  rw [leftover, List.length_append, hu, Nat.add_div_left _ (by decide), Nat.mul_succ, Nat.add_comm, ← List.drop_drop,
    List.drop_left' hu, leftover]

/-- The whole bytes of a stream and the bits left over are the stream (43_bit_packer.md R125, R127). -/
theorem flatMap_byteBits_wholeBytes (s : Bits) : (wholeBytes s).flatMap byteBits ++ leftover s = s := by
  by_cases h : s.length < 8
  · rw [wholeBytes_of_short h, leftover_of_short h, List.flatMap_nil, List.nil_append]
  · have hu : (s.take 8).length = 8 := List.length_take_of_le (Nat.not_lt.mp h)
    conv_lhs => rw [← List.take_append_drop 8 s]
    rw [wholeBytes_append hu, leftover_append hu, List.flatMap_cons, byteBits_pack8 hu, List.append_assoc,
      flatMap_byteBits_wholeBytes (s.drop 8), List.take_append_drop]
termination_by s.length
decreasing_by
  rw [List.length_drop]
  omega

/-- Bytes followed by less than 8 bits have those bytes as their whole ones. -/
theorem wholeBytes_flatMap_byteBits (xs : List Byte) {s : Bits} (h : s.length < 8) :
    wholeBytes (xs.flatMap byteBits ++ s) = xs := by
  induction xs with
  | nil => exact wholeBytes_of_short h
  | cons x xs ih =>
    rw [List.flatMap_cons, List.append_assoc, wholeBytes_append (byteBits_length x), pack8_byteBits, ih]

theorem leftover_flatMap_byteBits (xs : List Byte) {s : Bits} (h : s.length < 8) :
    leftover (xs.flatMap byteBits ++ s) = s := by
  induction xs with
  | nil => exact leftover_of_short h
  | cons x xs ih => rw [List.flatMap_cons, List.append_assoc, leftover_append (byteBits_length x), ih]

end Sys2Proof.Machine
end

section
/-! PROOFS. Every step keeps the stream model (43_bit_packer.md R125, R129, 44_output_port.md R139): what `CLEAR`, a
reset edge and a read of `OUT_DATA` do exactly, and then the effects of a step one by one. -/

namespace Sys2Proof.Machine

/-! ## The steps that the history names -/

/-- A step writes a command word where the host moves and its next access is the write to `CMD`. -/
theorem commandOp_of_commandNow {s : State} {w : Word} (h : s.commandNow = some w) :
    s.mover = .host ∧ ∃ rest, s.hostProg = commandOp w :: rest := by
  obtain ⟨hm, hop⟩ : s.mover = .host ∧ s.hostProg.head?.bind HostOp.command = some w := by
    simpa [State.commandNow] using h
  obtain ⟨op, hhead, hcommand⟩ := Option.bind_eq_some_iff.mp hop
  obtain ⟨rest, hprog⟩ := List.head?_eq_some_iff.mp hhead
  refine ⟨hm, rest, ?_⟩
  cases op with
  | memWrite off n v =>
    obtain ⟨⟨rfl, rfl⟩, rfl⟩ : (off = 0x008 ∧ n = 4) ∧ v = w := by simpa [HostOp.command] using hcommand
    exact hprog
  | memRead _ _ _ | drain | wait | waitPop _ => cases hcommand

theorem completesNow_eq_some {s : State} {p : Pending} :
    s.completesNow = some p ↔ (s.mover = .block ∧ s.blockEnabled = true) ∧ s.pending = some p := by
  simp [State.completesNow]

/-- A step that writes a command word completes nothing and reads no `OUT_DATA`. -/
theorem completesNow_of_commandNow {s : State} {w : Word} (h : s.commandNow = some w) : s.completesNow = none := by
  obtain ⟨hm, -⟩ := commandOp_of_commandNow h
  simp [State.completesNow, hm]

theorem readsOutDataNow_of_commandNow {s : State} {w : Word} (h : s.commandNow = some w) :
    s.readsOutDataNow = false := by
  obtain ⟨-, rest, hprog⟩ := commandOp_of_commandNow h
  simp [State.readsOutDataNow, hprog, commandOp, HostOp.readsOutData]

theorem onCmdWrite_clearWord (s : State) : onCmdWrite clearWord s = .next (clear s) :=
  onCmdWrite_of_ok s (decode_encode .clear)

/-- `CLEAR` and a reset edge leave the items as reset does, and `OUTQ` empty. -/
theorem step_of_clearsNow {s t : State} (h : step s = .next t) (hc : s.clearsNow = true) :
    SameItems State.reset t ∧ t.outq = [] := by
  simp only [State.clearsNow, Bool.or_eq_true, beq_iff_eq] at hc
  obtain hm | hw := hc
  · rw [step_of_rst hm] at h
    cases h
    exact ⟨rfl, rfl⟩
  · obtain ⟨hm, rest, hprog⟩ := commandOp_of_commandNow hw
    rw [step_of_host hm, hostStep_command (s := s.takeTurn) hprog, onCmdWrite_clearWord] at h
    cases h
    exact ⟨rfl, rfl⟩

theorem readOutData_outq (s : State) : (readOutData s).2.outq = s.outq.tail := by
  obtain ⟨hq, h⟩ | ⟨x, q, hq, h⟩ := readOutData_cases s <;> simp [h, hq]

/-- A host access that reads `OUT_DATA` takes the head of `OUTQ`, where there is one (44_output_port.md R137). -/
theorem hostStep_outq_of_reads {s t : State} (h : hostStep s = .next t)
    (hr : (s.hostProg.head?.map HostOp.readsOutData).getD false = true) : t.outq = s.outq.tail := by
  unfold hostStep at h
  split at h
  · next hprog => simp [hprog] at hr
  · next off n name rest hprog =>
    obtain ⟨rfl, rfl⟩ : off = 0x00C ∧ n = 4 := by simpa [hprog, HostOp.readsOutData] using hr
    obtain ⟨v, u, hread, rfl⟩ := hostRead_next h
    have hread := Host.Outcome.next.inj ((memRead_outData _).symm.trans hread)
    exact (congrArg (·.2.outq) hread).symm.trans (readOutData_outq _)
  · next hprog => simp [hprog, HostOp.readsOutData] at hr
  · next rest hprog =>
    cases h
    obtain ⟨-, -, hq⟩ := hostDrain_keeps rest { s with hostProg := rest }
    exact hq.trans (readOutData_outq _)
  · next hprog => simp [hprog, HostOp.readsOutData] at hr
  · next busy rest hprog =>
    cases h
    obtain ⟨-, -, hq⟩ := hostWaitPop_keeps busy rest { s with hostProg := rest }
    exact hq.trans (readOutData_outq _)

theorem step_outq_of_readsOutDataNow {s t : State} (h : step s = .next t) (hr : s.readsOutDataNow = true) :
    t.outq = s.outq.tail := by
  obtain ⟨hm, hop⟩ : s.mover = .host ∧ (s.hostProg.head?.map HostOp.readsOutData).getD false = true := by
    simpa [State.readsOutDataNow] using hr
  rw [step_of_host hm] at h
  exact hostStep_outq_of_reads (s := s.takeTurn) h hop

/-- A step that completes a command leaves nothing pending. -/
theorem pending_of_completesNow {s t : State} {p : Pending} (h : step s = .next t) (hc : s.completesNow = some p) :
    s.pending = some p ∧ t.pending = none := by
  obtain ⟨⟨hm, he⟩, hp⟩ := completesNow_eq_some.mp hc
  rw [step_of_block hm] at h
  cases h
  obtain ⟨hn, -⟩ | ⟨q, -, -, hb⟩ := blockStep_cases s.takeTurn
  · exact absurd (he.symm.trans hn) (by decide)
  · exact ⟨hp, hb ▸ complete_pending q _⟩

theorem clearsNow_of_completesNow {s : State} {p : Pending} (hc : s.completesNow = some p) : s.clearsNow = false := by
  obtain ⟨⟨hm, -⟩, -⟩ := completesNow_eq_some.mp hc
  simp [State.clearsNow, State.commandNow, hm]

/-! ## The history after a step -/

namespace History

variable {s : State} (h : History) (t : State)

theorem after_of_clearsNow (hc : s.clearsNow = true) : h.after s t = ⟨[], [], []⟩ := by
  simp [after, hc]

theorem after_of_completes_build (hc : s.completesNow = some .build) : h.after s t = h := by
  simp [after, hc, clearsNow_of_completesNow hc]

theorem after_of_completes_encode {b : Byte} (hc : s.completesNow = some (.encode b)) :
    h.after s t = ⟨h.stream ++ s.codeAt b, h.emitted ++ t.outq.drop s.outq.length, h.drained⟩ := by
  simp [after, hc, clearsNow_of_completesNow hc]

theorem after_of_completes_flush (hc : s.completesNow = some .flush) :
    h.after s t = ⟨h.stream, h.emitted ++ t.outq.drop s.outq.length, h.drained⟩ := by
  simp [after, hc, clearsNow_of_completesNow hc]

theorem after_of_quiet (hclear : s.clearsNow = false) (hc : s.completesNow = none) : h.after s t =
    { h with drained := h.drained ++ if s.readsOutDataNow then s.outq.take 1 else [] } := by
  by_cases hr : s.readsOutDataNow = true <;> simp [after, hclear, hc, hr]

end History

/-! ## The effects of a step -/

namespace StreamModel

variable {s t : State} {h : History}

/-- The items are unchanged, and what has left `OUTQ` has been drained. -/
theorem of_sameItems (m : StreamModel h s) (hi : SameItems s t) {out : List Byte} (hq : out ++ t.outq = s.outq) :
    StreamModel { h with drained := h.drained ++ out } t where
  counting hp := m.counting (hi.phase ▸ hp)
  coded hp := hi.acc ▸ m.coded (hi.phase ▸ hp)
  done hp := m.done (hi.phase ▸ hp)
  counters hp := by
    rw [hi.bitcnt, hi.outcnt]
    exact m.counters (hi.phase ▸ hp)
  fifo := by rw [List.append_assoc, hq, m.fifo]

theorem of_sameItems_of_outq_eq (m : StreamModel h s) (hi : SameItems s t) (hq : t.outq = s.outq) :
    StreamModel h t := by
  simpa using m.of_sameItems hi (out := []) hq

/-- A command word other than `CLEAR` moves no byte and encodes no bit. -/
theorem of_commandEffect {w : Word} (m : StreamModel h s) (hw : w ≠ clearWord) (ht : CommandEffect w s t) :
    StreamModel h t := by
  cases ht with
  | ignored _ => exact m
  | cleared hclear => exact absurd hclear hw
  | faulted code _ _ =>
    exact {
      counting := nofun
      coded := nofun
      done := nofun
      counters := fun hp => absurd rfl hp
      fifo := m.fifo }
  | counted _ _ _ _ _ | accepted _ _ _ _ _ => exact ⟨m.counting, m.coded, m.done, m.counters, m.fifo⟩

/-- In COUNT the stream is empty, and so it is when the codes have been built. -/
theorem buildDone (m : StreamModel h s) (hs : s.Sequenced) (hphase : s.phase = .count) (tree : Tree) :
    StreamModel h (buildDone tree s) where
  counting := nofun
  coded _ := by
    obtain ⟨hstream, hemitted⟩ := m.counting hphase
    obtain ⟨-, -, -, hacc, -⟩ := hs.counting hphase
    simp [hstream, hemitted, hacc]
  done := nofun
  counters _ := m.counters (by simp [hphase])
  fifo := m.fifo

/-- The bits not yet emitted and the code are cut into the bytes emitted and the new rest (43_bit_packer.md R127). -/
theorem completeEncode (m : StreamModel h s) (hphase : s.phase = .coded) (b : Byte) :
    StreamModel ⟨h.stream ++ s.codeAt b, h.emitted ++ wholeBytes (s.acc ++ s.codeAt b), h.drained⟩
      (completeEncode b s) where
  counting hp := by simp [hphase] at hp
  coded _ := by
    obtain ⟨hbits, hlen⟩ := m.coded hphase
    constructor
    · rw [completeEncode_acc, List.flatMap_append, List.append_assoc, flatMap_byteBits_wholeBytes,
        ← List.append_assoc, hbits]
    · simp [hlen]
  done hp := by simp [hphase] at hp
  counters _ := by
    obtain ⟨hbitcnt, houtcnt⟩ := m.counters (by simp [hphase])
    simp [hbitcnt, houtcnt, BitVec.ofNat_add, State.codeLen]
  fifo := by rw [completeEncode_outq, ← List.append_assoc, m.fifo]

/-- The bits not yet emitted are the leftover of the stream, and end it as one padded byte (43_bit_packer.md R128). -/
theorem completeFlush (m : StreamModel h s) (hphase : s.phase = .coded) :
    StreamModel ⟨h.stream, h.emitted ++ if s.acc = [] then [] else [pack8 s.acc], h.drained⟩ (completeFlush s) where
  counting hp := by simp at hp
  coded hp := by simp at hp
  done _ := by
    obtain ⟨hbits, hlen⟩ := m.coded hphase
    have hshort : s.acc.length < 8 := hlen ▸ Nat.mod_lt _ (by decide)
    rw [packedOutput, ← hbits, wholeBytes_flatMap_byteBits _ hshort, leftover_flatMap_byteBits _ hshort]
  counters _ := by
    obtain ⟨hbitcnt, houtcnt⟩ := m.counters (by simp [hphase])
    rw [completeFlush_bitcnt, completeFlush_outcnt]
    refine ⟨hbitcnt, ?_⟩
    split
    · simpa using houtcnt
    · simp [houtcnt, BitVec.ofNat_add]
  fifo := by
    rw [completeFlush_outq, ← m.fifo]
    split <;> simp

/-- A completion adds its bits to the stream and its bytes to those emitted. -/
theorem complete {p : Pending} (m : StreamModel h s) (hs : s.Sequenced) (hc : s.completesNow = some p) :
    StreamModel (h.after s (complete p s.takeTurn)) (complete p s.takeTurn) := by
  have m := m.of_sameItems_of_outq_eq (takeTurn_sameItems s) rfl
  have hs := hs.of_sameItems (takeTurn_sameItems s) id
  obtain ⟨-, hp⟩ := completesNow_eq_some.mp hc
  have hphase : s.takeTurn.phase = p.startPhase := hs.phase_of_pending hp
  cases p with
  | build =>
    obtain ⟨tree, -, hbuild⟩ := complete_build s.takeTurn
    rw [hbuild, h.after_of_completes_build _ hc]
    exact m.buildDone hs hphase tree
  | encode b =>
    rw [h.after_of_completes_encode _ hc, complete_encode, completeEncode_outq, takeTurn_outq, List.drop_left]
    exact m.completeEncode hphase b
  | flush =>
    have hout : (Machine.completeFlush s.takeTurn).outq = s.outq ++ if s.acc = [] then [] else [pack8 s.acc] := by
      rw [completeFlush_outq, takeTurn_acc, takeTurn_outq]
      split <;> simp
    rw [h.after_of_completes_flush _ hc, complete_flush, hout, List.drop_left]
    exact m.completeFlush hphase

/-- An access that writes no command drains what it takes from `OUTQ`. -/
theorem quiet (m : StreamModel h s) (hstep : step s = .next t) (hclear : s.clearsNow = false)
    (ht : QuietAccess (s.readsOutDataNow = true) s t) : StreamModel (h.after s t) t := by
  have hc : s.completesNow = none := by
    refine Option.eq_none_iff_forall_ne_some.mpr fun p hc => ?_
    obtain ⟨hp, hn⟩ := pending_of_completesNow hstep hc
    simp [ht.sameItems.pending, hp] at hn
  obtain ⟨hi, hq⟩ := ht
  rw [h.after_of_quiet _ hclear hc]
  refine m.of_sameItems hi ?_
  split
  · next hr =>
    rw [step_outq_of_readsOutDataNow hstep hr, ← List.drop_one, List.take_append_drop]
  · next hr => exact hq.resolve_right fun ⟨hr', _⟩ => hr hr'

end StreamModel

/-- Settles O58: `CLEAR` and a reset begin a new stream; a completion extends the stream and the bytes emitted
together; a read of `OUT_DATA` drains what it takes; and no other access touches either end. -/
theorem everyStepKeepsStreamModel : Obligations.EveryStepKeepsStreamModel := by
  intro s t h hs m hstep
  cases hclear : s.clearsNow with
  | true =>
    obtain ⟨hi, hq⟩ := step_of_clearsNow hstep hclear
    rw [h.after_of_clearsNow t hclear]
    exact streamModel_reset.of_sameItems hi (out := []) hq
  | false =>
    cases step_effect hstep with
    | reset hm => simp [clearsNow_of_reset hm] at hclear
    | command w hw ht =>
      have hne : w ≠ clearWord := fun e => by simp [clearsNow_of_clearWord (e ▸ hw)] at hclear
      have hafter : h.after s t = h := by
        simp [h.after_of_quiet t hclear (completesNow_of_commandNow hw), readsOutDataNow_of_commandNow hw]
      rw [hafter]
      exact (m.of_sameItems_of_outq_eq (takeOp_sameItems s) rfl).of_commandEffect hne ht
    | completed p hc _ _ => exact m.complete hs hc
    | quiet ht => exact m.quiet hstep hclear ht

end Sys2Proof.Machine
end

section
/-! PROOFS. `ENCODE b` and `FLUSH`: their acceptance and their completion as one step of the block, and a command that
holds (43_bit_packer.md R127, R128, 45_control.md R147, R148). -/

namespace Sys2Proof.Machine

/-! A turn of the block after the acceptance of a command (45_control.md R148). -/

section
variable {p : Pending} {s : State} (ts : List Turn)

/-- Whether a command is ready does not depend on what is pending or on the interleaving. -/
theorem readyAt_accepted :
    readyAt Config.outDepth p { s with pending := some p, turns := ts } = true ↔ readyAt Config.outDepth p s = true :=
  KeepsReadyInputs.readyAt_iff ⟨rfl, rfl, rfl⟩ _ p

theorem step_accepted_of_ready (h : readyAt Config.outDepth p s = true) :
    step { s with pending := some p, turns := .block :: ts } =
      .next (complete p { s with pending := some p, turns := ts }) :=
  step_block_of_ready rfl rfl ((readyAt_accepted _).mpr h)

/-- A command that is not ready holds (00_scope.md R10). -/
theorem step_accepted_of_not_ready (h : ¬ readyAt Config.outDepth p s = true) :
    step { s with pending := some p, turns := .block :: ts } = .next { s with pending := some p, turns := ts } := by
  rw [step_of_block rfl]
  simp [blockStep, blockStepAt, State.takeTurn, readyAt_accepted, h]

end

theorem readyAt_encode_iff {depth : Nat} {b : Byte} {s : State} :
    readyAt depth (.encode b) s = true ↔ s.outq.length + (s.acc ++ s.codeAt b).length / 8 ≤ depth := by
  rw [readyAt, encodeReadyAt, decide_eq_true_eq, encodeRoom, State.codeLen, List.length_append]

theorem readyAt_flush_iff {depth : Nat} {s : State} :
    readyAt depth .flush s = true ↔ s.acc = [] ∨ s.outq.length < depth := by
  simp [readyAt, flushReadyAt]

/-- The completion of `ENCODE b`, item by item (43_bit_packer.md R127). -/
theorem completeEncode_eq (b : Byte) (s : State) : completeEncode b s = { s with
    outq := s.outq ++ wholeBytes (s.acc ++ s.codeAt b)
    acc := leftover (s.acc ++ s.codeAt b)
    bitcnt := s.bitcnt + BitVec.ofNat 64 (s.codeLen b)
    outcnt := s.outcnt + BitVec.ofNat 32 ((s.acc ++ s.codeAt b).length / 8)
    pending := none } := by
  simp [completeEncode, fifoPushAll_eq]

theorem completeFlush_of_acc_nil {s : State} (h : s.acc = []) : completeFlush s = { s with
    phase := .done
    intStatus := s.intStatus ||| flushI
    pending := none } := by
  rw [completeFlush, flushByte, if_pos h, ← h]

theorem completeFlush_of_acc_ne_nil {s : State} (h : s.acc ≠ []) : completeFlush s = { s with
    outq := s.outq ++ [pack8 s.acc]
    outcnt := s.outcnt + 1#32
    acc := []
    phase := .done
    intStatus := s.intStatus ||| flushI
    pending := none } := by
  rw [completeFlush, flushByte, if_neg h]
  rfl

/-- In CODED with nothing pending, `ENCODE` of a byte that has a code becomes pending (43_bit_packer.md R127). -/
theorem exec_encode_of_coded {b : Byte} {s : State} (hphase : s.phase = .coded) (hpending : s.pending = none)
    (hcode : s.codeLen b ≠ 0) : exec (.encode b) s = .next { s with pending := some (.encode b) } := by
  have haccept := accept_legal (i := .encode b) (encodeOwn b) (by simp [hphase]) hpending (by simp [hphase, legal])
  exact congrArg Host.Outcome.next (haccept.trans (if_neg hcode))

/-- In CODED with nothing pending, `FLUSH` becomes pending (43_bit_packer.md R128). -/
theorem exec_flush_of_coded {s : State} (hphase : s.phase = .coded) (hpending : s.pending = none) :
    exec .flush s = .next { s with pending := some .flush } :=
  congrArg Host.Outcome.next (accept_legal _ (by simp [hphase]) hpending (by simp [hphase, legal]))

/-- Settles O13: the acceptance writes `PENDING` alone; the block's step is `completeEncode` where the whole bytes fit
in the FIFO, and changes nothing where they do not. -/
theorem encodeIsAcceptedThenCompletes : Obligations.EncodeIsAcceptedThenCompletes := by
  intro b s ts hphase hpending hcode bits k
  refine ⟨exec_encode_of_coded hphase hpending hcode, fun hroom => ?_, fun hfull => ?_⟩
  · exact (step_accepted_of_ready ts (readyAt_encode_iff.mpr hroom)).trans
      (congrArg Host.Outcome.next (completeEncode_eq b _))
  · exact step_accepted_of_not_ready ts (mt readyAt_encode_iff.mp (Nat.not_le.mpr hfull))

/-- Settles O14: the acceptance writes `PENDING` alone; the block's step is `completeFlush`, with or without a byte to
push, and changes nothing where there is a byte and the FIFO is full. -/
theorem flushIsAcceptedThenCompletes : Obligations.FlushIsAcceptedThenCompletes := by
  intro s ts hphase hpending
  refine ⟨exec_flush_of_coded hphase hpending, fun hacc => ?_, fun hacc hroom => ?_, fun hacc hfull => ?_⟩
  · exact (step_accepted_of_ready ts (readyAt_flush_iff.mpr (.inl hacc))).trans
      (congrArg Host.Outcome.next (completeFlush_of_acc_nil hacc))
  · exact (step_accepted_of_ready ts (readyAt_flush_iff.mpr (.inr hroom))).trans
      (congrArg Host.Outcome.next (completeFlush_of_acc_ne_nil hacc))
  · exact step_accepted_of_not_ready ts
      (mt readyAt_flush_iff.mp (not_or.mpr ⟨hacc, Nat.not_lt.mpr hfull⟩))

end Sys2Proof.Machine
end

section
/-! PROOFS. A host in `WAIT` frees the FIFO byte by byte until the pending command completes (43_bit_packer.md R130,
70_reset_and_hazards.md R193). -/

namespace Sys2Proof.Machine

theorem run_succ_of_step {M : Host.Core} {s t : M.State} (h : M.step s = .next t) (n : Nat) :
    M.run (n + 1) s = M.run n t := by
  simp only [Host.Core.run, h]

theorem runSteps_succ {s t : State} (h : step s = .next t) (n : Nat) : runSteps (n + 1) s = runSteps n t :=
  run_succ_of_step (M := core) h n

/-- A command within its bounds is ready once the FIFO is empty: a code and the bits before it fill at most 32 bytes. -/
theorem State.Bounded.outq_ne_nil_of_not_ready {p : Pending} {s : State} (h : s.Bounded)
    (hheld : ¬ readyAt Config.outDepth p s = true) : s.outq ≠ [] := by
  intro hq
  obtain ⟨hdepth, -⟩ := outDepth_bounds
  refine hheld ?_
  cases p with
  | build => rfl
  | encode b =>
    have hacc := h.acc
    have hcode : (s.codeAt b).length ≤ 255 := h.code b
    rw [readyAt_encode_iff, hq, List.length_append, List.length_nil]
    omega
  | flush =>
    rw [readyAt_flush_iff, hq, List.length_nil]
    exact .inr (by omega)

/-- The command `p` is pending within its bounds, the host stands at the head of `WAIT`, and the interleaving has run
out (log 1). -/
structure State.WaitsFor (s : State) (p : Pending) (rest : List HostOp) : Prop where
  bounded : s.Bounded
  pending : s.pending = some p
  turns : s.turns = []
  hostProg : s.hostProg = .wait :: rest

/-- The state after a pass of `WAIT` that read `BUSY` as 1 and took the head of `OUTQ` (30_encoding.md R87). -/
def State.afterWaitPass (s : State) : State :=
  { s with outq := s.outq.tail, outbuf := s.outbuf ++ s.outq.take 1 }

namespace State.WaitsFor

variable {s : State} {p : Pending} {rest : List HostOp}

theorem afterWaitPass (h : s.WaitsFor p rest) : s.afterWaitPass.WaitsFor p rest where
  bounded := h.bounded.of_sameItems rfl (by simp [State.afterWaitPass])
  pending := h.pending
  turns := h.turns
  hostProg := h.hostProg

/-- A command that is ready completes at once. -/
theorem runSteps_of_ready (h : s.WaitsFor p rest) (hready : readyAt Config.outDepth p s = true) :
    ∃ t, runSteps 1 s = .next t ∧ t.pending = none := by
  have he : s.blockEnabled = true := (blockEnabled_of_pending h.pending).trans hready
  have hm : s.mover = .block := by simp [mover, h.turns, he]
  obtain ⟨-, hdone⟩ := pending_of_completesNow (step_of_block hm) (completesNow_eq_some.mpr ⟨⟨hm, he⟩, h.pending⟩)
  exact ⟨_, runSteps_succ (step_of_block hm) 0, hdone⟩

/-- While the command holds, the host makes a pass of `WAIT`, in two steps. -/
theorem runSteps_of_not_ready (h : s.WaitsFor p rest) (hheld : ¬ readyAt Config.outDepth p s = true) (n : Nat) :
    runSteps (n + 2) s = runSteps n s.afterWaitPass := by
  obtain ⟨hfirst, hsecond, -⟩ := pseudoInstructionsRunTheirLoops
  obtain ⟨-, hdepth⟩ := outDepth_bounds
  have he : s.blockEnabled = false := by simpa [blockEnabled_of_pending h.pending] using hheld
  have hm : s.mover = .host := by simp [mover, h.turns, he]
  have hwait : step s = .next { s with hostProg := .waitPop true :: rest } := by
    rw [hfirst s rest hm h.hostProg (h.bounded.outq.trans hdepth)]
    simp [h.bounded.outq_ne_nil_of_not_ready hheld, busy, h.pending, h.turns]
  have hpop : step { s with hostProg := .waitPop true :: rest } = .next s.afterWaitPass := by
    rw [hsecond { s with hostProg := .waitPop true :: rest } rest true hm rfl]
    simp [State.afterWaitPass, h.turns, h.hostProg]
  rw [runSteps_succ hwait, runSteps_succ hpop]

/-- Each pass takes one byte from the FIFO, and the command is ready when none is left, if not before. -/
theorem exists_runSteps {s : State} (h : s.WaitsFor p rest) :
    ∃ n t, n ≤ 2 * s.outq.length + 1 ∧ runSteps n s = .next t ∧ t.pending = none := by
  by_cases hready : readyAt Config.outDepth p s = true
  · obtain ⟨t, hrun, hdone⟩ := h.runSteps_of_ready hready
    exact ⟨1, t, by omega, hrun, hdone⟩
  · have hshorter : s.afterWaitPass.outq.length + 1 = s.outq.length := by
      have := List.length_pos_of_ne_nil (h.bounded.outq_ne_nil_of_not_ready hready)
      rw [State.afterWaitPass, List.length_tail]
      omega
    obtain ⟨n, t, hn, hrun, hdone⟩ := h.afterWaitPass.exists_runSteps
    exact ⟨n + 2, t, by omega, (h.runSteps_of_not_ready hready n).trans hrun, hdone⟩
termination_by s.outq.length

end State.WaitsFor

/-- Settles O55: while the command holds, each pass of `WAIT` takes two steps and one byte; an empty FIFO has room for
any code. -/
theorem waitingHostLetsCommandComplete : Obligations.WaitingHostLetsCommandComplete := by
  intro s rest h hpending hturns hprog
  obtain ⟨p, hp⟩ := Option.ne_none_iff_exists'.mp hpending
  exact State.WaitsFor.exists_runSteps ⟨h, hp, hturns, hprog⟩

end Sys2Proof.Machine
end

section
/-! PROOFS. The output port: what a read of `OUT_DATA` returns and takes (10_state.md R41, 44_output_port.md R137). -/

namespace Sys2Proof.Machine

/-- VALID above the byte's field (10_state.md R41). -/
theorem valid_append_byte (x : Byte) : 0#23 ++ 1#1 ++ x = 0x00000100#32 ||| x.setWidth 32 := by
  have h := BitVec.setWidth_append_eq_shiftLeft_setWidth_or (w'' := 32) (b := 0#23 ++ 1#1) (b' := x)
  rwa [BitVec.setWidth_eq] at h

theorem memRead_outData_empty {s : State} (h : s.outq = []) : memRead 0x00C 4 s = .next (0#32, s) := by
  rw [memRead_outData, readOutData, fifoPop_empty h]

theorem memRead_outData_cons {s : State} {x : Byte} {q : List Byte} (h : s.outq = x :: q) :
    memRead 0x00C 4 s = .next (0x00000100#32 ||| x.setWidth 32, { s with outq := q }) := by
  rw [memRead_outData, readOutData, fifoPop_cons h, ← valid_append_byte]

/-- Settles O44: the register at this offset pops the FIFO on a read and is read-only. -/
theorem outDataReadPops : Obligations.OutDataReadPops := fun s =>
  ⟨fun _ _ => memRead_outData_cons, memRead_outData_empty, fun v => memWrite_reg .outData v s⟩

end Sys2Proof.Machine
end

section
/-! PROOFS. The control unit (45_control.md): the steps of a `CMD` write in their order (R145), the legal phases of the
commands (R146), what an acceptance shows (R151), and `NOP` and `CLEAR` (R149, R150). -/

namespace Sys2Proof.Machine

/-! ## A command's own steps -/

/-- What a command does where the common steps of 45_control.md R145 let it pass. `CLEAR` does not meet those steps. -/
def ownSteps : Instr → State → State
  | .nop, s => s
  | .clear, s => clear s
  | .count b, s => countOwn b s
  | .build, s => { s with pending := some .build }
  | .encode b, s => encodeOwn b s
  | .flush, s => { s with pending := some .flush }

/-- Every command but `CLEAR` is the common steps, then its own. -/
theorem exec_of_ne_clear {i : Instr} (hi : i ≠ .clear) (s : State) : exec i s = .next (accept i (ownSteps i) s) := by
  cases i with
  | clear => exact absurd rfl hi
  | nop | count _ | build | encode _ | flush => rfl

/-- A command's own steps never raise `SEQUENCE`: that is the common steps' (60_exceptions.md R169). -/
theorem ownSteps_errCode_ne_sequence (i : Instr) {s : State} (hs : s.phase ≠ .fault)
    (ht : (ownSteps i s).phase = .fault) : (ownSteps i s).errCode ≠ .sequence := by
  cases i with
  | nop | build | flush => exact absurd ht hs
  | clear => cases ht
  | count b =>
    simp only [ownSteps, countOwn] at ht ⊢
    split at ht
    · next hlen => simp [hlen]
    · exact absurd ht hs
  | encode b =>
    simp only [ownSteps, encodeOwn] at ht ⊢
    split at ht
    · next hcode => simp [hcode]
    · exact absurd ht hs

theorem encode_ne_clearWord {i : Instr} (hi : i ≠ .clear) : encode i ≠ clearWord :=
  fun h => hi (encode_injective (j := .clear) h)

/-! ## `OnCmdWrite` (45_control.md R145) -/

/-- The common steps as R145 writes them, for a word that is not `CLEAR`'s: `u` is what is left once the phase is not
FAULT and nothing is pending. -/
theorem exec_eq_steps (i : Instr) (hi : i ≠ .clear) {s u : State}
    (hu : s.phase ≠ .fault →
      (if legal i s.phase = false then raiseFault .sequence (encode i) s else ownSteps i s) = u) :
    exec i s = .next (
      if s.phase = .fault then (if encode i = clearWord then clear s else s)
      else if encode i = clearWord then clear s
      else if s.pending ≠ none then raiseFault .overrun (encode i) s
      else u) := by
  rw [exec_of_ne_clear hi, accept, if_neg (encode_ne_clearWord hi), if_neg (encode_ne_clearWord hi)]
  split
  · rfl
  · next hf => rw [hu hf]

/-- The same for a command with one legal phase. -/
theorem exec_eq_steps_of_one_phase {p : Phase} (i : Instr) (hi : i ≠ .clear) (hp : ∀ q, legal i q = (q == p))
    {s : State} : exec i s = .next (
      if s.phase = .fault then (if encode i = clearWord then clear s else s)
      else if encode i = clearWord then clear s
      else if s.pending ≠ none then raiseFault .overrun (encode i) s
      else if s.phase ≠ p then raiseFault .sequence (encode i) s
      else ownSteps i s) :=
  exec_eq_steps i hi fun _ => by simp [hp]

/-- Settles O6: an ill-formed word meets the common steps and then `ILLEGAL_CMD`, `CLEAR` meets none of them, and every
other command meets them before its own. -/
theorem commandWriteRunsAcceptanceSteps : Obligations.CommandWriteRunsAcceptanceSteps := by
  intro w s
  cases hd : decode w with
  | error e =>
    have hne : w ≠ 0x01000000#32 := by
      rintro rfl
      cases (decode_encode .clear).symm.trans hd
    rw [onCmdWrite_of_error s hd, rejectIllFormed, if_neg hne, if_neg hne]
  | ok i =>
    rw [onCmdWrite_of_ok s hd]
    obtain rfl := eq_encode_of_decode hd
    cases i with
    | clear =>
      have hw : encode .clear = 0x01000000#32 := rfl
      rw [if_pos hw, if_pos hw, ite_self]
      rfl
    | nop => exact exec_eq_steps .nop nofun fun hf => if_neg (by simp [legal, hf])
    | count b => exact exec_eq_steps_of_one_phase (.count b) nofun fun _ => rfl
    | build => exact exec_eq_steps_of_one_phase .build nofun fun _ => rfl
    | encode b => exact exec_eq_steps_of_one_phase (.encode b) nofun fun _ => rfl
    | flush => exact exec_eq_steps_of_one_phase .flush nofun fun _ => rfl

/-! ## The legal phases (45_control.md R146) -/

/-- Settles O7: `legal` is the table of R146, the common steps raise `SEQUENCE` outside it, and inside it only the
command's own steps are left. -/
theorem legalPhasesDecideSequenceFault : Obligations.LegalPhasesDecideSequenceFault := by
  unfold Obligations.LegalPhasesDecideSequenceFault
  intro phases i s
  have hlegal : legal i s.phase = true ↔ s.phase ∈ phases i := by
    cases i with
    | nop | clear => cases s.phase <;> simp [legal, phases]
    | count _ | build | encode _ | flush => simp [legal, phases]
  by_cases hi : i = .clear
  · subst hi
    exact ⟨fun _ => rfl, fun h => absurd rfl h, fun _ _ hout => absurd (hlegal.mp rfl) hout,
      fun _ _ _ => ⟨clear s, rfl, nofun⟩⟩
  · rw [exec_of_ne_clear hi]
    refine ⟨fun h => absurd h hi, fun _ hf => ?_, fun hf hp hout => ?_, fun hf hp hin => ?_⟩
    · rw [accept_in_fault i _ hf]
    · rw [accept_out_of_phase _ hf hp (Bool.eq_false_iff.mpr (mt hlegal.mp hout))]
    · exact ⟨ownSteps i s, by rw [accept_legal _ hf hp (hlegal.mpr hin)], ownSteps_errCode_ne_sequence i hf⟩

/-! ## What an acceptance shows (45_control.md R151) -/

/-- A multi-cycle command that raises no fault has only become pending. -/
theorem exists_pending_of_exec {i : Instr} {s t : State} (hi : i = .build ∨ i = .flush ∨ ∃ b, i = .encode b)
    (h : exec i s = .next t) (ht : t.phase ≠ .fault) : ∃ p, t = { s with pending := some p } := by
  cases exec_effect h with
  | ignored hs =>
    have hnop : i = .nop := encode_injective (hs.resolve_left ht)
    simp [hnop] at hi
  | cleared hw =>
    have hclear : i = .clear := encode_injective (j := .clear) hw
    simp [hclear] at hi
  | faulted _ _ _ => exact absurd rfl ht
  | counted b hw _ _ _ =>
    have hcount : i = .count b := encode_injective hw
    simp [hcount] at hi
  | accepted p _ _ _ _ => exact ⟨p, rfl⟩

/-- `BUSY` is bit 0 of `STATUS` (10_state.md R39). -/
theorem statusWord_accepted {s : State} (p : Pending) (hs : s.pending = none) :
    ({ s with pending := some p } : State).statusWord = s.statusWord ||| 1#32 := by
  have hbusy (x : BitVec 31) : x ++ BitVec.ofBool true = (x ++ BitVec.ofBool false) ||| (0#31 ++ 1#1) := by
    rw [BitVec.or_append, BitVec.or_zero]
    rfl
  have hidle : s.busy = false := by simp [State.busy, hs]
  rw [State.statusWord, State.statusWord, hidle]
  exact hbusy _

theorem view_accepted {r : Reg} (hr : r ≠ .status) (s : State) (p : Pending) :
    ({ s with pending := some p } : State).view r = s.view r := by
  cases r with
  | status => exact absurd rfl hr
  | _ => rfl

theorem readOutData_fst (s : State) : (readOutData s).1 = s.outDataWord := by
  obtain ⟨hq, h⟩ | ⟨x, q, hq, h⟩ := readOutData_cases s <;> rw [h, State.outDataWord, hq]

/-- Outside FAULT a read of any register returns what it shows (10_state.md R37 to R52). -/
theorem readReg_fst_of_ne_fault (r : Reg) {s : State} (hf : s.phase ≠ .fault) : (readReg r s).1 = s.view r := by
  obtain ⟨rfl, h⟩ | ⟨-, hf', -, -⟩ | ⟨-, -, h⟩ := readReg_cases r s
  · rw [h]
    exact readOutData_fst s
  · exact absurd hf' hf
  · rw [h]

/-- Settles O50: the state differs in `PENDING` alone, which no register but `STATUS` shows. -/
theorem acceptanceShowsOnlyBusy : Obligations.AcceptanceShowsOnlyBusy := by
  intro i s t hi hs h ht
  obtain ⟨p, rfl⟩ := exists_pending_of_exec hi h ht
  have hf : s.phase ≠ .fault := ht
  refine ⟨nofun, statusWord_accepted p hs, fun r hr => ?_⟩
  rw [readReg_fst_of_ne_fault r ht, readReg_fst_of_ne_fault r hf, view_accepted hr]

/-! ## `NOP` and `CLEAR` (45_control.md R149, R150) -/

/-- Settles O8: `NOP` is legal in every phase but FAULT and has no steps of its own. -/
theorem nopChangesNothing : Obligations.NopChangesNothing := fun _ hf hp =>
  congrArg Host.Outcome.next (accept_legal (i := .nop) _ hf hp (by simp [legal, hf]))

theorem eq_clear_of_opcodeField {i : Instr} (h : opcodeField (encode i) = 0x01#8) : i = .clear := by
  cases i with
  | clear => rfl
  | nop | count _ | build | encode _ | flush => simp [encode, opcodeField_commandWord] at h

@[simp] theorem codeLen_cleared (s : State) (b : Byte) : (clear s).codeLen b = 0 := by
  simp [State.codeLen]

@[simp] theorem statusWord_cleared (s : State) : (clear s).statusWord = 0#32 := by
  have herr : (clear s).err = false := rfl
  simp [State.statusWord, herr, State.busy, Phase.value, ErrCode.value]

/-- Settles O9: the one well-formed word with that opcode is `CLEAR`'s, and `clear` writes what R150 says. -/
theorem clearReturnsToStart : Obligations.ClearReturnsToStart := by
  refine ⟨rfl, fun w hop hne => ?_, fun s => ⟨clear s, rfl, ?_⟩, rfl⟩
  · by_contra hwf
    obtain ⟨i, rfl⟩ := wordWellFormed_iff_encode.mp (Bool.not_eq_false _ ▸ hwf)
    exact hne (congrArg encode (eq_clear_of_opcodeField hop))
  · simp [State.nnodes, State.irq]

end Sys2Proof.Machine
end

section
/-! PROOFS. Faults (60_exceptions.md): what enters FAULT (R162, R167, R170, R171), what works in it (R163, R164), and
what leaves it (R176). -/

namespace Sys2Proof.Machine

/-! ## Entering FAULT -/

/-- Settles O19: of the effects of a `CMD` write only a fault enters FAULT, and it is `raiseFault` with the word
written. -/
theorem faultEntryIsPrecise : Obligations.FaultEntryIsPrecise := by
  refine ⟨fun w s t h hs ht => ?_, fun _ _ _ => rfl, rfl⟩
  cases onCmdWrite_effect h with
  | faulted code hcode _ => exact ⟨code, hcode, rfl⟩
  | cleared _ => cases ht
  | ignored _ | counted _ _ _ _ _ | accepted _ _ _ _ _ => exact absurd ht hs

/-- Settles O18: `OnCmdWrite` tests FAULT, `CLEAR`'s word and `BUSY` before it decodes. -/
theorem commandWhilePendingOverruns : Obligations.CommandWhilePendingOverruns := by
  refine fun w s hf hp hw => ⟨?_, rfl, rfl⟩
  rw [commandWriteRunsAcceptanceSteps w s, if_neg hf, if_neg hw, if_pos hp]

/-- In CODED with nothing pending, `ENCODE` of a byte without a code faults (60_exceptions.md R167). -/
theorem exec_encode_of_no_code {b : Byte} {s : State} (hphase : s.phase = .coded) (hpending : s.pending = none)
    (hcode : s.codeLen b = 0) :
    exec (.encode b) s = .next (raiseFault .missingCode (encode (.encode b)) s) := by
  have haccept := accept_legal (i := .encode b) (encodeOwn b) (by simp [hphase]) hpending (by simp [hphase, legal])
  exact congrArg Host.Outcome.next (haccept.trans (if_pos hcode))

/-- In COUNT with nothing pending, `COUNT` faults where `LEN` is at its maximum (60_exceptions.md R171). -/
theorem exec_count_of_lenMax {b : Byte} {s : State} (hphase : s.phase = .count) (hpending : s.pending = none)
    (hlen : s.len = lenMax) :
    exec (.count b) s = .next (raiseFault .freqOverflow (encode (.count b)) s) := by
  have haccept := accept_legal (i := .count b) (countOwn b) (by simp [hphase]) hpending (by simp [hphase, legal])
  exact congrArg Host.Outcome.next (haccept.trans (if_pos hlen))

/-- Settles O17: the two checks are the first of the commands' own steps, and a `BUILD` of an empty count pass leaves
CODED with every code empty. -/
theorem commandChecksFault : Obligations.CommandChecksFault := by
  refine ⟨fun b s hphase hpending hcode =>
      ⟨exec_encode_of_no_code hphase hpending hcode, rfl, opndField_commandWord _ b⟩,
    fun s hfreq _ _ b => ?_,
    fun b s hphase hpending hlen => ⟨exec_count_of_lenMax hphase hpending hlen, rfl⟩⟩
  obtain ⟨tree, htree, hc⟩ := complete_build s
  rw [hc]
  refine exec_encode_of_no_code rfl rfl ?_
  rw [State.codeLen, codeAt_buildDone, codeOf_genCodes_of_uncounted htree (hfreq b), List.length_nil]

/-! ## In FAULT -/

/-- The readbacks that R164 leaves open, one by one. -/
theorem openInFault_iff_mem (r : Reg) : r.openInFault = true ↔
    r ∈ [.root, .nodeRd, .nodeWeightRd, .codeLenRd, .codeValRd 0, .codeValRd 1, .codeValRd 2, .codeValRd 3,
      .codeValRd 4, .codeValRd 5, .codeValRd 6, .codeValRd 7] := by
  cases r with
  | codeValRd k => revert k; decide
  | _ => decide

/-- In FAULT a read that R164 leaves open is a free draw (log 5). -/
theorem memRead_open_in_fault {r : Reg} {s : State} (hf : s.phase = .fault) (hr : r.openInFault = true) :
    memRead r.offset 4 s = .next (Config.faultReadback s.draws, { s with draws := s.draws + 1 }) := by
  rw [memRead_reg]
  obtain ⟨rfl, -⟩ | ⟨-, -, -, h⟩ | ⟨-, hexact, -⟩ := readReg_cases r s
  · cases hr
  · rw [h]
  · exact absurd ⟨hf, hr⟩ hexact

/-- Settles O45: the listed registers are those that R164 leaves open, and every other one but `OUT_DATA` is exact. -/
theorem unspecifiedReadsAreFreeDraws : Obligations.UnspecifiedReadsAreFreeDraws := by
  intro r s hf
  refine ⟨fun hmem => memRead_open_in_fault hf ((openInFault_iff_mem r).mpr hmem), fun hmem => ?_⟩
  obtain ⟨ho, hmem⟩ := not_or.mp (mt List.mem_cons.mpr hmem)
  exact memRead_exact s ho (Bool.eq_false_iff.mpr (mt (openInFault_iff_mem r).mp hmem))

/-- FAULT ignores every word but `CLEAR`'s (60_exceptions.md R163). -/
theorem onCmdWrite_in_fault {w : Word} {s : State} (hf : s.phase = .fault) (hw : w ≠ 0x01000000#32) :
    onCmdWrite w s = .next s := by
  rw [commandWriteRunsAcceptanceSteps w s, if_pos hf, if_neg hw]

/-- Settles O20: FAULT changes what a `CMD` write and the reads of R164 do, and no other access. -/
theorem faultPhaseIgnoresCommands : Obligations.FaultPhaseIgnoresCommands := by
  intro s hf hp _
  have hbusy : s.busy = false := by simp [State.busy, hp]
  have herr : s.err = true := by simp [State.err, hf]
  have hphase : s.phase.value = 3#2 := by rw [hf]; rfl
  exact ⟨fun _ hw => onCmdWrite_in_fault hf hw, onCmdWrite_clearWord s, fun _ hr ho => memRead_exact s ho hr,
    fun _ _ hq => memRead_outData_cons hq, fun v => memWrite_reg .intStatus v s, fun v => memWrite_reg .intEn v s,
    fun v => memWrite_reg .sel v s, rfl, (statusWord_busy s).trans hbusy, (statusWord_err s).trans herr,
    (statusWord_phase s).trans hphase, statusWord_errCode s⟩

/-! ## Leaving FAULT -/

theorem SameItems.errCmd {s t : State} (h : SameItems s t) : t.errCmd = s.errCmd := (congrArg State.errCmd h :)

/-- Settles O22: in FAULT a word that is not `CLEAR`'s is ignored, nothing is pending that could complete, and no other
access writes `PHASE` or the error registers. -/
theorem faultIsLeftOnlyByClearOrReset : Obligations.FaultIsLeftOnlyByClearOrReset := by
  intro s t h hf hstep
  refine ⟨fun hclear => ?_, fun hclear => ?_⟩
  · obtain ⟨hi, -⟩ := step_of_clearsNow hstep hclear
    exact ⟨hi.phase, hi.errCode⟩
  · cases step_effect hstep with
    | reset hm => simp [clearsNow_of_reset hm] at hclear
    | command w hw ht =>
      cases ht with
      | ignored _ => exact ⟨hf, rfl, rfl⟩
      | cleared hcw => simp [clearsNow_of_clearWord (hcw ▸ hw)] at hclear
      | faulted _ _ hphase => exact absurd hf hphase
      | counted _ _ hphase _ _ => exact absurd (hphase.symm.trans hf) nofun
      | accepted p _ hphase _ _ => exact absurd (hphase.symm.trans hf) p.startPhase_ne_fault
    | completed p _ hp _ => exact absurd ((h.phase_of_pending hp).symm.trans hf) p.startPhase_ne_fault
    | quiet ht =>
      have hi := ht.sameItems
      exact ⟨hi.phase.trans hf, hi.errCode, hi.errCmd⟩

end Sys2Proof.Machine
end

section
/-! PROOFS. The interrupt bits and the interrupt output (10_state.md R42, 60_exceptions.md R173, R174). -/

namespace Sys2Proof.Machine

/-! ## The interrupt output -/

/-- Settles O46: the masked `INT_STATUS` is not 0 exactly if one of its three bits is 1. -/
theorem irqIsMaskedLevel : Obligations.IrqIsMaskedLevel := by
  refine ⟨fun s => ?_, rfl, fun s => by simp [State.irq], fun s t v h => ?_⟩
  · rw [State.irq, bne_iff_ne, ne_eq, BitVec.eq_of_getLsbD_eq_iff]
    simp
  · cases (memWrite_reg .intEn v s).symm.trans h
    rfl

/-! ## What an access does to `INT_STATUS` -/

/-- The host's next access writes `v` to `INT_STATUS`, which clears the bits of `v` (10_state.md R42). -/
def Acknowledges (v : Word) (s t : State) : Prop :=
  s.hostProg.head? = some (.memWrite 0x010 4 v) ∧ t.intStatus = s.intStatus &&& ~~~(v.extractLsb' 0 3)

/-- A write that is no command word changes `INT_STATUS` only at its own offset. -/
theorem memWrite_intStatus {off n : Nat} {v : Word} {s t : State} (h : memWrite off n v s = .next t)
    (hcmd : HostOp.command (.memWrite off n v) = none) : t.intStatus = s.intStatus ∨
      (off = 0x010 ∧ n = 4 ∧ t.intStatus = s.intStatus &&& ~~~(v.extractLsb' 0 3)) := by
  obtain ⟨-, h'⟩ | ⟨-, -, h'⟩ | ⟨-, -, -, h'⟩ | ⟨r, he, -, hreg, h'⟩ := memWrite_cases off n v s <;> rw [h'] at h
  · cases h
  · cases h
  · cases h
    exact .inl rfl
  · obtain ⟨rfl, -⟩ := expressible_iff.mp he
    obtain rfl := offset_of_regAt hreg
    cases r with
    | cmd => simp [HostOp.command, Reg.offset] at hcmd
    | intStatus =>
      cases h
      exact .inr ⟨rfl, rfl, rfl⟩
    | _ =>
      cases h
      exact .inl rfl

/-- A step of the host that writes no command word keeps `INT_STATUS` or clears bits of it by a write to it. -/
theorem hostStep_intStatus {s t : State} (h : hostStep s = .next t)
    (hcmd : s.hostProg.head?.bind HostOp.command = none) :
    t.intStatus = s.intStatus ∨ ∃ v, Acknowledges v s t := by
  unfold hostStep at h
  split at h
  · cases h
    exact .inl rfl
  · obtain ⟨_, _, hread, rfl⟩ := hostRead_next h
    exact .inl (congrArg State.intStatus (memRead_frame hread) :)
  · next off n v rest hprog =>
    rw [hprog] at hcmd
    exact (memWrite_intStatus h hcmd).imp_right fun ⟨hoff, hn, ht⟩ => ⟨v, by rw [hprog, hoff, hn]; rfl, ht⟩
  · next rest _ =>
    cases h
    exact .inl (congrArg State.intStatus (hostDrain_eq (s := { s with hostProg := rest }) (rest := rest) rfl) :)
  · cases h
    simp only [hostWait, readReg_status]
    split <;> exact .inl rfl
  · cases h
    rw [hostWaitPop_eq]
    exact .inl rfl

/-! ## The interrupt events of a step -/

/-- A step that writes a command word has that word's effect. -/
theorem commandEffect_of_commandNow {s t : State} {w : Word} (h : step s = .next t) (hw : s.commandNow = some w) :
    CommandEffect w s.takeTurn.takeOp t := by
  obtain ⟨hm, rest, hprog⟩ := commandOp_of_commandNow hw
  rw [step_of_host hm, hostStep_command (s := s.takeTurn) hprog] at h
  rw [State.takeOp, takeTurn_hostProg, hprog]
  exact onCmdWrite_effect h

/-- What a step that is no `CLEAR` and no reset does to `INT_STATUS` (60_exceptions.md R173, 10_state.md R42). -/
inductive InterruptEffect (s t : State) : Prop where
  | faulted (hc : s.completesNow = none) (hs : s.phase ≠ .fault) (ht : t.phase = .fault)
      (hi : t.intStatus = s.intStatus ||| errI)
  | built (hc : s.completesNow = some .build) (ht : t.phase ≠ .fault) (hi : t.intStatus = s.intStatus ||| buildI)
  | flushed (hc : s.completesNow = some .flush) (ht : t.phase ≠ .fault) (hi : t.intStatus = s.intStatus ||| flushI)
  | kept (hb : s.completesNow ≠ some .build) (hf : s.completesNow ≠ some .flush) (ht : t.phase = s.phase)
      (hi : t.intStatus = s.intStatus)
  | acknowledged (v : Word) (hm : s.mover = .host) (hc : s.completesNow = none) (ht : t.phase = s.phase)
      (ha : Acknowledges v s t)

namespace InterruptEffect

variable {s t : State}

theorem of_commandEffect {w : Word} (hc : s.completesNow = none) (hw : w ≠ clearWord)
    (h : CommandEffect w s.takeTurn.takeOp t) : InterruptEffect s t := by
  cases h with
  | cleared hclear => exact absurd hclear hw
  | faulted _ _ hphase => exact .faulted hc hphase rfl rfl
  | ignored _ | counted _ _ _ _ _ | accepted _ _ _ _ _ => exact .kept (by simp [hc]) (by simp [hc]) rfl rfl

theorem of_complete {p : Pending} (hc : s.completesNow = some p) : InterruptEffect s (complete p s.takeTurn) := by
  cases p with
  | build =>
    obtain ⟨tree, -, hbuild⟩ := complete_build s.takeTurn
    rw [hbuild]
    exact .built hc nofun rfl
  | encode b => exact .kept (by simp [hc]) (by simp [hc]) (by simp) (by simp)
  | flush => exact .flushed hc (by simp) (by simp)

theorem of_hostStep (hm : s.mover = .host) (hw : s.commandNow = none) (h : hostStep s.takeTurn = .next t) :
    InterruptEffect s t := by
  have hc : s.completesNow = none := by simp [State.completesNow, hm]
  have hcmd : s.hostProg.head?.bind HostOp.command = none := by simpa [State.commandNow, hm] using hw
  obtain ⟨w, hw', -⟩ | hquiet := hostStep_effect h
  · cases hcmd.symm.trans hw'
  · have hphase : t.phase = s.phase := hquiet.sameItems.phase
    obtain hi | ⟨v, ha⟩ := hostStep_intStatus h hcmd
    · exact .kept (by simp [hc]) (by simp [hc]) hphase hi
    · exact .acknowledged v hm hc hphase ha

theorem of_blockStep (hm : s.mover = .block) : InterruptEffect s (blockStep s.takeTurn) := by
  obtain ⟨he, hb⟩ | ⟨p, hp, he, hb⟩ := blockStep_cases s.takeTurn <;> rw [hb]
  · have he : s.blockEnabled = false := he
    have hc : s.completesNow = none := by simp [State.completesNow, he]
    exact .kept (by simp [hc]) (by simp [hc]) rfl rfl
  · exact of_complete (completesNow_eq_some.mpr ⟨⟨hm, he⟩, hp⟩)

end InterruptEffect

/-- A step writes a command word, completes a command, makes another access or does nothing. -/
theorem step_interruptEffect {s t : State} (h : step s = .next t) (hclear : s.clearsNow = false) :
    InterruptEffect s t := by
  cases hw : s.commandNow with
  | some w =>
    refine .of_commandEffect (completesNow_of_commandNow hw) ?_ (commandEffect_of_commandNow h hw)
    rintro rfl
    simp [clearsNow_of_clearWord hw] at hclear
  | none =>
    obtain ⟨hm, hstep⟩ | ⟨hm, hstep⟩ | ⟨hm, -⟩ := step_cases s
    · exact .of_hostStep hm hw (hstep.symm.trans h)
    · cases hstep.symm.trans h
      exact .of_blockStep hm
    · simp [clearsNow_of_reset hm] at hclear

/-- Settles O47: a fault, a completing `BUILD` and a completing `FLUSH` each set their bit beside those set before, a
write to `INT_STATUS` only clears the bits that it names, and every other step leaves the bits as they are. In each of
these cases the clauses are read off bit by bit. -/
theorem interruptBitsFollowTheirEvents : Obligations.InterruptBitsFollowTheirEvents := by
  intro s t _ hstep hclear
  cases step_interruptEffect hstep hclear with
  | faulted hc hs ht hi => simp +contextual [hc, hs, ht, hi, errI]
  | built hc ht hi => simp +contextual [hc, ht, hi, buildI]
  | flushed hc ht hi => simp +contextual [hc, ht, hi, flushI]
  | kept hb hf ht hi => simp +contextual [hb, hf, ht, hi]
  | acknowledged v hm hc ht ha =>
    obtain ⟨hhead, hi⟩ := ha
    have hwidth (k : Nat) (hk : s.intStatus.getLsbD k = true) : k < 3 := BitVec.lt_of_getLsbD hk
    simp +contextual [hm, hc, ht, hi, hhead, hwidth]

end Sys2Proof.Machine
end

section
/-! PROOFS. The state after reset and what its registers read (70_reset_and_hazards.md R186), and what a reset edge does in
any state (R185, R187). -/

namespace Sys2Proof.Machine

/-! ## The registers after reset -/

theorem freqAt_reset (b : Byte) : State.reset.freqAt b = 0#32 := by
  simp [State.freqAt, freqOf, State.reset]

theorem codeAt_reset (b : Byte) : State.reset.codeAt b = [] := by
  simp [State.codeAt, codeOf, State.reset]

/-- Every register but the two constants shows 0 after reset: its item is 0, empty or absent (10_state.md R37 to R52). -/
theorem view_reset {r : Reg} (hid : r ≠ .id) (hparam : r ≠ .param) : State.reset.view r = 0#32 := by
  cases r with
  | id => exact absurd rfl hid
  | param => exact absurd rfl hparam
  | freqRd => exact freqAt_reset _
  | codeLenRd => rw [State.view, codeLen_reset]; rfl
  | codeValRd k =>
    rw [State.view, codeAt_reset]
    exact BitVec.extractLsb'_zero
  | _ => rfl

/-- After reset every register reads what it shows, and no read changes the state: `PHASE` is not FAULT and `OUTQ` is
empty. -/
theorem readReg_reset (r : Reg) : readReg r State.reset = (State.reset.view r, State.reset) := by
  obtain ⟨rfl, -⟩ | ⟨-, hfault, -, -⟩ | ⟨-, -, h⟩ := readReg_cases r State.reset
  · rfl
  · nomatch hfault
  · exact h

/-- Settles O48: the tables hold one value at every index, the other items are read off the reset state, and each register
reads what it shows. -/
theorem resetStateIsDefined : Obligations.ResetStateIsDefined := by
  refine ⟨rfl, rfl, freqAt_reset, rfl, rfl, rfl, rfl, codeLen_reset, rfl, rfl, rfl, rfl, rfl, rfl, rfl, rfl, rfl,
    fun r => ?_⟩
  rw [readReg_reset]
  split_ifs with hid hparam
  · rw [hid]
    rfl
  · rw [hparam]
  · rw [view_reset hid hparam]

/-! ## A reset edge -/

/-- Whatever the state, HEC's own part of it is that of the reset state after a reset edge (70_reset_and_hazards.md R185). -/
theorem resetHec_hec (s : State) : (resetHec s).hec = State.reset.hec := rfl

/-- Settles O49: `CLEAR` gives every item its reset value but `INT_EN` and `SEL`, and a turn of reset moves by
`resetHec`. -/
theorem resetIsClearWithMaskAndSelector : Obligations.ResetIsClearWithMaskAndSelector := by
  refine ⟨fun _ => rfl, fun s ts hturns => ?_⟩
  have hmover : s.mover = .rst := by rw [State.mover, hturns]
  exact ⟨_, step_of_rst hmover, resetHec_hec _, congrArg List.tail hturns, rfl, rfl, rfl⟩

end Sys2Proof.Machine
end
